-- ==== Sys2Proof/Word.lean ====
section
/-!
DEFINITION. The word types of the gm-helper CORE: bytes, 32-bit words (commands, SM3 words, control registers) and
256-bit big numbers (00_scope.md R5, R6, R8, R9).
-/
namespace Sys2Proof

/-- A byte (R9). -/
abbrev Byte := BitVec 8

/-- A 32-bit word: a command, an SM3 word, a control register or a bus word (R5, R6, R63). -/
abbrev Word := BitVec 32

/-- A 256-bit value: the content of a big-number register or of one coordinate of a point register (R5, R21, R24). -/
abbrev Big := BitVec 256

/-- A byte string, first byte first (R9). -/
abbrev Bytes := List Byte

end Sys2Proof
end

