-- ==== Sys2Proof/Machine/Bytes.lean ====
section
/-!
DEFINITION. Numbers, bits and byte strings as 00_scope.md R8 and R9 write them: bit fields, `bitlen`, the residue of an
integer, `be_N`, `int`, substrings, byte-wise exclusive or.
-/
namespace Sys2Proof.Machine

/-- `v[hi:lo]` as a number (R8). -/
def bitField (hi lo : Nat) (v : Nat) : Nat := v / 2 ^ lo % 2 ^ (hi - lo + 1)

/-- `bitlen(k)`: 0 for 0, else the position of the highest set bit plus one (R8). -/
def bitlen (k : Nat) : Nat := if k = 0 then 0 else Nat.log2 k + 1

/-- `z mod m`, the representative in `[0, m-1]` of an integer that may be negative (R8). -/
def imod (z : Int) (m : Nat) : Nat := (z % (m : Int)).toNat

/-- `be_N(v)`: the `N`-byte big-endian encoding (R9). -/
def be : Nat → Nat → Bytes
  | 0, _ => []
  | k + 1, v => BitVec.ofNat 8 (v / 256 ^ k) :: be k v

/-- `int(s)`: the integer whose big-endian encoding is `s` (R9). -/
def int (s : Bytes) : Nat := s.foldl (fun acc b => acc * 256 + b.toNat) 0

/-- `s[i..j)` (R9). -/
def slice (s : Bytes) (i j : Nat) : Bytes := (s.drop i).take (j - i)

/-- Byte-wise exclusive or of two strings of equal length (R9). -/
def xorBytes (s t : Bytes) : Bytes := List.zipWith (fun a b => a ^^^ b) s t

/-- Is every byte of the string 0x00? -/
def allZero (s : Bytes) : Bool := s.all (fun b => b == 0)

end Sys2Proof.Machine
end

