-- ==== Sys2Proof/Syntax.lean ====
section
/-!
DEFINITION. The commands of GMH-CMD 1.0 (30_encoding.md R94), one constructor for each row of the opcode table, with
their operands as R99 reads them, and the pseudo-instructions of R101 as expansions into them.
-/
namespace Sys2Proof

/-- The number of a big-number register, `r0` to `r15` (R21, R99). -/
abbrev Reg := Fin 16

/-- The number of a point register, `p0` to `p3` (R24, R99). -/
abbrev PReg := Fin 4

/-- The modulus a command of the field family selects with its bit `m` (R122). -/
inductive Modulus where
  /-- `m = 0`: the prime of the field. -/
  | p
  /-- `m = 1`: the order of the base point. -/
  | n
deriving DecidableEq, Repr

/-- The constants LDC can load, by the names of R100; their numbers 0 to 5 are those of R129. -/
inductive Const where
  | P
  | A
  | B
  | N
  | GX
  | GY
deriving DecidableEq, Repr

/-- A command of GMH-CMD 1.0: the 26 rows of R94. -/
inductive Instr where
  /-- 0x10, R123. -/
  | modadd (rd ra rb : Reg) (m : Modulus)
  /-- 0x11, R124. -/
  | modsub (rd ra rb : Reg) (m : Modulus)
  /-- 0x12, R125. -/
  | modmul (rd ra rb : Reg) (m : Modulus)
  /-- 0x13, R126. -/
  | modinv (rd ra : Reg) (m : Modulus)
  /-- 0x14, R128. -/
  | montmul (rd ra rb : Reg) (m : Modulus)
  /-- 0x15, R129. -/
  | ldc (rd : Reg) (c : Const)
  /-- 0x20, R145. -/
  | padd (pd pa pb : PReg)
  /-- 0x21, R146. -/
  | pdbl (pd pa : PReg)
  /-- 0x22, R147. -/
  | pmul (pd pa : PReg) (rk : Reg)
  /-- 0x23, R148. -/
  | pchk (pa : PReg)
  /-- 0x24, R149. -/
  | pldg (pd : PReg)
  /-- 0x25, R150. -/
  | penc (pa : PReg)
  /-- 0x26, R151. -/
  | pdec (pd : PReg)
  /-- 0x30, R176. -/
  | sm3init
  /-- 0x31, R177. -/
  | sm3blk
  /-- 0x32, R178. -/
  | sm3hash
  /-- 0x40, R191; `l` is the unsigned immediate. -/
  | kdfgen (l : BitVec 16)
  /-- 0x41, R192. -/
  | kdfxor
  /-- 0x50, R204. -/
  | derenc (ra rb : Reg)
  /-- 0x51, R205; `rd` and `re` must differ (R98 (e)), which `Instr.wellFormed` checks. -/
  | derdec (rd re : Reg)
  /-- 0x60, R219. -/
  | sm2key
  /-- 0x61, R220. -/
  | sm2z
  /-- 0x62, R222. -/
  | sm2sign
  /-- 0x63, R228. -/
  | sm2vfy
  /-- 0x64, R236. -/
  | sm2enc
  /-- 0x65, R242. -/
  | sm2dec
deriving DecidableEq, Repr

end Sys2Proof
end

