-- ==== Sys2Proof/WellFormed.lean ====
section
/-!
DEFINITION. Which terms of `Instr` are commands: all but DERDEC with two equal destinations (30_encoding.md R98 (e)).
The other restrictions of R98 are facts about words, not about terms: no term of `Instr` can break them.
-/
namespace Sys2Proof

/-- The constraint column of R94 on what the syntax can write. -/
def Instr.wellFormed : Instr → Bool
  | .modadd _ _ _ _ => true
  | .modsub _ _ _ _ => true
  | .modmul _ _ _ _ => true
  | .modinv _ _ _ => true
  | .montmul _ _ _ _ => true
  | .ldc _ _ => true
  | .padd _ _ _ => true
  | .pdbl _ _ => true
  | .pmul _ _ _ => true
  | .pchk _ => true
  | .pldg _ => true
  | .penc _ => true
  | .pdec _ => true
  | .sm3init => true
  | .sm3blk => true
  | .sm3hash => true
  | .kdfgen _ => true
  | .kdfxor => true
  | .derenc _ _ => true
  | .derdec rd re => decide (rd ≠ re)
  | .sm2key => true
  | .sm2z => true
  | .sm2sign => true
  | .sm2vfy => true
  | .sm2enc => true
  | .sm2dec => true

end Sys2Proof
end

