-- ==== Sys2Proof/Decode.lean ====
section
/-!
DEFINITION. The decoder and the encoder of command words: the formats of 30_encoding.md R91 to R93, the opcodes of R94,
the operands of R99, the illegal words of R98. `decode` is total on all 2^32 words (R97).
-/
namespace Sys2Proof
open Sys2Proof.Machine

/-- Why a word is illegal: the cases of R98. Every one of them ends with IllegalCommandError (R97). -/
inductive Illegal where
  /-- R98 (a): no such opcode. -/
  | opcode
  /-- R98 (b) and (f): a nonzero bit in a must-be-zero position. -/
  | mustBeZero
  /-- R98 (c): a point register field above 3. -/
  | pointRegister
  /-- R98 (d): LDC with a constant index of 6 to 15. -/
  | constantIndex
  /-- R98 (e): DERDEC with rd = re. -/
  | sameRegister
deriving DecidableEq, Repr

/-- `w[hi:lo]` (R8). -/
def wordField (hi lo : Nat) (w : Word) : Nat := bitField hi lo w.toNat

/-- Bits 31:24, the opcode in every format (R90). -/
def opcodeField (w : Word) : Nat := wordField 31 24 w

/-- A big-number register field, the four bits from `lo` up (R91, R99). -/
def regField (lo : Nat) (w : Word) : Reg := Fin.ofNat 16 (wordField (lo + 3) lo w)

/-- A point register field, the low two of the four bits from `lo` up (R99). -/
def pregField (lo : Nat) (w : Word) : PReg := Fin.ofNat 4 (wordField (lo + 1) lo w)

/-- The modulus select, bit 0 (R91, R99). -/
def modField (w : Word) : Modulus := if wordField 0 0 w = 0 then .p else .n

/-- Are all bits `hi` down to `lo` zero? -/
def zeroField (hi lo : Nat) (w : Word) : Bool := wordField hi lo w == 0

/-- Do the four bits from `lo` up name a point register, that is, are the upper two zero (R91, R99)? -/
def isPoint (lo : Nat) (w : Word) : Bool := wordField (lo + 3) lo w < 4

/-- The constants of R129 by their numbers. -/
def constOf : Nat → Option Const
  | 0 => some .P
  | 1 => some .A
  | 2 => some .B
  | 3 => some .N
  | 4 => some .GX
  | 5 => some .GY
  | _ => none

/-- Go on if the check holds, else refuse for the reason given. -/
def need (check : Bool) (why : Illegal) (rest : Except Illegal Instr) : Except Illegal Instr :=
  if check then rest else .error why

/-- A command of format Z: bits 23:0 zero (R93). -/
def formZ (w : Word) (i : Instr) : Except Illegal Instr := need (zeroField 23 0 w) .mustBeZero (.ok i)

/-- A command of format R with three big-number registers and a modulus: f4 and bits 7:1 zero (R91, R94). -/
def formRm3 (w : Word) (c : Reg → Reg → Reg → Modulus → Instr) : Except Illegal Instr :=
  need (zeroField 11 1 w) .mustBeZero (.ok (c (regField 20 w) (regField 16 w) (regField 12 w) (modField w)))

/-- LDC: f2, f3 and bits 7:0 zero, the constant index at most 5 (R94, R98 (d)). -/
def decodeLdc (w : Word) : Except Illegal Instr :=
  need (zeroField 19 12 w && zeroField 7 0 w) .mustBeZero
    (match constOf (wordField 11 8 w) with
      | some c => .ok (.ldc (regField 20 w) c)
      | none => .error .constantIndex)

/-- `Decode(w)` of R97: the command the word selects, with its operands, or why it selects none. -/
def decode (w : Word) : Except Illegal Instr :=
  match opcodeField w with
  | 0x10 => formRm3 w .modadd
  | 0x11 => formRm3 w .modsub
  | 0x12 => formRm3 w .modmul
  | 0x13 => need (zeroField 15 1 w) .mustBeZero (.ok (.modinv (regField 20 w) (regField 16 w) (modField w)))
  | 0x14 => formRm3 w .montmul
  | 0x15 => decodeLdc w
  | 0x20 => need (zeroField 11 0 w) .mustBeZero (need (isPoint 20 w && isPoint 16 w && isPoint 12 w) .pointRegister
      (.ok (.padd (pregField 20 w) (pregField 16 w) (pregField 12 w))))
  | 0x21 => need (zeroField 15 0 w) .mustBeZero (need (isPoint 20 w && isPoint 16 w) .pointRegister
      (.ok (.pdbl (pregField 20 w) (pregField 16 w))))
  | 0x22 => need (zeroField 15 12 w && zeroField 7 0 w) .mustBeZero (need (isPoint 20 w && isPoint 16 w) .pointRegister
      (.ok (.pmul (pregField 20 w) (pregField 16 w) (regField 8 w))))
  | 0x23 => need (zeroField 23 20 w && zeroField 15 0 w) .mustBeZero (need (isPoint 16 w) .pointRegister
      (.ok (.pchk (pregField 16 w))))
  | 0x24 => need (zeroField 19 0 w) .mustBeZero (need (isPoint 20 w) .pointRegister (.ok (.pldg (pregField 20 w))))
  | 0x25 => need (zeroField 23 20 w && zeroField 15 0 w) .mustBeZero (need (isPoint 16 w) .pointRegister
      (.ok (.penc (pregField 16 w))))
  | 0x26 => need (zeroField 19 0 w) .mustBeZero (need (isPoint 20 w) .pointRegister (.ok (.pdec (pregField 20 w))))
  | 0x30 => formZ w .sm3init
  | 0x31 => formZ w .sm3blk
  | 0x32 => formZ w .sm3hash
  | 0x40 => need (zeroField 23 16 w) .mustBeZero (.ok (.kdfgen (BitVec.ofNat 16 (wordField 15 0 w))))
  | 0x41 => formZ w .kdfxor
  | 0x50 => need (zeroField 23 20 w && zeroField 11 0 w) .mustBeZero (.ok (.derenc (regField 16 w) (regField 12 w)))
  | 0x51 => need (zeroField 15 0 w) .mustBeZero (need (decide (regField 20 w ≠ regField 16 w)) .sameRegister
      (.ok (.derdec (regField 20 w) (regField 16 w))))
  | 0x60 => formZ w .sm2key
  | 0x61 => formZ w .sm2z
  | 0x62 => formZ w .sm2sign
  | 0x63 => formZ w .sm2vfy
  | 0x64 => formZ w .sm2enc
  | 0x65 => formZ w .sm2dec
  | _ => .error .opcode

/-- A word of format R from its fields (R91). -/
def wordR (op f1 f2 f3 f4 m : Nat) : Word :=
  BitVec.ofNat 32 (op * 2 ^ 24 + f1 * 2 ^ 20 + f2 * 2 ^ 16 + f3 * 2 ^ 12 + f4 * 2 ^ 8 + m)

/-- A word of format I (R92). -/
def wordI (op imm : Nat) : Word := BitVec.ofNat 32 (op * 2 ^ 24 + imm)

/-- A word of format Z (R93). -/
def wordZ (op : Nat) : Word := BitVec.ofNat 32 (op * 2 ^ 24)

/-- The bit `m` of a modulus (R122). -/
def modBit : Modulus → Nat
  | .p => 0
  | .n => 1

/-- The number of a constant (R129). -/
def constIndex : Const → Nat
  | .P => 0
  | .A => 1
  | .B => 2
  | .N => 3
  | .GX => 4
  | .GY => 5

/-- The word of a command, written from R91 to R94. -/
def encode : Instr → Word
  | .modadd rd ra rb m => wordR 0x10 rd ra rb 0 (modBit m)
  | .modsub rd ra rb m => wordR 0x11 rd ra rb 0 (modBit m)
  | .modmul rd ra rb m => wordR 0x12 rd ra rb 0 (modBit m)
  | .modinv rd ra m => wordR 0x13 rd ra 0 0 (modBit m)
  | .montmul rd ra rb m => wordR 0x14 rd ra rb 0 (modBit m)
  | .ldc rd c => wordR 0x15 rd 0 0 (constIndex c) 0
  | .padd pd pa pb => wordR 0x20 pd pa pb 0 0
  | .pdbl pd pa => wordR 0x21 pd pa 0 0 0
  | .pmul pd pa rk => wordR 0x22 pd pa 0 rk 0
  | .pchk pa => wordR 0x23 0 pa 0 0 0
  | .pldg pd => wordR 0x24 pd 0 0 0 0
  | .penc pa => wordR 0x25 0 pa 0 0 0
  | .pdec pd => wordR 0x26 pd 0 0 0 0
  | .sm3init => wordZ 0x30
  | .sm3blk => wordZ 0x31
  | .sm3hash => wordZ 0x32
  | .kdfgen l => wordI 0x40 l.toNat
  | .kdfxor => wordZ 0x41
  | .derenc ra rb => wordR 0x50 0 ra rb 0 0
  | .derdec rd re => wordR 0x51 rd re 0 0 0
  | .sm2key => wordZ 0x60
  | .sm2z => wordZ 0x61
  | .sm2sign => wordZ 0x62
  | .sm2vfy => wordZ 0x63
  | .sm2enc => wordZ 0x64
  | .sm2dec => wordZ 0x65

/-- A row of the opcode map of R94: mnemonic, opcode mask and match value. -/
structure OpcodeRow where
  /-- The mnemonic column. -/
  mnemonic : String
  /-- The mask column. -/
  mask : Word
  /-- The match column. -/
  code : Word
deriving DecidableEq, Repr

/-- The opcode map of R94 as its mask and match columns: the rows of 0x1 and 0x2. -/
def opcodeRowsA : List OpcodeRow :=
  [⟨"MODADD", 0xFF000FFE#32, 0x10000000#32⟩,
   ⟨"MODSUB", 0xFF000FFE#32, 0x11000000#32⟩,
   ⟨"MODMUL", 0xFF000FFE#32, 0x12000000#32⟩,
   ⟨"MODINV", 0xFF00FFFE#32, 0x13000000#32⟩,
   ⟨"MONTMUL", 0xFF000FFE#32, 0x14000000#32⟩,
   ⟨"LDC", 0xFF0FF8FF#32, 0x15000000#32⟩,
   ⟨"PADD", 0xFFCCCFFF#32, 0x20000000#32⟩,
   ⟨"PDBL", 0xFFCCFFFF#32, 0x21000000#32⟩,
   ⟨"PMUL", 0xFFCCF0FF#32, 0x22000000#32⟩,
   ⟨"PCHK", 0xFFFCFFFF#32, 0x23000000#32⟩,
   ⟨"PLDG", 0xFFCFFFFF#32, 0x24000000#32⟩,
   ⟨"PENC", 0xFFFCFFFF#32, 0x25000000#32⟩,
   ⟨"PDEC", 0xFFCFFFFF#32, 0x26000000#32⟩]

/-- The opcode map of R94: the rows of 0x3 to 0x6. -/
def opcodeRowsB : List OpcodeRow :=
  [⟨"SM3INIT", 0xFFFFFFFF#32, 0x30000000#32⟩,
   ⟨"SM3BLK", 0xFFFFFFFF#32, 0x31000000#32⟩,
   ⟨"SM3HASH", 0xFFFFFFFF#32, 0x32000000#32⟩,
   ⟨"KDFGEN", 0xFFFF0000#32, 0x40000000#32⟩,
   ⟨"KDFXOR", 0xFFFFFFFF#32, 0x41000000#32⟩,
   ⟨"DERENC", 0xFFF00FFF#32, 0x50000000#32⟩,
   ⟨"DERDEC", 0xFF00FFFF#32, 0x51000000#32⟩,
   ⟨"SM2KEY", 0xFFFFFFFF#32, 0x60000000#32⟩,
   ⟨"SM2Z", 0xFFFFFFFF#32, 0x61000000#32⟩,
   ⟨"SM2SIGN", 0xFFFFFFFF#32, 0x62000000#32⟩,
   ⟨"SM2VFY", 0xFFFFFFFF#32, 0x63000000#32⟩,
   ⟨"SM2ENC", 0xFFFFFFFF#32, 0x64000000#32⟩,
   ⟨"SM2DEC", 0xFFFFFFFF#32, 0x65000000#32⟩]

/-- The opcode map of R94, all 26 rows. -/
def opcodeRows : List OpcodeRow := opcodeRowsA ++ opcodeRowsB

/-- The constraint column of R94: c ≤ 5 for LDC, rd ≠ re for DERDEC. -/
def rowConstraint (row : OpcodeRow) (w : Word) : Bool :=
  if row.code = 0x15000000#32 then decide (wordField 11 8 w ≤ 5)
  else if row.code = 0x51000000#32 then decide (wordField 23 20 w ≠ wordField 19 16 w)
  else true

/-- "A word w selects the command iff w and mask = match and the listed constraint holds" (R94). -/
def selects (row : OpcodeRow) (w : Word) : Bool := (w &&& row.mask == row.code) && rowConstraint row w

/-- The mnemonic of a command, as the table spells it (R94, R100). -/
def mnemonic : Instr → String
  | .modadd _ _ _ _ => "MODADD"
  | .modsub _ _ _ _ => "MODSUB"
  | .modmul _ _ _ _ => "MODMUL"
  | .modinv _ _ _ => "MODINV"
  | .montmul _ _ _ _ => "MONTMUL"
  | .ldc _ _ => "LDC"
  | .padd _ _ _ => "PADD"
  | .pdbl _ _ => "PDBL"
  | .pmul _ _ _ => "PMUL"
  | .pchk _ => "PCHK"
  | .pldg _ => "PLDG"
  | .penc _ => "PENC"
  | .pdec _ => "PDEC"
  | .sm3init => "SM3INIT"
  | .sm3blk => "SM3BLK"
  | .sm3hash => "SM3HASH"
  | .kdfgen _ => "KDFGEN"
  | .kdfxor => "KDFXOR"
  | .derenc _ _ => "DERENC"
  | .derdec _ _ => "DERDEC"
  | .sm2key => "SM2KEY"
  | .sm2z => "SM2Z"
  | .sm2sign => "SM2SIGN"
  | .sm2vfy => "SM2VFY"
  | .sm2enc => "SM2ENC"
  | .sm2dec => "SM2DEC"

/-- A word as the host lays it out on the bus: big-endian, first byte at the lowest address (R61). -/
def wordBytes (w : Word) : Bytes := be 4 w.toNat

/-- The word four bytes make on the bus (R61). -/
def wordOfBytes (b : Bytes) : Word := BitVec.ofNat 32 (int b)

/-- MODSQR rd, ra, m (R101). -/
def pseudoModsqr (rd ra : Reg) (m : Modulus) : List Instr := [.modmul rd ra ra m]

/-- PMULG pd, rk (R101). -/
def pseudoPmulg (pd : PReg) (rk : Reg) : List Instr := [.pldg pd, .pmul pd pd rk]

/-- MODRED rd, ra, m, defined when rd ≠ ra (R101). -/
def pseudoModred (rd ra : Reg) (m : Modulus) : Option (List Instr) :=
  if rd ≠ ra then some [.modsub rd ra ra m, .modadd rd ra rd m] else none

/-- What the decoder reads from a row's word, bit 0 the least significant (opcode_table.json). The word is laid out as the
bus carries it and read back; it has no bits above `nbits`. -/
def decodeTableWord (nbits w : Nat) : Option Instr :=
  (decode (wordOfBytes (wordBytes (BitVec.ofNat 32 (w % 2 ^ nbits))))).toOption

end Sys2Proof
end

