-- ==== Sys2Proof/Config.lean ====
section
/-!
DEFINITION. What one machine of this kind fixes and the spec leaves open: BUF_BYTES, BASE, IS_WS (00_scope.md R7), and the
free values of a refused bus read (20_memory.md R63) and of a KDF counter beyond 32 bits (44_kdf.md R190). The constants
without a body are opaque: no proof can use a value of theirs, so a theorem holds for every machine the spec allows. What is
computed from them is irreducible, so that no proof unfolds it by accident.
-/
namespace Sys2Proof.Config

/-- The free part of BUF_BYTES; log entry 1. -/
opaque bufParam : Nat

/-- BUF_BYTES of R7, the capacity of IBUF, OBUF and ABUF. Every number from 256 to 2^31 - 1, and no other, is the value
for some `bufParam`. -/
@[irreducible] def bufBytes : Nat := bufParam % (2 ^ 31 - 256) + 256

/-- SIG_BYTES of R6, the capacity of SIGBUF. -/
def sigBytes : Nat := 72

/-- ID_MAX of R6, the longest identity in bytes. -/
def idMax : Nat := 8191

/-- BSTRIDE of 20_memory.md R72: the larger of 0x1000 and the smallest power of two not below BUF_BYTES. -/
@[irreducible] def bstride : Nat := max 0x1000 (2 ^ Nat.clog 2 bufBytes)

/-- The size of the register window in bytes (R72). -/
@[irreducible] def windowSize : Nat := 4 * bstride

/-- The free part of BASE; log entry 2. -/
opaque baseParam : Nat

/-- BASE of R7 and R72: some multiple of the window's size. -/
@[irreducible] def base : Nat := baseParam * windowSize

/-- IS_WS of R7: the bytes the blank-input quirk of SM3HASH counts as whitespace (43_sm3.md R178); log entry 3. -/
opaque isWs : Byte → Bool

/-- FREE VALUE: the data of the k-th refused bus read, which R63 leaves unspecified; log entry 7. -/
opaque freeData : Nat → Word

/-- FREE VALUE: what the 32-bit counter of the KDF (44_kdf.md R190) holds where its count reaches 2^32, of which the source
does not say; no command gets there; log entry 16. -/
opaque kdfCounter : Nat → Word

end Sys2Proof.Config
end

