-- ==== Sys2Proof/Machine/State.lean ====
section
/-!
DEFINITION. The state of the gm-helper CORE: the architectural state of 10_state.md R20 and, beside it, the model's own
fields for the two agents outside the core (R13): what the host will do, what the random source will answer. Plain data.
-/
namespace Sys2Proof.Machine

/-- The four byte buffers (R39). -/
inductive Buf where
  | ibuf
  | obuf
  | abuf
  | sigbuf
deriving DecidableEq, Repr

/-- The content of one buffer: the bytes that are not 0x00, each with its index, indices strictly rising. A byte not
listed is 0x00, the reset content (R48). -/
abbrev Memory := List Host.Cell

/-- A point register (R24). Its value is the point at infinity when `inf` is true, else the pair. -/
structure PointReg where
  /-- The field X. -/
  x : Big
  /-- The field Y. -/
  y : Big
  /-- The field INF. -/
  inf : Bool
deriving DecidableEq, Repr

/-- CFG (R33). Its reserved bits read 0 and are not stored. -/
structure Cfg where
  /-- Bit 0: ciphertext order, false `C1‖C3‖C2`, true `C1‖C2‖C3`. -/
  order : Bool
  /-- Bit 1: true when C1 has no prefix byte. -/
  nopfx : Bool
  /-- Bit 2: true when ABUF holds the identity. -/
  idset : Bool
  /-- Bit 3: true for the blank-input quirk of SM3HASH. -/
  blankq : Bool
deriving DecidableEq, Repr

/-- The nine errors of 60_exceptions.md R261. -/
inductive CmdError where
  /-- Code 1. -/
  | validation
  /-- Code 2. -/
  | signatureGeneration
  /-- Code 3. -/
  | encryptionGeneration
  /-- Code 4. -/
  | signatureFormat
  /-- Code 5. -/
  | decryptionIntegrity
  /-- Code 6. -/
  | invalidPoint
  /-- Code 7. -/
  | notInvertible
  /-- Code 8. -/
  | illegalCommand
  /-- Code 9. -/
  | capacity
deriving DecidableEq, Repr

/-- The abstract host operations of 20_memory.md R70. -/
inductive HostOp where
  | writeReg (k : Reg) (v : Big)
  | readReg (k : Reg)
  | writePointX (k : PReg) (v : Big)
  | writePointY (k : PReg) (v : Big)
  | writePointInf (k : PReg) (b : Bool)
  | readPointX (k : PReg)
  | readPointY (k : PReg)
  | readPointInf (k : PReg)
  | writeV (i : Fin 8) (v : Word)
  | readV (i : Fin 8)
  | writeBuf (b : Buf) (off : Nat) (v : Byte)
  | readBuf (b : Buf) (off : Nat)
  | writeLen (b : Buf) (v : Word)
  | readLen (b : Buf)
  | writeCfg (v : Word)
  | readCfg
  | writeCap (v : Word)
  | readCap
  | readStatus
  | clearStatus
  | issue (w : Word)
  | reset
deriving DecidableEq, Repr

/-- A host access to the register window at a bus address (R63, R72). Half words are 16 bits. -/
inductive BusAccess where
  | readByte (addr : Nat)
  | readHalf (addr : Nat)
  | readWord (addr : Nat)
  | writeByte (addr : Nat) (v : Byte)
  | writeHalf (addr : Nat) (v : BitVec 16)
  | writeWord (addr : Nat) (v : Word)
deriving DecidableEq, Repr

/-- What the host does next (R13). -/
inductive HostEvent where
  /-- The host lets the core move: a command in flight completes. -/
  | pass
  /-- An abstract operation. -/
  | op (o : HostOp)
  /-- A bus access. -/
  | bus (a : BusAccess)
deriving DecidableEq, Repr

/-- What the host's last access gave. -/
inductive Response where
  /-- No access since reset. -/
  | idle
  /-- A write taken or ignored without a bus error (R74, R271). -/
  | ack
  /-- The data of a byte read. -/
  | byte (v : Byte)
  /-- The data of a word read. -/
  | word (v : Word)
  /-- The 256 bits of HostReadReg or HostReadPoint. -/
  | big (v : Big)
  /-- A refused read: a bus error with unspecified data (R63). -/
  | readError (data : Word)
  /-- A refused write: a bus error (R63). -/
  | writeError
deriving DecidableEq, Repr

/-- The state of the machine. -/
structure State where
  /-- The big-number registers r0 to r15 (R21). -/
  r : Vector Big 16
  /-- The point registers p0 to p3 (R24). -/
  p : Vector PointReg 4
  /-- The SM3 chaining words V0 to V7 (R26). -/
  v : Vector Word 8
  /-- IBUF (R39). -/
  ibuf : Memory
  /-- OBUF (R39). -/
  obuf : Memory
  /-- ABUF (R39). -/
  abuf : Memory
  /-- SIGBUF (R39). -/
  sigbuf : Memory
  /-- ILEN (R35). -/
  ilen : Word
  /-- OLEN (R36). -/
  olen : Word
  /-- ALEN (R37). -/
  alen : Word
  /-- SIGLEN (R38). -/
  siglen : Word
  /-- CFG (R33). -/
  cfg : Cfg
  /-- RETRY_CAP.CAP (R34). -/
  cap : BitVec 8
  /-- The command issued and not completed (R95). STATUS.BUSY is 1 exactly when there is one (R31). -/
  inflight : Option Word
  /-- STATUS.DONE (R31). -/
  done : Bool
  /-- STATUS.RESULT (R31). -/
  result : Bool
  /-- STATUS.ERR (R31, R261); `none` is code 0. -/
  err : Option CmdError
  /-- STATUS.ATT (R31). -/
  att : BitVec 8
  /-- MODEL'S OWN: what the host does next, first first; log entry 4. -/
  host : List HostEvent
  /-- MODEL'S OWN: the answers of the random source still to come, first first (R46); log entry 5. -/
  rng : List Big
  /-- MODEL'S OWN: the attempts the command in flight has made and whose scalars are discarded, `att` of R221 while the
  loop waits for an answer; 0 outside such a wait; log entry 5. -/
  tries : Nat
  /-- MODEL'S OWN: what the last access of the host gave; log entry 6. -/
  resp : Response
  /-- MODEL'S OWN: how many free values have been used; log entry 7. -/
  fresh : Nat
deriving DecidableEq, Repr

/-- Why the machine stops. -/
inductive Fault where
  /-- Raised by a scheduled bus access (`busAccess`) at an address outside the register window, where this machine has
  nothing (R72). Safe: the spec gives no effect there. -/
  | outsideWindow (addr : Nat)
  /-- Raised by `memRead` and `memWrite` when a length register exceeds the capacity of its buffer, which R49 excludes
  and no run reaches. Safe. -/
  | outsideBuffer (b : Buf)
deriving DecidableEq, Repr

/-- Why an instruction has no meaning. -/
inductive Refusal where
  /-- Raised by an arm of `exec` that has no meaning yet; no arm is left so. Safe. -/
  | notModelled (mnemonic : String)
deriving DecidableEq, Repr

/-- The point at infinity as a register holds it after `P[i] <- O` (R24). -/
def PointReg.infinity : PointReg := { x := 0, y := 0, inf := true }

/-- The state right after reset (R48). The model's own fields start empty (log entries 4 to 7). -/
def State.reset : State where
  r := Vector.replicate 16 0
  p := Vector.replicate 4 PointReg.infinity
  v := Vector.replicate 8 0
  ibuf := []
  obuf := []
  abuf := []
  sigbuf := []
  ilen := 0
  olen := 0
  alen := 0
  siglen := 0
  cfg := { order := false, nopfx := false, idset := false, blankq := false }
  cap := 5
  inflight := none
  done := false
  result := false
  err := none
  att := 0
  host := []
  rng := []
  tries := 0
  resp := .idle
  fresh := 0

end Sys2Proof.Machine
end

