-- ==== Sys2Proof/Machine/Ops.lean ====
section
/-!
DEFINITION. The named operations over the state: buffers as memories (R39, R80), the lengths (R35 to R38), registers (R21,
R24, R26), the end of a command with and without an error (R95, R262) and the host's way back from an error (R32, R267).
-/
namespace Sys2Proof.Machine

/-- What a command ends in. -/
abbrev Result := Host.Outcome State Fault Refusal

/-- The canonical form of a memory: indices strictly rising, no byte 0x00 listed. -/
abbrev Memory.wf (m : Memory) : Prop := m.Pairwise (fun c d => c.1 < d.1) ∧ ∀ c ∈ m, c.2 ≠ 0

/-- The byte at index `a`; 0x00 where nothing is listed (R48). -/
def Memory.read : Memory → Nat → Byte
  | [], _ => 0
  | (k, b) :: t, a => if k = a then b else Memory.read t a

/-- Store `b` at index `a`, keeping the canonical form. -/
def Memory.write : Memory → Nat → Byte → Memory
  | [], a, b => if b = 0 then [] else [(a, b)]
  | (k, c) :: t, a, b =>
    if a < k then (if b = 0 then (k, c) :: t else (a, b) :: (k, c) :: t)
    else if a = k then (if b = 0 then t else (a, b) :: t)
    else (k, c) :: Memory.write t a b

/-- The `n` bytes from index `off` up. -/
def Memory.readBytes (m : Memory) (off n : Nat) : Bytes := (List.range n).map (fun i => m.read (off + i))

/-- Store a byte string from index `off` up. -/
def Memory.writeBytes : Memory → Nat → Bytes → Memory
  | m, _, [] => m
  | m, off, b :: t => Memory.writeBytes (m.write off b) (off + 1) t

/-- The capacity of a buffer in bytes (R39). -/
def capacity : Buf → Nat
  | .ibuf => Config.bufBytes
  | .obuf => Config.bufBytes
  | .abuf => Config.bufBytes
  | .sigbuf => Config.sigBytes

/-- The content of a buffer. -/
def State.mem (s : State) : Buf → Memory
  | .ibuf => s.ibuf
  | .obuf => s.obuf
  | .abuf => s.abuf
  | .sigbuf => s.sigbuf

/-- The state with the content of one buffer replaced. -/
def State.setMem (s : State) (b : Buf) (m : Memory) : State :=
  match b with
  | .ibuf => { s with ibuf := m }
  | .obuf => { s with obuf := m }
  | .abuf => { s with abuf := m }
  | .sigbuf => { s with sigbuf := m }

/-- The length register of a buffer (R35 to R38). -/
def State.len (s : State) : Buf → Word
  | .ibuf => s.ilen
  | .obuf => s.olen
  | .abuf => s.alen
  | .sigbuf => s.siglen

/-- The state with one length register replaced. -/
def State.setLen (s : State) (b : Buf) (w : Word) : State :=
  match b with
  | .ibuf => { s with ilen := w }
  | .obuf => { s with olen := w }
  | .abuf => { s with alen := w }
  | .sigbuf => { s with siglen := w }

/-- `r[k]` (R11, R21). -/
def State.reg (s : State) (k : Reg) : Big := s.r[k]

/-- `r[k] <- v` (R11, R21). -/
def State.setReg (s : State) (k : Reg) (v : Big) : State := { s with r := s.r.set k v }

/-- The three fields of point register `k` (R24). -/
def State.preg (s : State) (k : PReg) : PointReg := s.p[k]

/-- The state with the three fields of point register `k` replaced. -/
def State.setPreg (s : State) (k : PReg) (q : PointReg) : State := { s with p := s.p.set k q }

/-- STATUS.BUSY (R31): a command has been issued and has not completed. -/
def State.busy (s : State) : Bool := s.inflight.isSome

/-- `MemRead(S, off, n)` of R80, which requires `off + n ≤ LEN(S)`. -/
def memRead (s : State) (b : Buf) (off n : Nat) : Except Fault Bytes :=
  if off + n ≤ (s.len b).toNat ∧ off + n ≤ capacity b then .ok ((s.mem b).readBytes off n)
  else .error (.outsideBuffer b)

/-- `MemWrite(S, off, n, v)` of R80, which requires `off + n ≤` the capacity of `S`. -/
def memWrite (s : State) (b : Buf) (off : Nat) (v : Bytes) : Except Fault State :=
  if off + v.length ≤ capacity b then .ok (s.setMem b ((s.mem b).writeBytes off v))
  else .error (.outsideBuffer b)

/-- The state after `MemWrite(S, 0, len(v), v); LEN(S) <- len(v)` (R81). -/
def State.put (s : State) (b : Buf) (v : Bytes) : State :=
  (s.setMem b ((s.mem b).writeBytes 0 v)).setLen b (BitVec.ofNat 32 v.length)

/-- The way a command returns a byte string (R81): it must fit the buffer (R80). -/
def putBytes (s : State) (b : Buf) (v : Bytes) : Except Fault State :=
  (memWrite s b 0 v).map (fun t => t.setLen b (BitVec.ofNat 32 v.length))

/-- Go on with the value of a buffer operation, or stop with its fault. -/
def orFault {α : Type} (x : Except Fault α) (k : α → Result) : Result :=
  match x with
  | .ok a => k a
  | .error f => .fault f

/-- Completion (R95): RESULT, ATT and ERR as given, BUSY 0, DONE 1; no attempt is left pending. -/
def State.complete (s : State) (result : Bool) (att : Nat) (err : Option CmdError) : State :=
  { s with inflight := none, tries := 0, done := true, result := result, att := BitVec.ofNat 8 att, err := err }

/-- The command ends without an error; RESULT and ATT are 0. -/
def succeed (s : State) : Result := .next (s.complete false 0 none)

/-- The command ends without an error and answers by RESULT (R29). -/
def answer (b : Bool) (s : State) : Result := .next (s.complete b 0 none)

/-- The command ends without an error after `att` attempts (R31). -/
def succeedAfter (att : Nat) (s : State) : Result := .next (s.complete false att none)

/-- TAKING AN EXCEPTION: `raise E` of 60_exceptions.md R262. The command completes with STATUS.ERR = code(E), RESULT 0 and
the attempt count its rule states. Nothing is saved and control goes nowhere (R266). `s` is the state at issue with the
command's error writes applied. -/
def raise (e : CmdError) (att : Nat) (s : State) : Result := .next (s.complete false att (some e))

/-- The error write of a command with a destination buffer: its length becomes 0 (R41, R262). -/
def State.emptied (s : State) (b : Buf) : State := s.setLen b 0

/-- RETURN FROM AN EXCEPTION: the status clear of R32 and R267, ignored while BUSY. -/
def hostClearStatus (s : State) : State :=
  if s.busy then s else { s with done := false, result := false, err := none, att := 0 }

/-- `HostIssue(w)` of R95: ignored while BUSY (R297) and while an error is pending (R263). -/
def hostIssue (w : Word) (s : State) : State :=
  if s.busy then s
  else if s.err ≠ none then s
  else { s with done := false, result := false, att := 0, inflight := some w }

/-- `HostReset()` of 70_reset_and_hazards.md R290: total, also while BUSY. What the host and the random source will do
later is not state of the core and stays; log entries 4 and 5. Answers a command drew are no longer in `rng` (R46), and the
attempts of an abandoned command are forgotten. -/
def hostReset (s : State) : State :=
  { State.reset with host := s.host, rng := s.rng, fresh := s.fresh, resp := .ack }

end Sys2Proof.Machine
end

