-- ==== Sys2Proof/Machine/Rom.lean ====
section
/-!
DEFINITION. The constant ROM of 10_state.md R27: the sm2p256v1 parameters (41_field.md R121), the SM3 initial value and
round constants (43_sm3.md R171, R173), the default identity (46_sm2.md R216). All values are those the rules print; the
spec marks them as general knowledge (93_implementation_defined.md K1, K2, K6); log entry 11.
-/
namespace Sys2Proof.Machine

/-- The prime of the field (R121). -/
def curveP : Nat := 0xFFFFFFFEFFFFFFFFFFFFFFFFFFFFFFFFFFFFFFFF00000000FFFFFFFFFFFFFFFF

/-- The coefficient a (R121). -/
def curveA : Nat := 0xFFFFFFFEFFFFFFFFFFFFFFFFFFFFFFFFFFFFFFFF00000000FFFFFFFFFFFFFFFC

/-- The coefficient b (R121). -/
def curveB : Nat := 0x28E9FA9E9D9F5E344D5A9E4BCF6509A7F39789F515AB8F92DDBCBD414D940E93

/-- The order of the base point (R121). -/
def curveN : Nat := 0xFFFFFFFEFFFFFFFFFFFFFFFFFFFFFFFF7203DF6B21C6052B53BBF40939D54123

/-- The x-coordinate of the base point (R121). -/
def curveGx : Nat := 0x32C4AE2C1F1981195F9904466A39C9948FE30BBFF2660BE1715A4589334C74C7

/-- The y-coordinate of the base point (R121). -/
def curveGy : Nat := 0xBC3736A2F4F6779C59BDCEE36B692153D0A9877CC62A474002DF32E52139F0A0

/-- `M(m)` of R122. -/
def modulus : Modulus → Nat
  | .p => curveP
  | .n => curveN

/-- `ROM[c]` of R129. -/
def rom : Const → Nat
  | .P => curveP
  | .A => curveA
  | .B => curveB
  | .N => curveN
  | .GX => curveGx
  | .GY => curveGy

/-- The "8 fixed IV words" (R171). -/
def sm3IV : Vector Word 8 :=
  #v[0x7380166f#32, 0x4914b2b9#32, 0x172442d7#32, 0xda8a0600#32,
     0xa96f30bc#32, 0x163138aa#32, 0xe38dee4d#32, 0xb0fb0e4e#32]

/-- `T_j` of R173, before its rotation. -/
def sm3T (j : Nat) : Word := if j ≤ 15 then 0x79cc4519#32 else 0x7a879d8a#32

/-- `DEFAULT_ID`, the ASCII text 1234567812345678 (R216). -/
def defaultId : Bytes :=
  [0x31#8, 0x32#8, 0x33#8, 0x34#8, 0x35#8, 0x36#8, 0x37#8, 0x38#8,
   0x31#8, 0x32#8, 0x33#8, 0x34#8, 0x35#8, 0x36#8, 0x37#8, 0x38#8]

end Sys2Proof.Machine
end

