-- ==== Sys2Proof/Machine/Operands.lean ====
section
/-!
DEFINITION. Every operand form of the commands (20_memory.md R81, R82; 30_encoding.md R99): numbers in big-number
registers, points in point registers, the byte strings IN, AUX and SIG, the destinations OUT and SIGOUT, the identity.
-/
namespace Sys2Proof.Machine

/-- "(x, y) in F_p, or a distinguished point-at-infinity" (R24). -/
inductive AffinePoint where
  /-- The point at infinity, O. -/
  | inf
  /-- A pair of coordinates. -/
  | aff (x y : Nat)
deriving DecidableEq, Repr

/-- `r[k]` as an unsigned integer (R11, R21). -/
def State.regNat (s : State) (k : Reg) : Nat := (s.reg k).toNat

/-- `r[k] <- v` for an integer `v` below 2^256 (R11). -/
def State.setRegNat (s : State) (k : Reg) (v : Nat) : State := s.setReg k (BitVec.ofNat 256 v)

/-- The value of a point register (R24): X and Y are ignored when INF is 1. -/
def PointReg.value (q : PointReg) : AffinePoint := if q.inf then .inf else .aff q.x.toNat q.y.toNat

/-- What the fields of a point register become when a point is written to it (R24). -/
def AffinePoint.toReg : AffinePoint → PointReg
  | .inf => PointReg.infinity
  | .aff x y => { x := BitVec.ofNat 256 x, y := BitVec.ofNat 256 y, inf := false }

/-- `P[k]` (R11, R24). -/
def State.point (s : State) (k : PReg) : AffinePoint := (s.preg k).value

/-- `P[k] <- pt` (R11, R24). -/
def State.setPoint (s : State) (k : PReg) (pt : AffinePoint) : State := s.setPreg k pt.toReg

/-- `IN = MemRead(IBUF, 0, ILEN)` (R82). -/
def withIn (s : State) (k : Bytes → Result) : Result := orFault (memRead s .ibuf 0 s.ilen.toNat) k

/-- `AUX = MemRead(ABUF, 0, ALEN)` (R82). -/
def withAux (s : State) (k : Bytes → Result) : Result := orFault (memRead s .abuf 0 s.alen.toNat) k

/-- `SIG = MemRead(SIGBUF, 0, SIGLEN)` (R82). -/
def withSig (s : State) (k : Bytes → Result) : Result := orFault (memRead s .sigbuf 0 s.siglen.toNat) k

/-- `OUT <- v` (R82), then what follows. -/
def putOut (s : State) (v : Bytes) (k : State → Result) : Result := orFault (putBytes s .obuf v) k

/-- `SIGOUT <- v` (R82), then what follows. -/
def putSig (s : State) (v : Bytes) (k : State → Result) : Result := orFault (putBytes s .sigbuf v) k

/-- `Ident` of 46_sm2.md R216: the default when CFG.IDSET is 0, else the bytes of ABUF, which may be none. -/
def withIdent (s : State) (k : Bytes → Result) : Result := if s.cfg.idset then withAux s k else k defaultId

end Sys2Proof.Machine
end

