-- ==== Sys2Proof/Machine/Der.lean ====
section
/-!
DEFINITION. The DER family (45_der.md): `DER(r, s)`, the strict parser `DerParse`, and the commands DERENC and DERDEC.
-/
namespace Sys2Proof.Machine

/-- The shortest big-endian byte string of `v`, at least one byte (R201). -/
def minimalBytes (v : Nat) : Bytes := be (max 1 ((bitlen v + 7) / 8)) v

/-- The content octets of an INTEGER (R201): "prepend a zero byte to any value whose high bit is set". -/
def derContent (v : Nat) : Bytes :=
  let m := minimalBytes v
  if 0x80 ≤ (m.headD 0).toNat then 0x00#8 :: m else m

/-- `INT(v)` (R201). -/
def derInt (v : Nat) : Bytes := 0x02#8 :: BitVec.ofNat 8 (derContent v).length :: derContent v

/-- `DER(r, s)` (R200). -/
def der (r s : Nat) : Bytes :=
  let body := derInt r ++ derInt s
  0x30#8 :: BitVec.ofNat 8 body.length :: body

/-- The tests of R205 on the content octets of one INTEGER: not negative, minimal, below 2^256. -/
def derContentOk (c : Bytes) : Bool :=
  let ln := c.length
  let c0 := (c.getD 0 0).toNat
  let c1 := (c.getD 1 0).toNat
  !decide (0x80 ≤ c0) && !(decide (ln > 1) && decide (c0 = 0) && decide (c1 < 0x80)) && !(decide (ln = 33) && decide (c0 ≠ 0))

/-- One pass of the loop of `DerParse` (R205) on the bytes from index `i` on: the integer and the bytes after it. -/
def derParseInt : Bytes → Option (Nat × Bytes)
  | tag :: len :: rest =>
    let ln := len.toNat
    if tag ≠ 0x02#8 then none
    else if ln = 0 ∨ 0x80 ≤ ln ∨ 33 < ln then none
    else if rest.length < ln then none
    else if derContentOk (rest.take ln) then some (int (rest.take ln), rest.drop ln)
    else none
  | _ => none

/-- The two integers of the SEQUENCE and nothing after them (R205). -/
def derParseBody (b : Bytes) : Option (Nat × Nat) :=
  match derParseInt b with
  | none => none
  | some (v1, rest) =>
    match derParseInt rest with
    | some (v2, []) => some (v1, v2)
    | _ => none

/-- `DerParse` (R205); `none` is Malformed. -/
def derParse (b : Bytes) : Option (Nat × Nat) :=
  if b.length < 8 ∨ 72 < b.length then none
  else
    match b with
    | tag :: len :: body =>
      if tag ≠ 0x30#8 then none
      else if 0x80 ≤ len.toNat then none
      else if len.toNat ≠ body.length then none
      else derParseBody body
    | _ => none

/-- DERENC ra, rb (R204). -/
def execDerenc (ra rb : Reg) (s : State) : Result := putSig s (der (s.regNat ra) (s.regNat rb)) succeed

/-- DERDEC rd, re (R205). With `rd = re` it is no command: R98 (e) makes the word illegal, the decoder never gives it, and
the term has the effect of an illegal word. -/
def execDerdec (rd re : Reg) (s : State) : Result :=
  if rd = re then raise .illegalCommand 0 s
  else
    withSig s fun b =>
      match derParse b with
      | none => raise .signatureFormat 0 s
      | some (v1, v2) => succeed ((s.setRegNat rd v1).setRegNat re v2)

end Sys2Proof.Machine
end

