-- ==== Sys2Proof/Machine/Sm3.lean ====
section
/-!
DEFINITION. The SM3 family (43_sm3.md): padding, the compression function, the digest, and the commands SM3INIT, SM3BLK
and SM3HASH.
-/
namespace Sys2Proof.Machine

/-- The permutation P0 (R172). -/
def sm3P0 (x : Word) : Word := x ^^^ x.rotateLeft 9 ^^^ x.rotateLeft 17

/-- The permutation P1 (R172). -/
def sm3P1 (x : Word) : Word := x ^^^ x.rotateLeft 15 ^^^ x.rotateLeft 23

/-- FF_j (R172). -/
def sm3FF (j : Nat) (x y z : Word) : Word :=
  if j ≤ 15 then x ^^^ y ^^^ z else (x &&& y) ||| (x &&& z) ||| (y &&& z)

/-- GG_j (R172). -/
def sm3GG (j : Nat) (x y z : Word) : Word := if j ≤ 15 then x ^^^ y ^^^ z else (x &&& y) ||| (~~~x &&& z)

/-- The eight words the rounds work on, named as in R174. -/
structure Sm3Regs where
  a : Word
  b : Word
  c : Word
  d : Word
  e : Word
  f : Word
  g : Word
  h : Word
deriving DecidableEq, Repr

/-- The 16 big-endian words of a block (R60, R174). -/
def blockWords (blk : Bytes) : List Word :=
  (List.range 16).map (fun j => BitVec.ofNat 32 (int (slice blk (4 * j) (4 * j + 4))))

/-- One step of the message expansion (R174). The words are held newest first, so `W[j-k]` is the entry at index
`k - 1`. -/
def expandStep (ws : List Word) : List Word :=
  (sm3P1 (ws.getD 15 0 ^^^ ws.getD 8 0 ^^^ (ws.getD 2 0).rotateLeft 15) ^^^ (ws.getD 12 0).rotateLeft 7 ^^^ ws.getD 5 0) :: ws

/-- The words after `k` steps of the expansion, newest first. -/
def expandSteps : Nat → List Word → List Word
  | 0, ws => ws
  | k + 1, ws => expandSteps k (expandStep ws)

/-- `W[0..67]` (R174). -/
def expandW (blk : Bytes) : List Word := (expandSteps 52 (blockWords blk).reverse).reverse

/-- `W1[0..63]`, `W1[j] = W[j] xor W[j+4]` (R174). -/
def expandW1 (w : List Word) : List Word := List.zipWith (fun x y => x ^^^ y) w (w.drop 4)

/-- Round `j` with `W[j]` and `W1[j]` (R174). -/
def sm3Round (s : Sm3Regs) (j : Nat) (w w1 : Word) : Sm3Regs :=
  let ss1 := (s.a.rotateLeft 12 + s.e + (sm3T j).rotateLeft (j % 32)).rotateLeft 7
  let ss2 := ss1 ^^^ s.a.rotateLeft 12
  let tt1 := sm3FF j s.a s.b s.c + s.d + ss2 + w1
  let tt2 := sm3GG j s.e s.f s.g + s.h + ss1 + w
  { a := tt1, b := s.a, c := s.b.rotateLeft 9, d := s.c, e := sm3P0 tt2, f := s.e, g := s.f.rotateLeft 19, h := s.g }

/-- The rounds from `j` up, one for each remaining pair of words. -/
def sm3Rounds : Nat → List Word → List Word → Sm3Regs → Sm3Regs
  | j, w :: ws, w1 :: w1s, s => sm3Rounds (j + 1) ws w1s (sm3Round s j w w1)
  | _, _, _, s => s

/-- The compression function `CF(V, B)` (R174). -/
def sm3CF (v : Vector Word 8) (blk : Bytes) : Vector Word 8 :=
  let w := expandW blk
  let s := sm3Rounds 0 w (expandW1 w) ⟨v[0], v[1], v[2], v[3], v[4], v[5], v[6], v[7]⟩
  #v[s.a ^^^ v[0], s.b ^^^ v[1], s.c ^^^ v[2], s.d ^^^ v[3], s.e ^^^ v[4], s.f ^^^ v[5], s.g ^^^ v[6], s.h ^^^ v[7]]

/-- `Pad(msg)` (R175). -/
def sm3Pad (msg : Bytes) : Bytes :=
  msg ++ 0x80#8 :: (List.replicate (imod (55 - (msg.length : Int)) 64) 0x00#8 ++ be 8 (8 * msg.length))

/-- `CF` over the first `k` blocks of 64 bytes of a padded message, in order (R170). -/
def sm3Blocks : Nat → Bytes → Vector Word 8 → Vector Word 8
  | 0, _, v => v
  | k + 1, pm, v => sm3Blocks k (pm.drop 64) (sm3CF v (pm.take 64))

/-- The chaining value after the last block of a message (R170). -/
def sm3Chain (msg : Bytes) : Vector Word 8 := sm3Blocks ((sm3Pad msg).length / 64) (sm3Pad msg) sm3IV

/-- `be_4(V0) ‖ ... ‖ be_4(V7)` (R26). -/
def chainBytes (v : Vector Word 8) : Bytes := v.toList.flatMap (fun w => be 4 w.toNat)

/-- The digest `SM3(msg)` (R170), always the standard function. -/
def sm3 (msg : Bytes) : Bytes := chainBytes (sm3Chain msg)

/-- Are all the bytes whitespace (R178)? True of the empty string. -/
def isBlank (msg : Bytes) : Bool := msg.all Config.isWs

/-- SM3INIT (R176). -/
def execSm3init (s : State) : Result := succeed { s with v := sm3IV }

/-- SM3BLK (R177). -/
def execSm3blk (s : State) : Result :=
  if s.ilen.toNat ≠ 64 then raise .validation 0 s
  else orFault (memRead s .ibuf 0 64) fun blk => succeed { s with v := sm3CF s.v blk }

/-- SM3HASH (R178): the digest goes to V0 to V7 and to OBUF; a blank message gives the empty result, V0 to V7 kept, when
CFG.BLANKQ is 1. -/
def execSm3hash (s : State) : Result :=
  withIn s fun msg =>
    if s.cfg.blankq && isBlank msg then putOut s [] succeed
    else putOut { s with v := sm3Chain msg } (sm3 msg) succeed

end Sys2Proof.Machine
end

