-- ==== Sys2Proof/Machine/Kdf.lean ====
section
/-!
DEFINITION. The KDF family (44_kdf.md): the function of R190 and the commands KDFGEN and KDFXOR.
-/
namespace Sys2Proof.Machine

/-- The counter of R190 as the four bytes hashed with the secret: `be_4(ct)` for a count of 32 bits. What a 32-bit counter
holds at 2^32 and beyond the source does not say (R190): a free value there, which no command reaches; log entry 16. -/
def kdfCounter (ct : Nat) : Bytes := if ct < 2 ^ 32 then be 4 ct else be 4 (Config.kdfCounter ct).toNat

/-- The untruncated stream of R190 from counter `ct` on, `k` blocks of it: "for each needed 32-byte block, computes
SM3(Z ‖ be32(counter)), appends it". -/
def kdfBlocks (z : Bytes) : Nat → Nat → Bytes
  | 0, _ => []
  | k + 1, ct => sm3 (z ++ kdfCounter ct) ++ kdfBlocks z k (ct + 1)

/-- `KDF(Z, L)` (R190): `ceil(L / 32)` blocks from counter 1 on, truncated to exactly `L` bytes. -/
def kdf (z : Bytes) (l : Nat) : Bytes := (kdfBlocks z ((l + 31) / 32) 1).take l

/-- KDFGEN L (R191). -/
def execKdfgen (l : BitVec 16) (s : State) : Result :=
  if l.toNat > Config.bufBytes then raise .capacity 0 (s.emptied .obuf)
  else withAux s fun z => putOut s (kdf z l.toNat) succeed

/-- KDFXOR (R192). -/
def execKdfxor (s : State) : Result :=
  withAux s fun z => withIn s fun msg => putOut s (xorBytes msg (kdf z s.ilen.toNat)) succeed

end Sys2Proof.Machine
end

