-- ==== Sys2Proof/Machine/Field.lean ====
section
/-!
DEFINITION. The field family (41_field.md): the functions of FieldMath and the commands MODADD, MODSUB, MODMUL, MODINV,
MONTMUL and LDC. "Flags: RESULT = 0, ATT = 0" of every rule is `succeed`.
-/
namespace Sys2Proof.Machine

/-- `(a + b) mod M` (R123). -/
def modAdd (m a b : Nat) : Nat := (a + b) % m

/-- `(a - b) mod M` of the integer difference (R124). -/
def modSub (m a b : Nat) : Nat := imod ((a : Int) - (b : Int)) m

/-- `(a · b) mod M` (R125). -/
def modMul (m a b : Nat) : Nat := (a * b) % m

/-- The bits of `e` below `i`, most significant first: square, and multiply by `x` where the bit is 1. -/
def modPowBits (m x e : Nat) : Nat → Nat → Nat
  | 0, acc => acc
  | i + 1, acc => modPowBits m x e i (if e.testBit i then acc * acc % m * x % m else acc * acc % m)

/-- `x^e mod M`. -/
def modPow (m x e : Nat) : Nat := modPowBits m x e (bitlen e) (1 % m)

/-- `x^-1 mod M` for a prime M (R126), by the second of the two methods the rule allows, `x^(M-2) mod M`; log entry 10. -/
def modInv (m x : Nat) : Nat := modPow m (x % m) (m - 2)

/-- `Rinv(M) = (2^256)^-1 mod M` (R128). -/
def montRinv (m : Nat) : Nat := modInv m (2 ^ 256 % m)

/-- The Montgomery product with radix 2^256 (R128). -/
def montMul (m a b : Nat) : Nat := (a * b * montRinv m) % m

/-- MODADD rd, ra, rb, m (R123). -/
def execModadd (rd ra rb : Reg) (m : Modulus) (s : State) : Result :=
  succeed (s.setRegNat rd (modAdd (modulus m) (s.regNat ra) (s.regNat rb)))

/-- MODSUB rd, ra, rb, m (R124). -/
def execModsub (rd ra rb : Reg) (m : Modulus) (s : State) : Result :=
  succeed (s.setRegNat rd (modSub (modulus m) (s.regNat ra) (s.regNat rb)))

/-- MODMUL rd, ra, rb, m (R125). -/
def execModmul (rd ra rb : Reg) (m : Modulus) (s : State) : Result :=
  succeed (s.setRegNat rd (modMul (modulus m) (s.regNat ra) (s.regNat rb)))

/-- MODINV rd, ra, m (R126). -/
def execModinv (rd ra : Reg) (m : Modulus) (s : State) : Result :=
  if s.regNat ra % modulus m = 0 then raise .notInvertible 0 s
  else succeed (s.setRegNat rd (modInv (modulus m) (s.regNat ra % modulus m)))

/-- MONTMUL rd, ra, rb, m (R128). -/
def execMontmul (rd ra rb : Reg) (m : Modulus) (s : State) : Result :=
  succeed (s.setRegNat rd (montMul (modulus m) (s.regNat ra) (s.regNat rb)))

/-- LDC rd, c (R129). -/
def execLdc (rd : Reg) (c : Const) (s : State) : Result := succeed (s.setRegNat rd (rom c))

end Sys2Proof.Machine
end

