-- ==== Sys2Proof/Machine/Point.lean ====
section
/-!
DEFINITION. The point family (42_point.md): ValidPoint, normalisation, the affine group law as R143 writes it,
double-and-add, the encoding of a point (30_encoding.md R110), and the commands PADD, PDBL, PMUL, PCHK, PLDG, PENC, PDEC.
-/
namespace Sys2Proof.Machine

/-- The base point `G = (Gx, Gy)`. -/
def baseG : AffinePoint := .aff curveGx curveGy

/-- `(y·y) mod p = (x·x·x + a·x + b) mod p` (R140). -/
def onCurve (x y : Nat) : Bool := decide (y * y % curveP = (x * x * x + curveA * x + curveB) % curveP)

/-- `ValidPoint(P)` (R140): not O, coordinates below p, on the curve. -/
def validPoint : AffinePoint → Bool
  | .inf => false
  | .aff x y => decide (x < curveP) && decide (y < curveP) && onCurve x y

/-- `norm(P)` (R142). -/
def norm : AffinePoint → AffinePoint
  | .inf => .inf
  | .aff x y => .aff (x % curveP) (y % curveP)

/-- The third point of a line of slope `lam` through `(x1, y1)` and a point with abscissa `x2`, reflected: the last two
lines of both functions of R143. -/
def chord (lam x1 y1 x2 : Nat) : AffinePoint :=
  let x3 := imod ((lam : Int) * lam - x1 - x2) curveP
  let y3 := imod ((lam : Int) * ((x1 : Int) - x3) - y1) curveP
  .aff x3 y3

/-- `ptDouble` (R143). -/
def ptDouble : AffinePoint → AffinePoint
  | .inf => .inf
  | .aff x y =>
    if y = 0 then .inf
    else chord ((3 * x * x + curveA) * modInv curveP (2 * y) % curveP) x y x

/-- `ptAdd` (R143). -/
def ptAdd : AffinePoint → AffinePoint → AffinePoint
  | .inf, q => q
  | p, .inf => p
  | .aff x1 y1, .aff x2 y2 =>
    if x1 = x2 then (if y1 = y2 ∧ y1 ≠ 0 then ptDouble (.aff x1 y1) else .inf)
    else chord (imod (((y2 : Int) - y1) * (modInv curveP (imod ((x2 : Int) - x1) curveP) : Int)) curveP) x1 y1 x2

/-- The loop of `scalarMul` (R144) over the bits of `k` below `i`, most significant first. -/
def scalarMulBits (pt : AffinePoint) (k : Nat) : Nat → AffinePoint → AffinePoint
  | 0, acc => acc
  | i + 1, acc => scalarMulBits pt k i (if k.testBit i then ptAdd (ptDouble acc) pt else ptDouble acc)

/-- `scalarMul(P, k)` (R144). -/
def scalarMul (pt : AffinePoint) (k : Nat) : AffinePoint := scalarMulBits pt k (bitlen k) .inf

/-- The encoding of a point with these coordinates (R110): with the prefix 0x04, or without it when `nopfx`. -/
def encodePoint (nopfx : Bool) (x y : Nat) : Bytes := if nopfx then be 32 x ++ be 32 y else 0x04#8 :: (be 32 x ++ be 32 y)

/-- PADD pd, pa, pb (R145). -/
def execPadd (pd pa pb : PReg) (s : State) : Result :=
  succeed (s.setPoint pd (ptAdd (norm (s.point pa)) (norm (s.point pb))))

/-- PDBL pd, pa (R146). -/
def execPdbl (pd pa : PReg) (s : State) : Result := succeed (s.setPoint pd (ptDouble (norm (s.point pa))))

/-- PMUL pd, pa, rk (R147). -/
def execPmul (pd pa : PReg) (rk : Reg) (s : State) : Result :=
  succeed (s.setPoint pd (scalarMul (norm (s.point pa)) (s.regNat rk)))

/-- PCHK pa (R148): on the register content as it stands. -/
def execPchk (pa : PReg) (s : State) : Result := answer (validPoint (s.point pa)) s

/-- PLDG pd (R149). -/
def execPldg (pd : PReg) (s : State) : Result := succeed (s.setPoint pd baseG)

/-- PENC pa (R150). -/
def execPenc (pa : PReg) (s : State) : Result :=
  match norm (s.point pa) with
  | .inf => raise .invalidPoint 0 (s.emptied .obuf)
  | .aff x y => putOut s (encodePoint s.cfg.nopfx x y) succeed

/-- What PDEC makes of its input (R151): the coordinates, or `none` for a malformed length or prefix. -/
def decodePoint (b : Bytes) : Option (Nat × Nat) :=
  if b.length = 65 ∧ b.head? = some 0x04#8 then some (int (slice b 1 33), int (slice b 33 65))
  else if b.length = 64 then some (int (slice b 0 32), int (slice b 32 64))
  else none

/-- PDEC pd (R151). -/
def execPdec (pd : PReg) (s : State) : Result :=
  withIn s fun b =>
    match decodePoint b with
    | none => raise .validation 0 s
    | some (x, y) =>
      if validPoint (.aff x y) then succeed (s.setPoint pd (.aff x y)) else raise .invalidPoint 0 s

end Sys2Proof.Machine
end

