-- ==== Sys2Proof/Machine/Sm2.lean ====
section
/-!
DEFINITION. The SM2 engine (46_sm2.md): the identity, the Z-value, the digest scalar, the bounded retry loop, and the
commands SM2KEY, SM2Z, SM2SIGN, SM2VFY, SM2ENC and SM2DEC. None of them touches V0 to V7 (10_state.md R26).
-/
namespace Sys2Proof.Machine

/-- A private scalar is valid when `1 ≤ d ≤ n-2`; it is not reduced (R215). -/
def validScalar (d : Nat) : Bool := decide (1 ≤ d) && decide (d ≤ curveN - 2)

/-- `ZValue(ID, (xq, yq))` (R217). -/
def zValue (ident : Bytes) (xq yq : Nat) : Bytes :=
  sm3 (be 2 (8 * ident.length) ++ ident ++ be 32 curveA ++ be 32 curveB ++ be 32 curveGx ++ be 32 curveGy ++
    be 32 xq ++ be 32 yq)

/-- `DigestE(ID, Q, M)` (R218). -/
def digestE (ident : Bytes) (xq yq : Nat) (msg : Bytes) : Nat := int (sm3 (zValue ident xq yq ++ msg)) % curveN

/-- What the bounded retry loop (R221) ends in. -/
inductive LoopEnd (α : Type) where
  /-- `Success(result, att)`, and the answers of the random source not used. -/
  | success (a : α) (att : Nat) (rng : List Big)
  /-- `Exhausted(att)`. -/
  | exhausted (att : Nat) (rng : List Big)
  /-- `att` attempts are made, every answer is drawn and the next request is unanswered (70_reset_and_hazards.md R300). -/
  | waiting (att : Nat)

/-- `RetryLoop(Attempt)` (R221) with `left` attempts to go after `att` made: exactly one draw an attempt, a draw outside
`[1, n-1]` is a degenerate attempt, and so is one for which `attempt` answers `none`. -/
def retryLoop {α : Type} (attempt : Nat → Option α) : Nat → Nat → List Big → LoopEnd α
  | 0, att, rng => .exhausted att rng
  | _ + 1, att, [] => .waiting att
  | left + 1, att, k :: rng =>
    if k.toNat < 1 ∨ curveN - 1 < k.toNat then retryLoop attempt left (att + 1) rng
    else
      match attempt k.toNat with
      | none => retryLoop attempt left (att + 1) rng
      | some a => .success a (att + 1) rng

/-- SM2KEY (R219). -/
def execSm2key (s : State) : Result :=
  if validScalar (s.regNat 0) then succeed (s.setPoint 0 (scalarMul baseG (s.regNat 0))) else raise .validation 0 s

/-- SM2Z (R220). -/
def execSm2z (s : State) : Result :=
  withIdent s fun ident =>
    if Config.idMax < ident.length then raise .validation 0 (s.emptied .obuf)
    else
      match s.point 0 with
      | .aff x y =>
        if validPoint (.aff x y) then putOut s (zValue ident x y) succeed else raise .invalidPoint 0 (s.emptied .obuf)
      | .inf => raise .invalidPoint 0 (s.emptied .obuf)

/-- `AttemptSign(k)` (R222); `none` is Degenerate. -/
def attemptSign (d e k : Nat) : Option (Nat × Nat) :=
  match scalarMul baseG k with
  | .inf => none
  | .aff x1 _ =>
    let r := (e + x1) % curveN
    if r = 0 ∨ r + k = curveN then none
    else
      let sg := modInv curveN (1 + d) * imod ((k : Int) - r * d) curveN % curveN
      if sg = 0 then none else some (r, sg)

/-- The state of a command in flight whose loop waits after `att` attempts: their draws are used up and discarded (R46,
R221); log entry 5. -/
def State.awaitDraw (s : State) (att : Nat) : State := { s with rng := [], tries := att }

/-- The retry loop of the command in flight, the attempts it has made already counted (R221). -/
def runLoop {α : Type} (attempt : Nat → Option α) (s : State) : LoopEnd α :=
  retryLoop attempt (s.cap.toNat - s.tries) s.tries s.rng

/-- The end of SM2SIGN once `e` is known: the retry loop and what it writes (R222). A loop that waits leaves the command
in flight. -/
def signLoop (d e : Nat) (s : State) : Result :=
  match runLoop (attemptSign d e) s with
  | .waiting att => .next (s.awaitDraw att)
  | .exhausted att rng => raise .signatureGeneration att ({ s with rng := rng }.emptied .sigbuf)
  | .success (r, sg) att rng =>
    putSig ((({ s with rng := rng } : State).setRegNat 1 r).setRegNat 2 sg) (der r sg) (succeedAfter att)

/-- SM2SIGN (R222). -/
def execSm2sign (s : State) : Result :=
  if validScalar (s.regNat 0) then
    withIdent s fun ident =>
      if Config.idMax < ident.length then raise .validation 0 (s.emptied .sigbuf)
      else
        match scalarMul baseG (s.regNat 0) with
        | .inf => raise .validation 0 (s.emptied .sigbuf)
        | .aff xq yq => withIn s fun msg => signLoop (s.regNat 0) (digestE ident xq yq msg) s
  else raise .validation 0 (s.emptied .sigbuf)

/-- `Verify()` (R228) on its inputs; every rejecting test answers false. -/
def verify (sig : Bytes) (q : AffinePoint) (ident msg : Bytes) : Bool :=
  match derParse sig, q with
  | some (r, sg), .aff xq yq =>
    if r < 1 ∨ curveN - 1 < r then false
    else if sg < 1 ∨ curveN - 1 < sg then false
    else if Config.idMax < ident.length then false
    else if !validPoint (.aff xq yq) then false
    else
      let t := (r + sg) % curveN
      if t = 0 then false
      else
        match ptAdd (scalarMul baseG sg) (scalarMul (.aff xq yq) t) with
        | .inf => false
        | .aff x1 _ => decide ((digestE ident xq yq msg + x1) % curveN = r)
  | _, _ => false

/-- SM2VFY (R228): never an error. -/
def execSm2vfy (s : State) : Result :=
  withSig s fun sig => withIdent s fun ident => withIn s fun msg => answer (verify sig (s.point 0) ident msg) s

/-- The length `L1` of C1 (30_encoding.md R111). -/
def c1Length (nopfx : Bool) : Nat := 65 - nopfx.toNat

/-- The three components of a ciphertext in the configured order (R111): `C1 ‖ C3 ‖ C2` when `order` is false. -/
def joinCipher (order : Bool) (c1 c3 c2 : Bytes) : Bytes := if order then c1 ++ c2 ++ c3 else c1 ++ c3 ++ c2

/-- `AttemptEnc(k)` (R236) for the message, the point Q and the two configuration bits; `none` is Degenerate. -/
def attemptEnc (order nopfx : Bool) (q : AffinePoint) (msg : Bytes) (k : Nat) : Option Bytes :=
  match scalarMul baseG k, scalarMul q k with
  | .aff x1 y1, .aff x2 y2 =>
    let t := kdf (be 32 x2 ++ be 32 y2) msg.length
    if allZero t then none
    else some (joinCipher order (encodePoint nopfx x1 y1) (sm3 (be 32 x2 ++ msg ++ be 32 y2)) (xorBytes msg t))
  | _, _ => none

/-- The end of SM2ENC: the retry loop and what it writes (R236). -/
def encLoop (msg : Bytes) (s : State) : Result :=
  match runLoop (attemptEnc s.cfg.order s.cfg.nopfx (s.point 0) msg) s with
  | .waiting att => .next (s.awaitDraw att)
  | .exhausted att rng => raise .encryptionGeneration att ({ s with rng := rng }.emptied .obuf)
  | .success c att rng => putOut { s with rng := rng } c (succeedAfter att)

/-- SM2ENC (R235, R236). -/
def execSm2enc (s : State) : Result :=
  if s.ilen.toNat = 0 then putOut s [] succeed
  else if Config.bufBytes < c1Length s.cfg.nopfx + 32 + s.ilen.toNat then raise .capacity 0 (s.emptied .obuf)
  else if !validPoint (s.point 0) then raise .invalidPoint 0 (s.emptied .obuf)
  else withIn s fun msg => encLoop msg s

/-- The coordinates in the C1 of a ciphertext (R242); `none` for a first byte other than the prefix 0x04. -/
def c1Point (nopfx : Bool) (c : Bytes) : Option (Nat × Nat) :=
  if nopfx then some (int (slice c 0 32), int (slice c 32 64))
  else if c.head? = some 0x04#8 then some (int (slice c 1 33), int (slice c 33 65))
  else none

/-- `C3` and `C2` of a ciphertext (R111, R242). -/
def splitCipher (order nopfx : Bool) (c : Bytes) : Bytes × Bytes :=
  let l1 := c1Length nopfx
  if order then (slice c (c.length - 32) c.length, slice c l1 (c.length - 32))
  else (slice c l1 (l1 + 32), slice c (l1 + 32) c.length)

/-- The tests and the computation of SM2DEC on a non-empty ciphertext (R242), in their order: the plaintext, or the error
of the first failing test. -/
def decryptBytes (order nopfx : Bool) (d : Nat) (c : Bytes) : Except CmdError Bytes :=
  if !validScalar d then .error .validation
  else if c.length < c1Length nopfx + 32 then .error .validation
  else
    match c1Point nopfx c with
    | none => .error .validation
    | some (xc, yc) =>
      if !validPoint (.aff xc yc) then .error .invalidPoint
      else
        match scalarMul (.aff xc yc) d with
        | .inf => .error .invalidPoint
        | .aff x2 y2 =>
          let c3 := (splitCipher order nopfx c).1
          let c2 := (splitCipher order nopfx c).2
          let msg := xorBytes c2 (kdf (be 32 x2 ++ be 32 y2) c2.length)
          if sm3 (be 32 x2 ++ msg ++ be 32 y2) ≠ c3 then .error .decryptionIntegrity else .ok msg

/-- SM2DEC (R235, R242). -/
def execSm2dec (s : State) : Result :=
  if s.ilen.toNat = 0 then putOut s [] succeed
  else
    withIn s fun c =>
      match decryptBytes s.cfg.order s.cfg.nopfx (s.regNat 0) c with
      | .error e => raise e 0 (s.emptied .obuf)
      | .ok msg => putOut s msg succeed

end Sys2Proof.Machine
end

