-- ==== Sys2Proof/Machine/Dispatch.lean ====
section
/-!
DEFINITION. Which meaning runs each command: one arm per constructor of Instr (30_encoding.md R94, R97).
-/
namespace Sys2Proof.Machine

def exec (i : Instr) (s : State) : Host.Outcome State Fault Refusal :=
  match i with
  | .modadd rd ra rb m => Sys2Proof.Machine.execModadd rd ra rb m s
  | .modsub rd ra rb m => Sys2Proof.Machine.execModsub rd ra rb m s
  | .modmul rd ra rb m => Sys2Proof.Machine.execModmul rd ra rb m s
  | .modinv rd ra m => Sys2Proof.Machine.execModinv rd ra m s
  | .montmul rd ra rb m => Sys2Proof.Machine.execMontmul rd ra rb m s
  | .ldc rd c => Sys2Proof.Machine.execLdc rd c s
  | .padd pd pa pb => Sys2Proof.Machine.execPadd pd pa pb s
  | .pdbl pd pa => Sys2Proof.Machine.execPdbl pd pa s
  | .pmul pd pa rk => Sys2Proof.Machine.execPmul pd pa rk s
  | .pchk pa => Sys2Proof.Machine.execPchk pa s
  | .pldg pd => Sys2Proof.Machine.execPldg pd s
  | .penc pa => Sys2Proof.Machine.execPenc pa s
  | .pdec pd => Sys2Proof.Machine.execPdec pd s
  | .sm3init => Sys2Proof.Machine.execSm3init s
  | .sm3blk => Sys2Proof.Machine.execSm3blk s
  | .sm3hash => Sys2Proof.Machine.execSm3hash s
  | .kdfgen l => Sys2Proof.Machine.execKdfgen l s
  | .kdfxor => Sys2Proof.Machine.execKdfxor s
  | .derenc ra rb => Sys2Proof.Machine.execDerenc ra rb s
  | .derdec rd re => Sys2Proof.Machine.execDerdec rd re s
  | .sm2key => Sys2Proof.Machine.execSm2key s
  | .sm2z => Sys2Proof.Machine.execSm2z s
  | .sm2sign => Sys2Proof.Machine.execSm2sign s
  | .sm2vfy => Sys2Proof.Machine.execSm2vfy s
  | .sm2enc => Sys2Proof.Machine.execSm2enc s
  | .sm2dec => Sys2Proof.Machine.execSm2dec s

end Sys2Proof.Machine
end

