-- ==== Sys2Proof/Machine/Flags.lean ====
section
/-!
DEFINITION. The flags and the control registers as words: the error codes of 60_exceptions.md R261, STATUS (10_state.md
R31), CFG (R33), RETRY_CAP (R34). There are no arithmetic flags (R29).
-/
namespace Sys2Proof.Machine

/-- The code of an error (R261). -/
def CmdError.code : CmdError → Nat
  | .validation => 1
  | .signatureGeneration => 2
  | .encryptionGeneration => 3
  | .signatureFormat => 4
  | .decryptionIntegrity => 5
  | .invalidPoint => 6
  | .notInvertible => 7
  | .illegalCommand => 8
  | .capacity => 9

/-- STATUS.ERR (R31): 0 when no error is pending. -/
def errField : Option CmdError → Nat
  | none => 0
  | some e => e.code

/-- STATUS as the host reads it (R31); bits 3 and 31:16 read 0. -/
def statusWord (s : State) : Word :=
  BitVec.ofNat 32 (s.busy.toNat + s.done.toNat * 2 ^ 1 + s.result.toNat * 2 ^ 2 + errField s.err * 2 ^ 4 + s.att.toNat * 2 ^ 8)

/-- CFG as the host reads it (R33); bits 31:4 read 0. -/
def cfgWord (c : Cfg) : Word :=
  BitVec.ofNat 32 (c.order.toNat + c.nopfx.toNat * 2 ^ 1 + c.idset.toNat * 2 ^ 2 + c.blankq.toNat * 2 ^ 3)

/-- What a host write of `w` makes of CFG (R33); writes to bits 31:4 are ignored. -/
def cfgOfWord (w : Word) : Cfg :=
  { order := w.getLsbD 0, nopfx := w.getLsbD 1, idset := w.getLsbD 2, blankq := w.getLsbD 3 }

/-- RETRY_CAP as the host reads it (R34); bits 31:8 read 0. -/
def capWord (c : BitVec 8) : Word := BitVec.ofNat 32 c.toNat

/-- What a host write of `w` makes of RETRY_CAP.CAP (R34). -/
def capOfWord (w : Word) : BitVec 8 := BitVec.ofNat 8 w.toNat

end Sys2Proof.Machine
end

