-- ==== Sys2Proof/Machine/Window.lean ====
section
/-!
DEFINITION. The host's side of the machine: the abstract host operations of 20_memory.md R70, the register window of R72
with its access widths (R63), byte order (R61, R62) and reserved places (R74), and the BUSY interval
(70_reset_and_hazards.md R297).
-/
namespace Sys2Proof.Machine

/-- The state with the answer of an access recorded. -/
def State.respond (s : State) (a : Response) : State := { s with resp := a }

/-- A write of the host that is not to CMD or STATUS: ignored while BUSY (R297), acknowledged either way. -/
def writeUnlessBusy (s : State) (t : State) : State := (if s.busy then s else t).respond .ack

/-- The largest value a length register takes (R35 to R38); OLEN takes none from the host (R42). -/
def lenWritable (b : Buf) (w : Word) : Bool :=
  match b with
  | .obuf => false
  | .ibuf => decide (w.toNat ≤ capacity .ibuf)
  | .abuf => decide (w.toNat ≤ capacity .abuf)
  | .sigbuf => decide (w.toNat ≤ capacity .sigbuf)

/-- May the host write this byte of this buffer (R39, R42)? OBUF is read-only; an index at or beyond the capacity is a
reserved place (R72, R74). -/
def byteWritable (b : Buf) (off : Nat) : Bool :=
  match b with
  | .obuf => false
  | .ibuf => decide (off < capacity .ibuf)
  | .abuf => decide (off < capacity .abuf)
  | .sigbuf => decide (off < capacity .sigbuf)

/-- What a host write of a length register makes of the state, when not BUSY: an illegal value is ignored. -/
def storeLen (s : State) (b : Buf) (w : Word) : State := if lenWritable b w then s.setLen b w else s

/-- What a host write of a buffer byte makes of the state, when not BUSY. -/
def storeByte (s : State) (b : Buf) (off : Nat) (v : Byte) : State :=
  if byteWritable b off then s.setMem b ((s.mem b).write off v) else s

/-- What the host reads at an index of a buffer: in OBUF and SIGBUF 0x00 at or beyond the length (R40); at or beyond the
capacity a reserved place, 0 (R74). -/
def loadByte (s : State) (b : Buf) (off : Nat) : Byte :=
  match b with
  | .ibuf => if off < capacity .ibuf then s.ibuf.read off else 0
  | .abuf => if off < capacity .abuf then s.abuf.read off else 0
  | .obuf => if off < capacity .obuf ∧ off < s.olen.toNat then s.obuf.read off else 0
  | .sigbuf => if off < capacity .sigbuf ∧ off < s.siglen.toNat then s.sigbuf.read off else 0

/-- The state with the field X of a point register replaced (R24, R70). -/
def storeX (s : State) (k : PReg) (v : Big) : State := s.setPreg k { s.preg k with x := v }

/-- The state with the field Y of a point register replaced. -/
def storeY (s : State) (k : PReg) (v : Big) : State := s.setPreg k { s.preg k with y := v }

/-- The state with the field INF of a point register replaced; X and Y stay. -/
def storeInf (s : State) (k : PReg) (b : Bool) : State := s.setPreg k { s.preg k with inf := b }

/-- A 1-bit field read as a word, the reserved bits 0 (R72, R74). -/
def bitWord (b : Bool) : Word := BitVec.ofNat 32 b.toNat

/-- The abstract host operations (R70) with the host's rights (R42). Reads change nothing but the answer (R66). -/
def hostOp (o : HostOp) (s : State) : State :=
  match o with
  | .writeReg k v => writeUnlessBusy s (s.setReg k v)
  | .readReg k => s.respond (.big (s.reg k))
  | .writePointX k v => writeUnlessBusy s (storeX s k v)
  | .writePointY k v => writeUnlessBusy s (storeY s k v)
  | .writePointInf k b => writeUnlessBusy s (storeInf s k b)
  | .readPointX k => s.respond (.big (s.preg k).x)
  | .readPointY k => s.respond (.big (s.preg k).y)
  | .readPointInf k => s.respond (.word (bitWord (s.preg k).inf))
  | .writeV i v => writeUnlessBusy s { s with v := s.v.set i v }
  | .readV i => s.respond (.word s.v[i])
  | .writeBuf b off v => writeUnlessBusy s (storeByte s b off v)
  | .readBuf b off => s.respond (.byte (loadByte s b off))
  | .writeLen b v => writeUnlessBusy s (storeLen s b v)
  | .readLen b => s.respond (.word (s.len b))
  | .writeCfg v => writeUnlessBusy s { s with cfg := cfgOfWord v }
  | .readCfg => s.respond (.word (cfgWord s.cfg))
  | .writeCap v => writeUnlessBusy s { s with cap := capOfWord v }
  | .readCap => s.respond (.word (capWord s.cap))
  | .readStatus => s.respond (.word (statusWord s))
  | .clearStatus => (hostClearStatus s).respond .ack
  | .issue w => (hostIssue w s).respond .ack
  | .reset => hostReset s

/-- A place of the window (R72). -/
inductive Place where
  /-- CMD, at 0x000. -/
  | cmd
  /-- STATUS, at 0x004. -/
  | status
  /-- CFG, at 0x008. -/
  | cfg
  /-- RETRY_CAP, at 0x00C. -/
  | retryCap
  /-- ILEN, OLEN, ALEN or SIGLEN, at 0x010 to 0x01C. -/
  | len (b : Buf)
  /-- V[i], at 0x020 + 4·i. -/
  | chain (i : Fin 8)
  /-- Byte `j` of a buffer. -/
  | buf (b : Buf) (j : Nat)
  /-- Byte `j` of P[k].X. -/
  | pointX (k : PReg) (j : Nat)
  /-- Byte `j` of P[k].Y. -/
  | pointY (k : PReg) (j : Nat)
  /-- P[k].INF. -/
  | pointInf (k : PReg)
  /-- Byte `j` of r[k]. -/
  | reg (k : Reg) (j : Nat)
  /-- A reserved offset. -/
  | reserved
deriving DecidableEq, Repr

/-- The control block, offsets 0x000 to 0x03F (R72). -/
def placeControl (off : Nat) : Place :=
  if off < 0x004 then .cmd
  else if off < 0x008 then .status
  else if off < 0x00C then .cfg
  else if off < 0x010 then .retryCap
  else if off < 0x014 then .len .ibuf
  else if off < 0x018 then .len .obuf
  else if off < 0x01C then .len .abuf
  else if off < 0x020 then .len .sigbuf
  else .chain (Fin.ofNat 8 ((off - 0x020) / 4))

/-- The block of one point register, `j` the offset within its 0x60 bytes (R72). -/
def placePoint (k : PReg) (j : Nat) : Place :=
  if j < 0x20 then .pointX k j
  else if j < 0x40 then .pointY k (j - 0x20)
  else if j < 0x44 then .pointInf k
  else .reserved

/-- The large buffers: stride `q` of the window holds one, `j` the offset within the stride (R72). -/
def placeStride (q j : Nat) : Place :=
  if Config.bufBytes ≤ j then .reserved
  else
    match q with
    | 1 => .buf .ibuf j
    | 2 => .buf .obuf j
    | 3 => .buf .abuf j
    | _ => .reserved

/-- The place at an offset of the window (R72). -/
def placeOf (off : Nat) : Place :=
  if off < 0x040 then placeControl off
  else if off < 0x088 then .buf .sigbuf (off - 0x040)
  else if off < 0x100 then .reserved
  else if off < 0x280 then placePoint (Fin.ofNat 4 ((off - 0x100) / 0x60)) ((off - 0x100) % 0x60)
  else if off < 0x400 then .reserved
  else if off < 0x600 then .reg (Fin.ofNat 16 ((off - 0x400) / 0x20)) ((off - 0x400) % 0x20)
  else if off < Config.bstride then .reserved
  else placeStride (off / Config.bstride) (off % Config.bstride)

/-- Does the place take word accesses only (R63)? -/
def Place.wordOnly : Place → Bool
  | .cmd => true
  | .status => true
  | .cfg => true
  | .retryCap => true
  | .len _ => true
  | .chain _ => true
  | .pointInf _ => true
  | .buf _ _ => false
  | .pointX _ _ => false
  | .pointY _ _ => false
  | .reg _ _ => false
  | .reserved => false

/-- Byte `j` of a 256-bit register, byte 0 the most significant (R61). -/
def getByte (v : Big) (j : Nat) : Byte := BitVec.ofNat 8 (v.toNat / 2 ^ (248 - 8 * j))

/-- A 256-bit register with its byte `j` replaced (R61). -/
def setByte (v : Big) (j : Nat) (b : Byte) : Big :=
  (v &&& ~~~(0xFF#256 <<< (248 - 8 * j))) ||| (b.setWidth 256 <<< (248 - 8 * j))

/-- The byte the host reads at a place of a byte-addressable region or at a reserved offset (R61, R74). -/
def loadPlace (s : State) : Place → Byte
  | .buf b j => loadByte s b j
  | .pointX k j => getByte (s.preg k).x j
  | .pointY k j => getByte (s.preg k).y j
  | .reg k j => getByte (s.reg k) j
  | .reserved => 0
  | .cmd => 0
  | .status => 0
  | .cfg => 0
  | .retryCap => 0
  | .len _ => 0
  | .chain _ => 0
  | .pointInf _ => 0

/-- What a host write of a byte at a place of a byte-addressable region makes of the state, when not BUSY; reserved
offsets ignore writes (R74). -/
def storePlace (s : State) (v : Byte) : Place → State
  | .buf b j => storeByte s b j v
  | .pointX k j => storeX s k (setByte (s.preg k).x j v)
  | .pointY k j => storeY s k (setByte (s.preg k).y j v)
  | .reg k j => s.setReg k (setByte (s.reg k) j v)
  | .reserved => s
  | .cmd => s
  | .status => s
  | .cfg => s
  | .retryCap => s
  | .len _ => s
  | .chain _ => s
  | .pointInf _ => s

/-- A refused read: a bus error whose data the spec leaves unspecified (R63), a fresh free value (log entry 7). -/
def refuseRead (s : State) : State := { s with resp := .readError (Config.freeData s.fresh), fresh := s.fresh + 1 }

/-- A refused write: a bus error, no state changes (R63). -/
def refuseWrite (s : State) : State := s.respond .writeError

/-- A byte read at an offset of the window (R61, R63). -/
def readByteAt (off : Nat) (s : State) : State :=
  if (placeOf off).wordOnly then refuseRead s else s.respond (.byte (loadPlace s (placeOf off)))

/-- A byte write at an offset of the window. -/
def writeByteAt (off : Nat) (v : Byte) (s : State) : State :=
  if (placeOf off).wordOnly then refuseWrite s else writeUnlessBusy s (storePlace s v (placeOf off))

/-- The word of the byte-addressable places at `off` to `off + 3`, the byte at `off` most significant (R61). -/
def loadWord (s : State) (off : Nat) : Word :=
  BitVec.ofNat 32 (int ((List.range 4).map (fun i => loadPlace s (placeOf (off + i)))))

/-- The four bytes of a word stored at `off` to `off + 3`, the most significant at `off` (R61). -/
def storeBytes (s : State) (off : Nat) : Bytes → State
  | [] => s
  | b :: t => storeBytes (storePlace s b (placeOf off)) (off + 1) t

/-- What a word read at a place gives (R72), at the aligned offset `off`; CMD reads 0 (R30). -/
def readWordPlace (off : Nat) (s : State) : Place → State
  | .cmd => s.respond (.word 0)
  | .status => hostOp .readStatus s
  | .cfg => hostOp .readCfg s
  | .retryCap => hostOp .readCap s
  | .len b => hostOp (.readLen b) s
  | .chain i => hostOp (.readV i) s
  | .pointInf k => hostOp (.readPointInf k) s
  | .buf _ _ => s.respond (.word (loadWord s off))
  | .pointX _ _ => s.respond (.word (loadWord s off))
  | .pointY _ _ => s.respond (.word (loadWord s off))
  | .reg _ _ => s.respond (.word (loadWord s off))
  | .reserved => s.respond (.word (loadWord s off))

/-- What a word write at a place does (R72), at the aligned offset `off`: at CMD the issue, at STATUS the status clear
(R66). -/
def writeWordPlace (off : Nat) (v : Word) (s : State) : Place → State
  | .cmd => hostOp (.issue v) s
  | .status => hostOp .clearStatus s
  | .cfg => hostOp (.writeCfg v) s
  | .retryCap => hostOp (.writeCap v) s
  | .len b => hostOp (.writeLen b v) s
  | .chain i => hostOp (.writeV i v) s
  | .pointInf k => hostOp (.writePointInf k (v.getLsbD 0)) s
  | .buf _ _ => writeUnlessBusy s (storeBytes s off (be 4 v.toNat))
  | .pointX _ _ => writeUnlessBusy s (storeBytes s off (be 4 v.toNat))
  | .pointY _ _ => writeUnlessBusy s (storeBytes s off (be 4 v.toNat))
  | .reg _ _ => writeUnlessBusy s (storeBytes s off (be 4 v.toNat))
  | .reserved => writeUnlessBusy s (storeBytes s off (be 4 v.toNat))

/-- A word read at an offset of the window; a misaligned one is refused (R63). -/
def readWordAt (off : Nat) (s : State) : State :=
  if off % 4 ≠ 0 then refuseRead s else readWordPlace off s (placeOf off)

/-- A word write at an offset of the window; a misaligned one is refused (R63). -/
def writeWordAt (off : Nat) (v : Word) (s : State) : State :=
  if off % 4 ≠ 0 then refuseWrite s else writeWordPlace off v s (placeOf off)

/-- The offset in the window of a bus address, if the address is in it (R72). -/
def offsetOf (addr : Nat) : Option Nat :=
  if Config.base ≤ addr ∧ addr < Config.base + Config.windowSize then some (addr - Config.base) else none

/-- The bus address of an access. -/
def BusAccess.addr : BusAccess → Nat
  | .readByte a => a
  | .readHalf a => a
  | .readWord a => a
  | .writeByte a _ => a
  | .writeHalf a _ => a
  | .writeWord a _ => a

/-- An access at an offset of the window. A half-word access is refused wherever it goes (R63). -/
def accessAt (off : Nat) (a : BusAccess) (s : State) : State :=
  match a with
  | .readByte _ => readByteAt off s
  | .readHalf _ => refuseRead s
  | .readWord _ => readWordAt off s
  | .writeByte _ v => writeByteAt off v s
  | .writeHalf _ _ => refuseWrite s
  | .writeWord _ v => writeWordAt off v s

/-- A host access at a bus address. -/
def busAccess (a : BusAccess) (s : State) : Result :=
  match offsetOf a.addr with
  | some off => .next (accessAt off a s)
  | none => .fault (.outsideWindow a.addr)

/-- The host writes a byte string to the start of a buffer and sets its length register: the directive `.buf` of R100,
in the order R293 asks for. -/
def hostLoad (b : Buf) (bytes : Bytes) : List HostEvent :=
  bytes.mapIdx (fun i v => .op (.writeBuf b i v)) ++ [.op (.writeLen b (BitVec.ofNat 32 bytes.length))]

/-- The driver's part of one command once the operands are in place (R294): issue it, let it complete, read STATUS. -/
def hostRun (w : Word) : List HostEvent := [.op (.issue w), .pass, .op .readStatus]

end Sys2Proof.Machine
end

