-- ==== Sys2Proof/Machine/Step.lean ====
section
/-!
DEFINITION. One step of the machine (00_scope.md R13, 20_memory.md R76): the agent whose turn it is moves. The schedule
`host` says which: its first entry is an action of the host, or a pass, on which the core moves; with nothing scheduled the
core moves.
-/
namespace Sys2Proof.Machine

/-- The core's move: the command in flight completes (30_encoding.md R95, R97); an illegal word writes nothing and ends
with IllegalCommandError; with no command in flight the core is idle (60_exceptions.md R280). -/
def coreStep (s : State) : Host.Outcome State Fault Refusal :=
  match s.inflight with
  | none => .next s
  | some w =>
    match decode w with
    | .ok i => exec i s
    | .error _ => raise .illegalCommand 0 s

/-- One step. -/
def step (s : State) : Host.Outcome State Fault Refusal :=
  match s.host with
  | [] => coreStep s
  | .pass :: rest => coreStep { s with host := rest }
  | .op o :: rest => .next (hostOp o { s with host := rest })
  | .bus a :: rest => busAccess a { s with host := rest }

/-- The state right after the host issued a word (R95): the word in flight, STATUS as issue leaves it, and a host that
makes no access until completion (R76, R297). The next step completes exactly that command. -/
def State.withFetchWord (s : State) (nbits w : Nat) : State :=
  { s with
    inflight := some (wordOfBytes (wordBytes (BitVec.ofNat 32 (w % 2 ^ nbits))))
    tries := 0
    done := false
    result := false
    err := none
    att := 0
    host := [] }

end Sys2Proof.Machine
end

