-- ==== Sys2Proof/Safety.lean ====
section
/-!
DEFINITION. What a good state and a safe step are, in the terms the statements use: the invariants of 10_state.md R49 with
the canonical form of the buffers, a schedule whose next bus access is in the window, the reserved offsets of the window
(20_memory.md R72), the read and write set of every command (10_state.md R41), the group law of 42_point.md R143 as
equations, the degenerate attempts of 46_sm2.md, and commands or accesses done one after another.
-/
namespace Sys2Proof.Machine

/-- The invariant of the machine: R49, the capacities of R39, the canonical form of the memories, and how the STATUS
fields go together (R31, R32, R95, R262). -/
structure State.Inv (s : State) : Prop where
  /-- Every buffer is in canonical form. -/
  memWf : ∀ b, (s.mem b).wf
  /-- No buffer holds a byte at or beyond its capacity (R39). -/
  memBound : ∀ b, ∀ c ∈ s.mem b, c.1 < capacity b
  /-- Every length register is within its capacity (R49). -/
  lenBound : ∀ b, (s.len b).toNat ≤ capacity b
  /-- `BUSY = 1` implies `DONE = 0` (R49). -/
  busyNotDone : s.busy = true → s.done = false
  /-- Without DONE the other fields of STATUS are 0 (R32, R95). -/
  notDoneClear : s.done = false → s.result = false ∧ s.err = none ∧ s.att = 0
  /-- With an error RESULT is 0 (R262). -/
  errNoResult : s.err ≠ none → s.result = false
  /-- The loop in flight has made no more attempts than the cap allows (R221). -/
  triesBound : s.tries ≤ s.cap.toNat
  /-- With no command in flight no attempt is pending. -/
  idleNoTries : s.busy = false → s.tries = 0

/-- The next bus access of the schedule, if that is what comes next, is in the register window (R72). -/
def State.AccessMapped (s : State) : Prop := ∀ a rest, s.host = .bus a :: rest → (offsetOf a.addr).isSome = true

/-- The reserved offsets of the register window (R72). -/
def IsReserved (A : Nat) : Prop :=
  (0x088 ≤ A ∧ A < 0x100) ∨ (∃ k : PReg, 0x144 + 0x60 * k ≤ A ∧ A < 0x160 + 0x60 * k) ∨ (0x280 ≤ A ∧ A < 0x400) ∨
    (0x600 ≤ A ∧ A < Config.bstride) ∨
    ∃ k, 1 ≤ k ∧ k ≤ 3 ∧ k * Config.bstride + Config.bufBytes ≤ A ∧ A < (k + 1) * Config.bstride

/-- A step from the state ends in a next state. -/
def State.StepGoesOn (s : State) : Prop := ∃ t, step s = .next t

/-- The big-number registers a command writes when it succeeds (R41). -/
def destRegs : Instr → List Reg
  | .modadd rd _ _ _ => [rd]
  | .modsub rd _ _ _ => [rd]
  | .modmul rd _ _ _ => [rd]
  | .modinv rd _ _ => [rd]
  | .montmul rd _ _ _ => [rd]
  | .ldc rd _ => [rd]
  | .padd _ _ _ => []
  | .pdbl _ _ => []
  | .pmul _ _ _ => []
  | .pchk _ => []
  | .pldg _ => []
  | .penc _ => []
  | .pdec _ => []
  | .sm3init => []
  | .sm3blk => []
  | .sm3hash => []
  | .kdfgen _ => []
  | .kdfxor => []
  | .derenc _ _ => []
  | .derdec rd re => [rd, re]
  | .sm2key => []
  | .sm2z => []
  | .sm2sign => [1, 2]
  | .sm2vfy => []
  | .sm2enc => []
  | .sm2dec => []

/-- The point register a command writes when it succeeds (R41). -/
def destPoint : Instr → Option PReg
  | .modadd _ _ _ _ => none
  | .modsub _ _ _ _ => none
  | .modmul _ _ _ _ => none
  | .modinv _ _ _ => none
  | .montmul _ _ _ _ => none
  | .ldc _ _ => none
  | .padd pd _ _ => some pd
  | .pdbl pd _ => some pd
  | .pmul pd _ _ => some pd
  | .pchk _ => none
  | .pldg pd => some pd
  | .penc _ => none
  | .pdec pd => some pd
  | .sm3init => none
  | .sm3blk => none
  | .sm3hash => none
  | .kdfgen _ => none
  | .kdfxor => none
  | .derenc _ _ => none
  | .derdec _ _ => none
  | .sm2key => some 0
  | .sm2z => none
  | .sm2sign => none
  | .sm2vfy => none
  | .sm2enc => none
  | .sm2dec => none

/-- The buffer a command writes when it succeeds, with its length register (R41). -/
def destBuf : Instr → Option Buf
  | .modadd _ _ _ _ => none
  | .modsub _ _ _ _ => none
  | .modmul _ _ _ _ => none
  | .modinv _ _ _ => none
  | .montmul _ _ _ _ => none
  | .ldc _ _ => none
  | .padd _ _ _ => none
  | .pdbl _ _ => none
  | .pmul _ _ _ => none
  | .pchk _ => none
  | .pldg _ => none
  | .penc _ => some .obuf
  | .pdec _ => none
  | .sm3init => none
  | .sm3blk => none
  | .sm3hash => some .obuf
  | .kdfgen _ => some .obuf
  | .kdfxor => some .obuf
  | .derenc _ _ => some .sigbuf
  | .derdec _ _ => none
  | .sm2key => none
  | .sm2z => some .obuf
  | .sm2sign => some .sigbuf
  | .sm2vfy => none
  | .sm2enc => some .obuf
  | .sm2dec => some .obuf

/-- The errors a command can end with (R261, R265). -/
def mayRaise : Instr → List CmdError
  | .modadd _ _ _ _ => []
  | .modsub _ _ _ _ => []
  | .modmul _ _ _ _ => []
  | .modinv _ _ _ => [.notInvertible]
  | .montmul _ _ _ _ => []
  | .ldc _ _ => []
  | .padd _ _ _ => []
  | .pdbl _ _ => []
  | .pmul _ _ _ => []
  | .pchk _ => []
  | .pldg _ => []
  | .penc _ => [.invalidPoint]
  | .pdec _ => [.validation, .invalidPoint]
  | .sm3init => []
  | .sm3blk => [.validation]
  | .sm3hash => []
  | .kdfgen _ => [.capacity]
  | .kdfxor => []
  | .derenc _ _ => []
  | .derdec _ _ => [.signatureFormat]
  | .sm2key => [.validation]
  | .sm2z => [.validation, .invalidPoint]
  | .sm2sign => [.validation, .signatureGeneration]
  | .sm2vfy => []
  | .sm2enc => [.capacity, .invalidPoint, .encryptionGeneration]
  | .sm2dec => [.validation, .invalidPoint, .decryptionIntegrity]

/-- Does the command write V0 to V7 when it succeeds (R26, R41)? -/
def writesChain (i : Instr) : Bool := i == .sm3init || i == .sm3blk || i == .sm3hash

/-- Does the command ask the random source (R41, R46)? -/
def draws (i : Instr) : Bool := i == .sm2sign || i == .sm2enc

/-- The big-number registers a command reads (R41). -/
def srcRegs : Instr → List Reg
  | .modadd _ ra rb _ => [ra, rb]
  | .modsub _ ra rb _ => [ra, rb]
  | .modmul _ ra rb _ => [ra, rb]
  | .modinv _ ra _ => [ra]
  | .montmul _ ra rb _ => [ra, rb]
  | .ldc _ _ => []
  | .padd _ _ _ => []
  | .pdbl _ _ => []
  | .pmul _ _ rk => [rk]
  | .pchk _ => []
  | .pldg _ => []
  | .penc _ => []
  | .pdec _ => []
  | .sm3init => []
  | .sm3blk => []
  | .sm3hash => []
  | .kdfgen _ => []
  | .kdfxor => []
  | .derenc ra rb => [ra, rb]
  | .derdec _ _ => []
  | .sm2key => [0]
  | .sm2z => []
  | .sm2sign => [0]
  | .sm2vfy => []
  | .sm2enc => []
  | .sm2dec => [0]

/-- The point registers a command reads (R41). -/
def srcPoints : Instr → List PReg
  | .modadd _ _ _ _ => []
  | .modsub _ _ _ _ => []
  | .modmul _ _ _ _ => []
  | .modinv _ _ _ => []
  | .montmul _ _ _ _ => []
  | .ldc _ _ => []
  | .padd _ pa pb => [pa, pb]
  | .pdbl _ pa => [pa]
  | .pmul _ pa _ => [pa]
  | .pchk pa => [pa]
  | .pldg _ => []
  | .penc pa => [pa]
  | .pdec _ => []
  | .sm3init => []
  | .sm3blk => []
  | .sm3hash => []
  | .kdfgen _ => []
  | .kdfxor => []
  | .derenc _ _ => []
  | .derdec _ _ => []
  | .sm2key => []
  | .sm2z => [0]
  | .sm2sign => []
  | .sm2vfy => [0]
  | .sm2enc => [0]
  | .sm2dec => []

/-- The identity a command uses (R216): the default, or the content of ABUF. -/
def identOf (s : State) : Bytes := if s.cfg.idset then s.abuf.readBytes 0 s.alen.toNat else defaultId

/-- `r` is `2·p` by the tangent formulas of R143, for a point `p` with coordinates below the prime. -/
def IsDouble : AffinePoint → AffinePoint → Prop
  | .inf, r => r = .inf
  | .aff x y, r =>
    if y = 0 then r = .inf
    else ∃ (lam : Int) (x3 y3 : Nat), r = .aff x3 y3 ∧ x3 < curveP ∧ y3 < curveP ∧
      lam * (2 * y) ≡ 3 * x * x + curveA [ZMOD curveP] ∧ (x3 : Int) ≡ lam * lam - 2 * x [ZMOD curveP] ∧
      (y3 : Int) ≡ lam * (x - x3) - y [ZMOD curveP]

/-- `r` is `p + q` by the case analysis and the chord formulas of R143. -/
def IsSum : AffinePoint → AffinePoint → AffinePoint → Prop
  | .inf, q, r => r = q
  | .aff x1 y1, .inf, r => r = .aff x1 y1
  | .aff x1 y1, .aff x2 y2, r =>
    if x1 = x2 then (if y1 = y2 ∧ y1 ≠ 0 then IsDouble (.aff x1 y1) r else r = .inf)
    else ∃ (lam : Int) (x3 y3 : Nat), r = .aff x3 y3 ∧ x3 < curveP ∧ y3 < curveP ∧
      lam * ((x2 : Int) - x1) ≡ (y2 : Int) - y1 [ZMOD curveP] ∧ (x3 : Int) ≡ lam * lam - x1 - x2 [ZMOD curveP] ∧
      (y3 : Int) ≡ lam * (x1 - x3) - y1 [ZMOD curveP]

/-- A draw `k` that makes an attempt of SM2SIGN degenerate (R221, R222), for the private scalar `d` and the digest `e`:
out of `[1, n-1]`, or `r = 0`, or `r + k = n`, or `s = 0`, where `s` is 0 exactly when `k - r·d` is 0 modulo `n`. -/
def SignDegenerate (d e k : Nat) : Prop :=
  k < 1 ∨ curveN - 1 < k ∨
    match scalarMul baseG k with
    | .inf => True
    | .aff x1 _ =>
      (e + x1) % curveN = 0 ∨ (e + x1) % curveN + k = curveN ∨ (k : Int) ≡ ((e + x1) % curveN * d : Nat) [ZMOD curveN]

/-- A draw `k` that makes an attempt of SM2ENC degenerate (R221, R236), for the point `q` and a plaintext of `len` bytes:
out of `[1, n-1]`, or a keystream of zero bytes only. -/
def EncDegenerate (q : AffinePoint) (len k : Nat) : Prop :=
  k < 1 ∨ curveN - 1 < k ∨
    match scalarMul baseG k, scalarMul q k with
    | .aff _ _, .aff x2 y2 => ∀ b ∈ kdf (be 32 x2 ++ be 32 y2) len, b = 0
    | _, _ => True

/-- What comes after a step that answers a next state; a fault or a refusal ends the run. -/
def thenDo (r : Result) (k : State → Result) : Result :=
  match r with
  | .next t => k t
  | .fault f => .fault f
  | .refused e => .refused e

/-- The commands of a list one after another, each completing before the next is issued (R101). -/
def execAll : List Instr → State → Result
  | [], s => .next s
  | i :: rest, s => thenDo (exec i s) (execAll rest)

/-- The bus accesses of a list one after another (R76). -/
def busAll : List BusAccess → State → Result
  | [], s => .next s
  | a :: rest, s => thenDo (busAccess a s) (busAll rest)

/-- The blocks of 64 bytes of the padded message, in order (R175). -/
def padBlocks (msg : Bytes) : List Bytes :=
  (List.range ((sm3Pad msg).length / 64)).map (fun i => ((sm3Pad msg).drop (64 * i)).take 64)

/-- One SM3BLK for each block, the block and its length in IBUF (R177, R293). -/
def hashByBlocks : List Bytes → State → Result
  | [], s => .next s
  | b :: rest, s => thenDo (exec .sm3blk (s.put .ibuf b)) (hashByBlocks rest)

end Sys2Proof.Machine
end

