-- ==== Sys2Proof/Certificates/Slice0/Obligations.lean ====
section
/-!
DEFINITION. The statements for the provers. Each docstring names the rules of the spec it formalises. In every statement
`s` is the state when the command executes, and `s.complete RESULT ATT ERR` is a state whose command has ended (R95).
-/
open Sys2Proof Sys2Proof.Machine

/-! Encoding, issue, status -/

/-- R91 to R94, R99: the word of every well-formed command decodes to the command, with every operand at every value. -/
def Obligations.DecodeOfEncode : Prop := ∀ i : Instr, i.wellFormed = true → decode (encode i) = .ok i

/-- R97, R98: a word that decodes is the word of the command it decodes to, which is well-formed; no bit is ignored. -/
def Obligations.EncodeOfDecode : Prop :=
  ∀ (w : Word) (i : Instr), decode w = .ok i → i.wellFormed = true ∧ encode i = w

/-- R97: every word either is selected by exactly one row of the opcode map, and decodes to that row's command with the
fields R91 to R93 place, or is selected by none, is illegal, and then writes nothing but STATUS. -/
def Obligations.DecodeIsOpcodeMap : Prop :=
  ∀ w : Word,
    (∃ row ∈ opcodeRows, selects row w = true ∧ (∀ row' ∈ opcodeRows, selects row' w = true → row' = row) ∧
      ∃ i, decode w = .ok i ∧ mnemonic i = row.mnemonic ∧ encode i = w) ∨
    ((∀ row ∈ opcodeRows, selects row w = false) ∧ (∃ why, decode w = .error why) ∧
      ∀ s : State, s.host = [] → s.inflight = some w →
        step s = .next { s with
          inflight := none
          tries := 0
          done := true
          result := false
          att := 0
          err := some .illegalCommand })

/-- R102, which the spec marks derived from R91 to R94 and R98: the worked encodings and the illegal examples. -/
def Obligations.WorkedEncodings : Prop :=
  (encode (.modmul 3 1 2 .n) = 0x12312001#32 ∧ decode 0x12312001#32 = .ok (.modmul 3 1 2 .n)) ∧
  (encode (.modinv 5 4 .p) = 0x13540000#32 ∧ decode 0x13540000#32 = .ok (.modinv 5 4 .p)) ∧
  (encode (.ldc 7 .N) = 0x15700300#32 ∧ decode 0x15700300#32 = .ok (.ldc 7 .N)) ∧
  (encode (.pmul 1 0 4) = 0x22100400#32 ∧ decode 0x22100400#32 = .ok (.pmul 1 0 4)) ∧
  (encode (.padd 2 1 0) = 0x20210000#32 ∧ decode 0x20210000#32 = .ok (.padd 2 1 0)) ∧
  (encode (.kdfgen 48) = 0x40000030#32 ∧ decode 0x40000030#32 = .ok (.kdfgen 48)) ∧
  (encode (.derenc 1 2) = 0x50012000#32 ∧ decode 0x50012000#32 = .ok (.derenc 1 2)) ∧
  (encode (.derdec 1 2) = 0x51120000#32 ∧ decode 0x51120000#32 = .ok (.derdec 1 2)) ∧
  (encode .sm2sign = 0x62000000#32 ∧ decode 0x62000000#32 = .ok .sm2sign) ∧
  decode 0x00000000#32 = .error .opcode ∧ decode 0x12312003#32 = .error .mustBeZero ∧
  decode 0x20410000#32 = .error .pointRegister ∧ decode 0x15700600#32 = .error .constantIndex ∧
  decode 0x51110000#32 = .error .sameRegister ∧ decode 0x62000001#32 = .error .mustBeZero

/-- R98: the illegal words, field by field, and no others. -/
def Obligations.IllegalWords : Prop :=
  ∀ w : Word, (∃ why, decode w = .error why) ↔
    (opcodeField w ∉ [0x10, 0x11, 0x12, 0x13, 0x14, 0x15, 0x20, 0x21, 0x22, 0x23, 0x24, 0x25, 0x26, 0x30, 0x31, 0x32,
      0x40, 0x41, 0x50, 0x51, 0x60, 0x61, 0x62, 0x63, 0x64, 0x65]) ∨
    (opcodeField w ∈ [0x10, 0x11, 0x12, 0x14] ∧ wordField 11 1 w ≠ 0) ∨
    (opcodeField w = 0x13 ∧ wordField 15 1 w ≠ 0) ∨
    (opcodeField w = 0x15 ∧ (wordField 19 12 w ≠ 0 ∨ 5 < wordField 11 8 w ∨ wordField 7 0 w ≠ 0)) ∨
    (opcodeField w = 0x20 ∧
      (3 < wordField 23 20 w ∨ 3 < wordField 19 16 w ∨ 3 < wordField 15 12 w ∨ wordField 11 0 w ≠ 0)) ∨
    (opcodeField w = 0x21 ∧ (3 < wordField 23 20 w ∨ 3 < wordField 19 16 w ∨ wordField 15 0 w ≠ 0)) ∨
    (opcodeField w = 0x22 ∧
      (3 < wordField 23 20 w ∨ 3 < wordField 19 16 w ∨ wordField 15 12 w ≠ 0 ∨ wordField 7 0 w ≠ 0)) ∨
    (opcodeField w ∈ [0x23, 0x25] ∧ (wordField 23 20 w ≠ 0 ∨ 3 < wordField 19 16 w ∨ wordField 15 0 w ≠ 0)) ∨
    (opcodeField w ∈ [0x24, 0x26] ∧ (3 < wordField 23 20 w ∨ wordField 19 0 w ≠ 0)) ∨
    (opcodeField w ∈ [0x30, 0x31, 0x32, 0x41, 0x60, 0x61, 0x62, 0x63, 0x64, 0x65] ∧ wordField 23 0 w ≠ 0) ∨
    (opcodeField w = 0x40 ∧ wordField 23 16 w ≠ 0) ∨
    (opcodeField w = 0x50 ∧ (wordField 23 20 w ≠ 0 ∨ wordField 11 0 w ≠ 0)) ∨
    (opcodeField w = 0x51 ∧ (wordField 23 20 w = wordField 19 16 w ∨ wordField 15 0 w ≠ 0))

/-- R76, R95, R97: the step of a state with a command in flight and the core to move is `exec` of the decoded command,
on that state, or on that state with the `pass` of the schedule taken (log entry 4). R98: a word that does not decode then
ends with IllegalCommandError. R280: with no word in flight the core's move leaves the state. R70, R76: the step of a state
whose schedule begins with an action of the host is that action, an abstract operation or a bus access. -/
def Obligations.StepRunsDecoded : Prop :=
  (∀ (s : State) (w : Word) (i : Instr), decode w = .ok i →
    (s.inflight = some w → s.host = [] → step s = exec i s) ∧
    (∀ rest, s.inflight = some w → s.host = .pass :: rest → step s = exec i { s with host := rest }) ∧
    step (s.withFetchWord 32 w.toNat) = exec i (s.withFetchWord 32 w.toNat)) ∧
  (∀ (s : State) (w : Word) (why : Illegal), decode w = .error why → s.inflight = some w →
    (s.host = [] → step s = .next (s.complete false 0 (some .illegalCommand))) ∧
    ∀ rest, s.host = .pass :: rest →
      step s = .next (State.complete { s with host := rest } false 0 (some .illegalCommand))) ∧
  (∀ s : State, s.inflight = none → (s.host = [] → step s = .next s) ∧
    ∀ rest, s.host = .pass :: rest → step s = .next { s with host := rest }) ∧
  ∀ (s : State) (rest : List HostEvent),
    (∀ o, s.host = .op o :: rest → step s = .next (hostOp o { s with host := rest })) ∧
    ∀ a, s.host = .bus a :: rest → step s = busAccess a { s with host := rest }

/-- R30, R73, R95: a word write at BASE is the issue: ignored while BUSY and while an error is pending, else BUSY rises,
DONE, RESULT and ATT fall and nothing else changes. `∃ a` leaves the answer of the bus open. -/
def Obligations.IssueRule : Prop :=
  ∀ (s : State) (w : Word),
    busAccess (.writeWord Config.base w) s = .next (hostOp (.issue w) s) ∧
    ∃ a, (s.busy = true → hostOp (.issue w) s = s.respond a) ∧
      (s.err ≠ none → hostOp (.issue w) s = s.respond a) ∧
      (s.busy = false → s.err = none → hostOp (.issue w) s = State.respond { s with
        inflight := some w
        done := false
        result := false
        att := 0 } a)

/-- R32: a write of any value to STATUS clears DONE, RESULT, ERR and ATT and nothing else; while BUSY it is ignored. It is
the abstract HostClearStatus (R70, R73). -/
def Obligations.StatusClear : Prop :=
  ∀ (s : State) (x : Word), busAccess (.writeWord (Config.base + 4) x) s = .next (hostOp .clearStatus s) ∧ ∃ a,
    (s.busy = false → busAccess (.writeWord (Config.base + 4) x) s = .next (State.respond { s with
      done := false
      result := false
      err := none
      att := 0 } a)) ∧
    (s.busy = true → busAccess (.writeWord (Config.base + 4) x) s = .next (s.respond a))

/-- R31, R49, R261: the fields of STATUS as the host reads them, and the error codes. -/
def Obligations.StatusWord : Prop :=
  (∀ s : State, ∃ w : Word, busAccess (.readWord (Config.base + 4)) s = .next (s.respond (.word w)) ∧
    w.getLsbD 0 = s.busy ∧ w.getLsbD 1 = s.done ∧ w.getLsbD 2 = s.result ∧ w.getLsbD 3 = false ∧
    (w.extractLsb' 4 4).toNat = errField s.err ∧ w.extractLsb' 8 8 = s.att ∧ w.extractLsb' 16 16 = 0 ∧
    errField s.err ≤ 9) ∧
  errField none = 0 ∧ [CmdError.validation, .signatureGeneration, .encryptionGeneration, .signatureFormat,
    .decryptionIntegrity, .invalidPoint, .notInvertible, .illegalCommand, .capacity].map CmdError.code =
      [1, 2, 3, 4, 5, 6, 7, 8, 9]

/-- R263: while an error is pending a write to CMD changes nothing, and after a status clear commands are accepted. -/
def Obligations.StickyError : Prop :=
  ∀ (s : State) (w x : Word), s.err ≠ none →
    (∃ a, busAccess (.writeWord Config.base w) s = .next (s.respond a)) ∧
    (s.busy = false → ∃ a, busAll [.writeWord (Config.base + 4) x, .writeWord Config.base w] s = .next (State.respond
      { s with
        inflight := some w
        done := false
        result := false
        err := none
        att := 0 } a))

/-- R48, R290: what reset leaves, from every state, also while BUSY; and the state the machine starts in. -/
def Obligations.ResetState : Prop :=
  ∀ s t : State, (t = hostOp .reset s ∨ t = State.reset) →
    (∀ k, t.reg k = 0) ∧ (∀ k, t.preg k = { x := 0, y := 0, inf := true }) ∧ (∀ i : Fin 8, t.v[i] = 0) ∧
    t.busy = false ∧ t.done = false ∧ t.result = false ∧ t.err = none ∧ t.att = 0 ∧
    t.cfg = { order := false, nopfx := false, idset := false, blankq := false } ∧ t.cap = 5 ∧
    ∀ b, t.len b = 0 ∧ ∀ a, (t.mem b).read a = 0

/-! The whole machine -/

/-- R48, R49: the invariant holds after reset; the spec marks R49 derived. -/
def Obligations.InvAtReset : Prop := State.reset.Inv

/-- R49, R39: every step, of the core or of the host, keeps the invariant: lengths within capacities, memories in
canonical form and within capacities, BUSY without DONE, no RESULT beside an error, no attempts beyond the cap (R221). -/
def Obligations.InvKept : Prop := ∀ s t : State, s.Inv → step s = .next t → t.Inv

/-- R97, R262: from every state that meets the invariant and whose next scheduled bus access, if there is one, lies in the
register window, the machine goes on; it neither faults nor refuses. The premise `AccessMapped` is needed: an access outside
the window stops the model by the fault `outsideWindow` (log entry 8). -/
def Obligations.NoStop : Prop := ∀ s : State, s.Inv → s.AccessMapped → s.StepGoesOn

/-- R300, R46, R221: a command in flight completes in the core's step when it makes no draw, or when the random source has
an answer for every attempt the cap leaves; a step of the core that does not complete the command uses up and counts every
answer, and changes nothing else; a reset then leaves no answer that was drawn (the form of the wait: log entry 5). -/
def Obligations.Termination : Prop :=
  (∀ (s : State) (w : Word), s.Inv → s.host = [] → s.inflight = some w →
    (s.cap.toNat ≤ s.tries + s.rng.length ∨ ∀ i, decode w = .ok i → draws i = false) →
    ∃ t, step s = .next t ∧ t.inflight = none ∧ t.done = true) ∧
  ∀ (s t : State), s.host = [] → s.inflight ≠ none → step s = .next t → t.inflight ≠ none →
    t = { s with
      rng := []
      tries := s.tries + s.rng.length } ∧
    s.tries + s.rng.length < s.cap.toNat ∧ (hostOp .reset t).rng = [] ∧ (hostOp .reset t).tries = 0

/-- R262, R266, R41, R261: a command that ends with an error changes STATUS, makes the length of its destination buffer
0, uses up its draws, and changes nothing else; and it raises only an error its rule names. `tries` counts the draws an
earlier step of the same command used up (log entry 5). -/
def Obligations.ErrorsArePrecise : Prop :=
  ∀ (i : Instr) (s t : State) (e : CmdError), s.Inv → s.err = none → exec i s = .next t → t.err = some e →
    t = { s with
      olen := if destBuf i = some .obuf then 0 else s.olen
      siglen := if destBuf i = some .sigbuf then 0 else s.siglen
      rng := s.rng.drop (t.att.toNat - s.tries)
      tries := 0
      inflight := none
      done := true
      result := false
      att := t.att
      err := some e } ∧
    (draws i = false → t.att = 0) ∧ t.att ≤ s.cap ∧ (i.wellFormed = true → e ∈ mayRaise i)

/-- R41, R26, R245: the frame of all 26 commands. Registers, points, V0 to V7, buffers and lengths outside the command's
write set are unchanged; a destination buffer is changed only below its new length; CFG, RETRY_CAP and the host's side
are unchanged; a command that completes has used one answer of the random source for each attempt, and only SM2VFY and
PCHK set RESULT; SM2SIGN and SM2ENC alone can wait, and then use up and count every answer and change nothing else (log
entry 5). -/
def Obligations.WriteSet : Prop :=
  ∀ (i : Instr) (s t : State), s.Inv → exec i s = .next t →
    (∀ k, k ∉ destRegs i → t.reg k = s.reg k) ∧ (∀ k, destPoint i ≠ some k → t.preg k = s.preg k) ∧
    (writesChain i = false → t.v = s.v) ∧
    (∀ b, destBuf i ≠ some b → t.mem b = s.mem b ∧ t.len b = s.len b) ∧
    (∀ b a, (t.len b).toNat ≤ a → (t.mem b).read a = (s.mem b).read a) ∧
    t.cfg = s.cfg ∧ t.cap = s.cap ∧ t.host = s.host ∧ t.resp = s.resp ∧ t.fresh = s.fresh ∧
    ((draws i = true ∧ s.tries + s.rng.length < s.cap.toNat ∧ t = { s with
        rng := []
        tries := s.tries + s.rng.length }) ∨
      (t.inflight = none ∧ t.done = true ∧ t.rng = s.rng.drop (t.att.toNat - s.tries) ∧ t.tries = 0 ∧
        (draws i = false → t.att = 0) ∧ (t.result = true → i = .sm2vfy ∨ ∃ pa, i = .pchk pa)))

/-- R41, R44: a command neither reads nor carries on what its read set leaves out: another content of a register, a
point register, the answers of the random source or V0 to V7 outside the read and write set gives the same result beside
it. -/
def Obligations.Noninterference : Prop :=
  ∀ (i : Instr) (s t : State), exec i s = .next t →
    (∀ k x, k ∉ srcRegs i → k ∉ destRegs i → exec i (s.setReg k x) = .next (t.setReg k x)) ∧
    (∀ k q, k ∉ srcPoints i → destPoint i ≠ some k → exec i (s.setPreg k q) = .next (t.setPreg k q)) ∧
    (draws i = false → ∀ l, exec i { s with rng := l } = .next { t with rng := l }) ∧
    (writesChain i = false → ∀ x, exec i { s with v := x } = .next { t with v := x })

/-- R26: only SM3INIT, SM3BLK, SM3HASH, a host write of a V register out of the BUSY interval, and reset change V0 to
V7. -/
def Obligations.ChainChangedOnlyBy : Prop :=
  ∀ s t : State, step s = .next t → t.v ≠ s.v →
    (∃ w i, s.inflight = some w ∧ decode w = .ok i ∧ writesChain i = true ∧
      (s.host = [] ∨ ∃ rest, s.host = .pass :: rest)) ∨
    (∃ rest, s.host = .op .reset :: rest) ∨
    (s.busy = false ∧ ∃ rest, (∃ j x, s.host = .op (.writeV j x) :: rest) ∨
      ∃ a x, s.host = .bus (.writeWord a x) :: rest ∧ Config.base + 0x20 ≤ a ∧ a < Config.base + 0x40)

/-- R297: in the BUSY interval no access of the host but reset changes the state (the answer and the count of free
values apart, which are the model's own), STATUS reads BUSY = 1 and 0 elsewhere, and reset is honoured. -/
def Obligations.BusyInterval : Prop :=
  ∀ s : State, s.busy = true →
    (∀ o, o ≠ .reset → ∃ a, hostOp o s = s.respond a) ∧
    (∀ a t, busAccess a s = .next t → ∃ x n, t = { s with resp := x, fresh := n }) ∧
    (s.Inv → hostOp .readStatus s = s.respond (.word 1)) ∧ (hostOp .reset s).busy = false

/-! The field family -/

/-- R121, R129, R149, R171, R176: the constants, what LDC, PLDG and SM3INIT load, and the facts R121 states of them. -/
def Obligations.Constants : Prop :=
  (∀ (s : State) (rd : Reg) (c : Const), exec (.ldc rd c) s = .next ((s.setReg rd
    (match c with
      | .P => 0xFFFFFFFEFFFFFFFFFFFFFFFFFFFFFFFFFFFFFFFF00000000FFFFFFFFFFFFFFFF#256
      | .A => 0xFFFFFFFEFFFFFFFFFFFFFFFFFFFFFFFFFFFFFFFF00000000FFFFFFFFFFFFFFFC#256
      | .B => 0x28E9FA9E9D9F5E344D5A9E4BCF6509A7F39789F515AB8F92DDBCBD414D940E93#256
      | .N => 0xFFFFFFFEFFFFFFFFFFFFFFFFFFFFFFFF7203DF6B21C6052B53BBF40939D54123#256
      | .GX => 0x32C4AE2C1F1981195F9904466A39C9948FE30BBFF2660BE1715A4589334C74C7#256
      | .GY => 0xBC3736A2F4F6779C59BDCEE36B692153D0A9877CC62A474002DF32E52139F0A0#256)).complete false 0 none)) ∧
  (∀ (s : State) (pd : PReg), exec (.pldg pd) s = .next ((s.setPreg pd
    { x := 0x32C4AE2C1F1981195F9904466A39C9948FE30BBFF2660BE1715A4589334C74C7#256
      y := 0xBC3736A2F4F6779C59BDCEE36B692153D0A9877CC62A474002DF32E52139F0A0#256
      inf := false }).complete false 0 none)) ∧
  (∀ s : State, exec .sm3init s = .next (State.complete { s with
    v := #v[0x7380166f#32, 0x4914b2b9#32, 0x172442d7#32, 0xda8a0600#32, 0xa96f30bc#32, 0x163138aa#32, 0xe38dee4d#32,
      0xb0fb0e4e#32] } false 0 none)) ∧
  curveP.Prime ∧ curveN.Prime ∧ curveN < curveP ∧ curveP < 2 ^ 256 ∧ 2 ^ 255 < curveN ∧
  curveP + 2 ^ 224 + 2 ^ 96 + 1 = 2 ^ 256 + 2 ^ 64 ∧ curveA + 3 = curveP ∧
  curveGy ^ 2 % curveP = (curveGx ^ 3 + curveA * curveGx + curveB) % curveP ∧ scalarMul baseG curveN = .inf

/-- R122 to R125, R96: MODADD, MODSUB and MODMUL leave in `rd` the reduced sum, difference and product of what the
sources held, for every 256-bit operand and also when registers coincide; nothing else but STATUS changes. -/
def Obligations.ModularArithmetic : Prop :=
  ∀ (s : State) (rd ra rb : Reg) (m : Modulus),
    (∃ v, v < modulus m ∧ v ≡ s.regNat ra + s.regNat rb [MOD modulus m] ∧
      exec (.modadd rd ra rb m) s = .next ((s.setReg rd (BitVec.ofNat 256 v)).complete false 0 none)) ∧
    (∃ v, v < modulus m ∧ v + s.regNat rb ≡ s.regNat ra [MOD modulus m] ∧
      exec (.modsub rd ra rb m) s = .next ((s.setReg rd (BitVec.ofNat 256 v)).complete false 0 none)) ∧
    (∃ v, v < modulus m ∧ v ≡ s.regNat ra * s.regNat rb [MOD modulus m] ∧
      exec (.modmul rd ra rb m) s = .next ((s.setReg rd (BitVec.ofNat 256 v)).complete false 0 none))

/-- R126: MODINV leaves the one inverse in `[1, M-1]`, or raises NotInvertibleError and writes nothing, which happens
for the operands 0 and M only. -/
def Obligations.ModularInverse : Prop :=
  ∀ (s : State) (rd ra : Reg) (m : Modulus),
    ((s.regNat ra = 0 ∨ s.regNat ra = modulus m) →
      exec (.modinv rd ra m) s = .next (s.complete false 0 (some .notInvertible))) ∧
    (s.regNat ra ≠ 0 → s.regNat ra ≠ modulus m →
      ∃ y, 1 ≤ y ∧ y ≤ modulus m - 1 ∧ s.regNat ra * y % modulus m = 1 ∧
        (∀ y', y' < modulus m → s.regNat ra * y' % modulus m = 1 → y' = y) ∧
        exec (.modinv rd ra m) s = .next ((s.setReg rd (BitVec.ofNat 256 y)).complete false 0 none))

/-- R128: MONTMUL leaves the reduced `v` with `v · 2^256` congruent to the product. -/
def Obligations.MontgomeryProduct : Prop :=
  ∀ (s : State) (rd ra rb : Reg) (m : Modulus),
    ∃ v, v < modulus m ∧ v * 2 ^ 256 ≡ s.regNat ra * s.regNat rb [MOD modulus m] ∧
      exec (.montmul rd ra rb m) s = .next ((s.setReg rd (BitVec.ofNat 256 v)).complete false 0 none)

/-- R131, which the spec marks derived from R121, R125, R126 and R128: the laws that tie MONTMUL to MODMUL, and the
constants it prints, the last two as the inverses they are. -/
def Obligations.MontgomeryLaws : Prop :=
  (∀ (m : Modulus) (x y : Nat), x < 2 ^ 256 → y < 2 ^ 256 →
    let M := modulus m
    let RR := 2 ^ 512 % M
    modMul M x y = montMul M (montMul M x y) RR ∧
    montMul M (montMul M (montMul M x RR) (montMul M y RR)) 1 = modMul M x y ∧
    montMul M x y = modMul M (modMul M x y) (modInv M (2 ^ 256 % M))) ∧
  2 ^ 256 % curveP = 0x0000000100000000000000000000000000000000FFFFFFFF0000000000000001 ∧
  2 ^ 512 % curveP = 0x0000000400000002000000010000000100000002FFFFFFFF0000000200000003 ∧
  2 ^ 256 % curveN = 0x000000010000000000000000000000008DFC2094DE39FAD4AC440BF6C62ABEDD ∧
  2 ^ 512 % curveN = 0x1EB5E412A22B3D3B620FC84C3AFFE0D43464504ADE6FA2FA901192AF7C114F20 ∧
  (0xFFFFFFFC00000001FFFFFFFE00000000FFFFFFFF000000010000000000000001 * curveP + 1) % 2 ^ 256 = 0 ∧
  (0x6F39132F82E4C7BC2B0068D3B08941D4DF1E8D34FC8319A5327F9E8872350975 * curveN + 1) % 2 ^ 256 = 0

/-- R101: MODRED leaves `r[ra] mod M` in `rd`; PMULG leaves `r[rk]·G` in `pd`; MODSQR is the square. -/
def Obligations.PseudoInstructions : Prop :=
  (∀ (s : State) (rd ra : Reg) (m : Modulus) (is : List Instr), pseudoModred rd ra m = some is →
    ∃ t, execAll is s = .next t ∧ t.regNat rd = s.regNat ra % modulus m ∧ ∀ k, k ≠ rd → t.reg k = s.reg k) ∧
  (∀ (s : State) (pd : PReg) (rk : Reg), ∃ t, execAll (pseudoPmulg pd rk) s = .next t ∧
    t.point pd = scalarMul baseG (s.regNat rk) ∧ ∀ k, k ≠ pd → t.preg k = s.preg k) ∧
  (∀ (s : State) (rd ra : Reg) (m : Modulus), ∃ t, execAll (pseudoModsqr rd ra m) s = .next t ∧
    t.regNat rd = s.regNat ra ^ 2 % modulus m ∧ ∀ k, k ≠ rd → t.reg k = s.reg k)

/-! The point family -/

/-- R142, R143, R145, R146: PADD and PDBL leave in `pd` the point the formulas of R143 give on the reduced operands,
also on points off the curve and when registers coincide. -/
def Obligations.PointAddAndDouble : Prop :=
  ∀ (s : State) (pd pa pb : PReg),
    (∃ q, IsSum (norm (s.point pa)) (norm (s.point pb)) q ∧
      exec (.padd pd pa pb) s = .next ((s.setPoint pd q).complete false 0 none)) ∧
    (∃ q, IsDouble (norm (s.point pa)) q ∧
      exec (.pdbl pd pa) s = .next ((s.setPoint pd q).complete false 0 none))

/-- R144, R147: PMUL leaves the multiple by all 256 bits of the scalar, where the multiples by `2k` and `2k + 1` come
from the multiple by `k` by doubling, and by doubling and adding. -/
def Obligations.PointMultiply : Prop :=
  (∀ (s : State) (pd pa : PReg) (rk : Reg),
    exec (.pmul pd pa rk) s =
      .next ((s.setPoint pd (scalarMul (norm (s.point pa)) (s.regNat rk))).complete false 0 none)) ∧
  ∀ p : AffinePoint, scalarMul p 0 = .inf ∧ ∀ k, scalarMul p (2 * k) = ptDouble (scalarMul p k) ∧
    scalarMul p (2 * k + 1) = ptAdd (ptDouble (scalarMul p k)) p

/-- R140, R148, R264: PCHK answers by RESULT, without an error, whether the register as it stands holds a point with
coordinates below `p` on the curve. -/
def Obligations.PointCheck : Prop :=
  ∀ (s : State) (pa : PReg), ∃ b, exec (.pchk pa) s = .next (s.complete b 0 none) ∧
    (b = true ↔ (s.preg pa).inf = false ∧ (s.preg pa).x.toNat < curveP ∧ (s.preg pa).y.toNat < curveP ∧
      (s.preg pa).y.toNat ^ 2 ≡ (s.preg pa).x.toNat ^ 3 + curveA * (s.preg pa).x.toNat + curveB [MOD curveP])

/-- R110, R150: PENC writes the 65 or 64 bytes of the reduced point to OBUF, or raises InvalidPointError for `O`. -/
def Obligations.PointEncode : Prop :=
  ∀ (s : State) (pa : PReg),
    ((s.preg pa).inf = true →
      exec (.penc pa) s = .next ((s.setLen .obuf 0).complete false 0 (some .invalidPoint))) ∧
    ((s.preg pa).inf = false →
      exec (.penc pa) s = .next ((s.put .obuf ((if s.cfg.nopfx then [] else [0x04#8]) ++
        be 32 ((s.preg pa).x.toNat % curveP) ++ be 32 ((s.preg pa).y.toNat % curveP))).complete false 0 none))

/-- R151: PDEC takes a prefixed or a bare encoding, checks the curve, and raises ValidationError before
InvalidPointError. -/
def Obligations.PointDecode : Prop :=
  ∀ (s : State) (pd : PReg) (x y : Nat), s.ilen.toNat ≤ Config.bufBytes →
    (s.ilen.toNat ≠ 64 → ¬(s.ilen.toNat = 65 ∧ s.ibuf.read 0 = 0x04#8) →
      exec (.pdec pd) s = .next (s.complete false 0 (some .validation))) ∧
    ((s.ilen.toNat = 65 ∧ s.ibuf.read 0 = 0x04#8 ∧ x = int (s.ibuf.readBytes 1 32) ∧ y = int (s.ibuf.readBytes 33 32) ∨
      s.ilen.toNat = 64 ∧ x = int (s.ibuf.readBytes 0 32) ∧ y = int (s.ibuf.readBytes 32 32)) →
      (validPoint (.aff x y) = true → exec (.pdec pd) s = .next ((s.setPreg pd
        { x := BitVec.ofNat 256 x, y := BitVec.ofNat 256 y, inf := false }).complete false 0 none)) ∧
      (validPoint (.aff x y) = false → exec (.pdec pd) s = .next (s.complete false 0 (some .invalidPoint))))

/-- R110, R150, R151: a valid point encoded by PENC, its bytes moved from OBUF to IBUF, is decoded by PDEC to the same
register content, with either setting of CFG.NOPFX. -/
def Obligations.PointCodecRoundTrip : Prop :=
  ∀ (s : State) (pa pd : PReg), s.Inv → (s.preg pa).inf = false → validPoint (s.point pa) = true →
    ∃ t u, exec (.penc pa) s = .next t ∧
      exec (.pdec pd) (t.put .ibuf (t.obuf.readBytes 0 t.olen.toNat)) = .next u ∧ u.err = none ∧
      u.preg pd = s.preg pa

/-- R152, which the spec marks as general knowledge: the group facts of valid points under `ptAdd`, `ptDouble` and
`scalarMul`. -/
def Obligations.GroupLaws : Prop :=
  ∀ p q t : AffinePoint, validPoint p = true → validPoint q = true → validPoint t = true →
    (validPoint (ptAdd p q) = true ∨ ptAdd p q = .inf) ∧ (validPoint (ptDouble p) = true ∨ ptDouble p = .inf) ∧
    (∀ k, validPoint (scalarMul p k) = true ∨ scalarMul p k = .inf) ∧
    ptAdd p q = ptAdd q p ∧ ptAdd (ptAdd p q) t = ptAdd p (ptAdd q t) ∧ ptDouble p = ptAdd p p ∧
    (∀ j k, scalarMul p (j + k) = ptAdd (scalarMul p j) (scalarMul p k)) ∧ scalarMul p curveN = .inf ∧
    ∀ j k, scalarMul (scalarMul p j) k = scalarMul p (j * k % curveN)

/-! The SM3 family -/

/-- R172 to R174, R177: SM3BLK with ILEN = 64 leaves the compression of V0 to V7 and the block, the message words and
the 64 rounds as R174 writes them, P0, P1, FF and GG as R172 writes them; with another ILEN it raises ValidationError
and writes nothing. -/
def Obligations.Sm3Block : Prop :=
  ∀ s : State,
    let P0 : Word → Word := fun x => x ^^^ x.rotateLeft 9 ^^^ x.rotateLeft 17
    let P1 : Word → Word := fun x => x ^^^ x.rotateLeft 15 ^^^ x.rotateLeft 23
    let FF : Nat → Word → Word → Word → Word := fun j x y z =>
      if j ≤ 15 then x ^^^ y ^^^ z else (x &&& y) ||| (x &&& z) ||| (y &&& z)
    let GG : Nat → Word → Word → Word → Word := fun j x y z =>
      if j ≤ 15 then x ^^^ y ^^^ z else (x &&& y) ||| (~~~x &&& z)
    (s.ilen.toNat ≠ 64 → exec .sm3blk s = .next (s.complete false 0 (some .validation))) ∧
    (s.ilen.toNat = 64 → ∃ (W W1 : Nat → Word) (R : Nat → Sm3Regs),
      (∀ j, j < 16 → W j = BitVec.ofNat 32 (int (s.ibuf.readBytes (4 * j) 4))) ∧
      (∀ j, 16 ≤ j → j < 68 →
        W j = P1 (W (j - 16) ^^^ W (j - 9) ^^^ (W (j - 3)).rotateLeft 15) ^^^ (W (j - 13)).rotateLeft 7 ^^^ W (j - 6)) ∧
      (∀ j, j < 64 → W1 j = W j ^^^ W (j + 4)) ∧
      R 0 = ⟨s.v[0], s.v[1], s.v[2], s.v[3], s.v[4], s.v[5], s.v[6], s.v[7]⟩ ∧
      (∀ j, j < 64 →
        let T : Word := if j ≤ 15 then 0x79cc4519#32 else 0x7a879d8a#32
        let ss1 := ((R j).a.rotateLeft 12 + (R j).e + T.rotateLeft (j % 32)).rotateLeft 7
        let ss2 := ss1 ^^^ (R j).a.rotateLeft 12
        let tt1 := FF j (R j).a (R j).b (R j).c + (R j).d + ss2 + W1 j
        let tt2 := GG j (R j).e (R j).f (R j).g + (R j).h + ss1 + W j
        (R (j + 1)).d = (R j).c ∧ (R (j + 1)).c = (R j).b.rotateLeft 9 ∧ (R (j + 1)).b = (R j).a ∧
        (R (j + 1)).a = tt1 ∧ (R (j + 1)).h = (R j).g ∧ (R (j + 1)).g = (R j).f.rotateLeft 19 ∧
        (R (j + 1)).f = (R j).e ∧ (R (j + 1)).e = P0 tt2) ∧
      exec .sm3blk s = .next (State.complete { s with
        v := #v[(R 64).a ^^^ s.v[0], (R 64).b ^^^ s.v[1], (R 64).c ^^^ s.v[2], (R 64).d ^^^ s.v[3],
          (R 64).e ^^^ s.v[4], (R 64).f ^^^ s.v[5], (R 64).g ^^^ s.v[6], (R 64).h ^^^ s.v[7]] } false 0 none))

/-- R170, R178: SM3HASH compresses the padded message block by block from the initial value; the last chaining value
goes to V0 to V7 and as 32 bytes to OBUF. With BLANKQ = 1 a message of whitespace only gives the empty result and V is
kept; what counts as whitespace is open (log entry 3). -/
def Obligations.Sm3Hash : Prop :=
  ∀ s : State, s.ilen.toNat ≤ Config.bufBytes →
    let msg := s.ibuf.readBytes 0 s.ilen.toNat
    ((s.cfg.blankq = true ∧ ∀ b ∈ msg, Config.isWs b = true) →
      exec .sm3hash s = .next ((s.setLen .obuf 0).complete false 0 none)) ∧
    (¬(s.cfg.blankq = true ∧ ∀ b ∈ msg, Config.isWs b = true) → ∃ C : Nat → Vector Word 8,
      C 0 = sm3IV ∧
      (∀ i, i < (sm3Pad msg).length / 64 → C (i + 1) = sm3CF (C i) (((sm3Pad msg).drop (64 * i)).take 64)) ∧
      exec .sm3hash s = .next ((State.put { s with v := C ((sm3Pad msg).length / 64) } .obuf
        ((C ((sm3Pad msg).length / 64)).toList.flatMap (fun w => be 4 w.toNat))).complete false 0 none))

/-- R175: the padding, its zero bytes counted by `(55 - l) mod 64`, is the shortest to a multiple of 64 bytes, and the
length field holds the bit length of every message that fits a buffer. -/
def Obligations.Sm3Padding : Prop :=
  ∀ msg : Bytes, ∃ z : Nat, z ≤ 63 ∧ ((z : Int) = (55 - (msg.length : Int)) % 64) ∧
    sm3Pad msg = msg ++ [0x80#8] ++ List.replicate z 0x00#8 ++ be 8 (8 * msg.length) ∧
    (sm3Pad msg).length = msg.length + 1 + z + 8 ∧ 64 ∣ (sm3Pad msg).length ∧
    (∀ n, msg.length + 9 ≤ n → 64 ∣ n → (sm3Pad msg).length ≤ n) ∧
    (msg.length ≤ Config.bufBytes → int (be 8 (8 * msg.length)) = 8 * msg.length)

/-- R179, which the spec marks derived from R170, R176, R177 and R178: SM3INIT followed by one SM3BLK for each block of
the padded message leaves in V0 to V7 what SM3HASH on the message leaves there and, as bytes, in OBUF. -/
def Obligations.TwoHashPathsAgree : Prop :=
  ∀ (s : State) (msg : Bytes), s.Inv → msg.length ≤ Config.bufBytes → s.cfg.blankq = false →
    ∃ t u v, exec .sm3init s = .next t ∧ hashByBlocks (padBlocks msg) t = .next u ∧
      exec .sm3hash (s.put .ibuf msg) = .next v ∧ u.v = v.v ∧ v.olen = 32 ∧
      v.obuf.readBytes 0 32 = u.v.toList.flatMap (fun w => be 4 w.toNat)

/-! The KDF family -/

/-- R190, and R193, which the spec marks derived from it: the bytes of the KDF and its length; the prefix law; the empty
secret; the commands that use it leave V0 to V7 alone, and KDFGEN and KDFXOR make no draw. Block `2^32` and those after it,
which no command reaches, hash a free value (log entry 16). -/
def Obligations.KdfFunction : Prop :=
  (∀ (z : Bytes) (l : Nat), (kdf z l).length = l ∧
    (∀ j, j < l → j / 32 + 1 < 2 ^ 32 → (kdf z l).getD j 0 = (sm3 (z ++ be 4 (j / 32 + 1))).getD (j % 32) 0) ∧
    ∀ l', l ≤ l' → kdf z l = (kdf z l').take l) ∧
  kdf [] 32 = sm3 [0x00#8, 0x00#8, 0x00#8, 0x01#8] ∧
  ∀ (s t : State) (i : Instr), ((∃ l, i = .kdfgen l) ∨ i = .kdfxor → exec i s = .next t → t.v = s.v ∧ t.rng = s.rng) ∧
    (i = .sm2enc ∨ i = .sm2dec → exec i s = .next t → t.v = s.v)

/-- R191: KDFGEN writes the keystream of the secret in ABUF, or raises CapacityError when it does not fit OBUF. -/
def Obligations.KdfGenerate : Prop :=
  ∀ (s : State) (l : BitVec 16), s.alen.toNat ≤ Config.bufBytes →
    (Config.bufBytes < l.toNat →
      exec (.kdfgen l) s = .next ((s.setLen .obuf 0).complete false 0 (some .capacity))) ∧
    (l.toNat ≤ Config.bufBytes → ∃ v : Bytes, v.length = l.toNat ∧
      (∀ j, j < l.toNat → v.getD j 0 = (sm3 (s.abuf.readBytes 0 s.alen.toNat ++ be 4 (j / 32 + 1))).getD (j % 32) 0) ∧
      exec (.kdfgen l) s = .next ((s.put .obuf v).complete false 0 none))

/-- R192: KDFXOR masks IBUF byte by byte with the keystream of the secret in ABUF, and run on its own output with the
same ABUF it gives the input back. -/
def Obligations.KdfMask : Prop :=
  ∀ s : State, s.Inv →
    ∃ v : Bytes, v.length = s.ilen.toNat ∧
      (∀ j, j < s.ilen.toNat → v.getD j 0 =
        s.ibuf.read j ^^^ (kdf (s.abuf.readBytes 0 s.alen.toNat) s.ilen.toNat).getD j 0) ∧
      exec .kdfxor s = .next ((s.put .obuf v).complete false 0 none) ∧
      ∃ u, exec .kdfxor (((s.put .obuf v).complete false 0 none).put .ibuf v) = .next u ∧
        u.olen = s.ilen ∧ u.obuf.readBytes 0 s.ilen.toNat = s.ibuf.readBytes 0 s.ilen.toNat

/-! The DER family -/

/-- R205: `DerParse` accepts exactly the strings `DER(r, s)` of two integers below 2^256, and returns the two integers.
-/
def Obligations.DerRoundTrip : Prop :=
  (∀ r s : Nat, r < 2 ^ 256 → s < 2 ^ 256 → derParse (der r s) = some (r, s)) ∧
  ∀ (b : Bytes) (r s : Nat), derParse b = some (r, s) → der r s = b ∧ r < 2 ^ 256 ∧ s < 2 ^ 256

/-- R200 to R202: the form of every encoding: a SEQUENCE of two INTEGERs, each with its tag, its length in one byte and a
content of 1 to 33 bytes that is the integer big-endian, not negative and without a superfluous leading 0x00. R203, which
the spec marks derived from these: a signature takes 8 to 72 bytes; the shortest and the longest form. -/
def Obligations.DerSize : Prop :=
  ∀ r s : Nat, r < 2 ^ 256 → s < 2 ^ 256 →
    let content : Nat → Bytes → Prop := fun v c => int c = v ∧ 1 ≤ c.length ∧ c.length ≤ 33 ∧ (c.getD 0 0).toNat < 0x80 ∧
      (2 ≤ c.length → c.getD 0 0 = 0 → 0x80 ≤ (c.getD 1 0).toNat)
    (∃ c d : Bytes, content r c ∧ content s d ∧
      der r s = [0x30#8, BitVec.ofNat 8 (4 + c.length + d.length), 0x02#8, BitVec.ofNat 8 c.length] ++ c ++
        [0x02#8, BitVec.ofNat 8 d.length] ++ d) ∧
    8 ≤ (der r s).length ∧ (der r s).length ≤ 72 ∧
    (r < 0x80 → s < 0x80 →
      der r s = [0x30#8, 0x06#8, 0x02#8, 0x01#8, BitVec.ofNat 8 r, 0x02#8, 0x01#8, BitVec.ofNat 8 s]) ∧
    (2 ^ 255 ≤ r → 2 ^ 255 ≤ s →
      der r s = [0x30#8, 0x46#8, 0x02#8, 0x21#8, 0x00#8] ++ be 32 r ++ [0x02#8, 0x21#8, 0x00#8] ++ be 32 s)

/-- R200, R204, R205: DERENC writes the encoding of its two registers to SIGBUF, whatever they hold; DERDEC writes the
two integers SIGBUF encodes, and raises SignatureFormatError, writing nothing, when SIGBUF holds no encoding. -/
def Obligations.DerCommands : Prop :=
  ∀ s : State,
    (∀ ra rb : Reg, exec (.derenc ra rb) s =
      .next ((s.put .sigbuf (der (s.regNat ra) (s.regNat rb))).complete false 0 none)) ∧
    ∀ rd re : Reg, rd ≠ re → s.siglen.toNat ≤ 72 →
      (∀ v1 v2 : Big, s.sigbuf.readBytes 0 s.siglen.toNat = der v1.toNat v2.toNat →
        exec (.derdec rd re) s = .next (((s.setReg rd v1).setReg re v2).complete false 0 none)) ∧
      ((∀ v1 v2 : Big, s.sigbuf.readBytes 0 s.siglen.toNat ≠ der v1.toNat v2.toNat) →
        exec (.derdec rd re) s = .next (s.complete false 0 (some .signatureFormat)))

/-! The SM2 engine -/

/-- R215, R219: SM2KEY leaves the valid point `d·G` for a private scalar in `[1, n-2]`, else raises ValidationError. -/
def Obligations.KeyDerivation : Prop :=
  ∀ s : State,
    (1 ≤ s.regNat 0 → s.regNat 0 ≤ curveN - 2 → validPoint (scalarMul baseG (s.regNat 0)) = true ∧
      exec .sm2key s = .next ((s.setPoint 0 (scalarMul baseG (s.regNat 0))).complete false 0 none)) ∧
    (¬(1 ≤ s.regNat 0 ∧ s.regNat 0 ≤ curveN - 2) → exec .sm2key s = .next (s.complete false 0 (some .validation)))

/-- R216, R217, R220: SM2Z writes the digest of the preamble of identity, curve and public key; an identity too long,
then an invalid point, raise their errors. The identity is the content of ABUF with IDSET = 1, else the 16 bytes of
DEFAULT_ID, which R216 prints (general knowledge: log entry 11); it is the identity of SM2SIGN and SM2VFY too. -/
def Obligations.ZValueCommand : Prop :=
  ∀ s : State, s.alen.toNat ≤ Config.bufBytes →
    let ident : Bytes := if s.cfg.idset then s.abuf.readBytes 0 s.alen.toNat
      else [0x31#8, 0x32#8, 0x33#8, 0x34#8, 0x35#8, 0x36#8, 0x37#8, 0x38#8,
        0x31#8, 0x32#8, 0x33#8, 0x34#8, 0x35#8, 0x36#8, 0x37#8, 0x38#8]
    identOf s = ident ∧
    (8191 < ident.length →
      exec .sm2z s = .next ((s.setLen .obuf 0).complete false 0 (some .validation))) ∧
    (ident.length ≤ 8191 → validPoint (s.point 0) = false →
      exec .sm2z s = .next ((s.setLen .obuf 0).complete false 0 (some .invalidPoint))) ∧
    (ident.length ≤ 8191 → validPoint (s.point 0) = true →
      exec .sm2z s = .next ((s.put .obuf (sm3 (be 2 (8 * ident.length) ++ ident ++ be 32 curveA ++
        be 32 curveB ++ be 32 curveGx ++ be 32 curveGy ++ be 32 (s.preg 0).x.toNat ++
        be 32 (s.preg 0).y.toNat))).complete false 0 none))

/-- R218, R221, R222: SM2SIGN, with degenerate draws and then a good one within the cap, leaves `r` and `s` in `[1,
n-1]` that satisfy the signing equations for the good draw, their DER encoding, and the number of draws in ATT, those of
an earlier wait (`tries`, log entry 5) among them. -/
def Obligations.SignSucceeds : Prop :=
  ∀ (s : State) (bad : List Big) (k : Big) (rest : List Big) (xq yq : Nat), s.Inv →
    1 ≤ s.regNat 0 → s.regNat 0 ≤ curveN - 2 → (identOf s).length ≤ 8191 →
    scalarMul baseG (s.regNat 0) = .aff xq yq → s.rng = bad ++ k :: rest → s.tries + bad.length + 1 ≤ s.cap.toNat →
    let e := int (sm3 (zValue (identOf s) xq yq ++ s.ibuf.readBytes 0 s.ilen.toNat)) % curveN
    (∀ x ∈ bad, SignDegenerate (s.regNat 0) e x.toNat) → ¬SignDegenerate (s.regNat 0) e k.toNat →
    ∃ r sg x1 y1 : Nat, scalarMul baseG k.toNat = .aff x1 y1 ∧ 1 ≤ r ∧ r ≤ curveN - 1 ∧ 1 ≤ sg ∧ sg ≤ curveN - 1 ∧
      r ≡ e + x1 [MOD curveN] ∧ sg * (1 + s.regNat 0) + r * s.regNat 0 ≡ k.toNat [MOD curveN] ∧
      exec .sm2sign s = .next ((State.put (((State.setReg { s with rng := rest } 1 (BitVec.ofNat 256 r)).setReg 2
        (BitVec.ofNat 256 sg))) .sigbuf (der r sg)).complete false (s.tries + bad.length + 1) none)

/-- R221, R222, R265, R300: how SM2SIGN fails: a private scalar out of range, an identity too long, the cap reached; and
that it stays in flight while the random source is silent. The form of that wait (`next`, every answer used up, the
attempts counted in `tries`) is the model's, log entry 5. -/
def Obligations.SignFails : Prop :=
  ∀ s : State, s.Inv →
    (¬(1 ≤ s.regNat 0 ∧ s.regNat 0 ≤ curveN - 2) →
      exec .sm2sign s = .next ((s.setLen .sigbuf 0).complete false 0 (some .validation))) ∧
    (1 ≤ s.regNat 0 → s.regNat 0 ≤ curveN - 2 → 8191 < (identOf s).length →
      exec .sm2sign s = .next ((s.setLen .sigbuf 0).complete false 0 (some .validation))) ∧
    (1 ≤ s.regNat 0 → s.regNat 0 ≤ curveN - 2 → (identOf s).length ≤ 8191 →
      ∃ xq yq, scalarMul baseG (s.regNat 0) = .aff xq yq ∧
        let e := int (sm3 (zValue (identOf s) xq yq ++ s.ibuf.readBytes 0 s.ilen.toNat)) % curveN
        (∀ bad rest, s.rng = bad ++ rest → s.tries + bad.length = s.cap.toNat →
          (∀ x ∈ bad, SignDegenerate (s.regNat 0) e x.toNat) →
          exec .sm2sign s = .next ((State.setLen { s with rng := rest } .sigbuf 0).complete false s.cap.toNat
            (some .signatureGeneration))) ∧
        (s.tries + s.rng.length < s.cap.toNat → (∀ x ∈ s.rng, SignDegenerate (s.regNat 0) e x.toNat) →
          exec .sm2sign s = .next { s with
            rng := []
            tries := s.tries + s.rng.length }))

/-- R228, R264: SM2VFY never raises an error and writes nothing but STATUS; RESULT is 1 exactly for a strict encoding of
a pair in range whose equation holds for the public point, the identity and the message. -/
def Obligations.VerifyAnswers : Prop :=
  ∀ s : State, s.siglen.toNat ≤ 72 → s.alen.toNat ≤ Config.bufBytes → s.ilen.toNat ≤ Config.bufBytes →
    ∃ b, exec .sm2vfy s = .next (s.complete b 0 none) ∧
      (b = true ↔ ∃ r sg xq yq x1 y1 : Nat, s.sigbuf.readBytes 0 s.siglen.toNat = der r sg ∧
        1 ≤ r ∧ r ≤ curveN - 1 ∧ 1 ≤ sg ∧ sg ≤ curveN - 1 ∧ (identOf s).length ≤ 8191 ∧
        s.point 0 = .aff xq yq ∧ validPoint (.aff xq yq) = true ∧ (r + sg) % curveN ≠ 0 ∧
        ptAdd (scalarMul baseG sg) (scalarMul (.aff xq yq) ((r + sg) % curveN)) = .aff x1 y1 ∧
        (int (sm3 (zValue (identOf s) xq yq ++ s.ibuf.readBytes 0 s.ilen.toNat)) % curveN + x1) % curveN = r)

/-- R229, which the spec marks derived from R222 and R228: after a successful SM2SIGN, SM2KEY with the same `r0` and
then SM2VFY, with nothing else changed, gives RESULT = 1. -/
def Obligations.SignThenVerify : Prop :=
  ∀ s t : State, s.Inv → s.inflight ≠ none → exec .sm2sign s = .next t → t.inflight = none → t.err = none →
    ∃ u, exec .sm2key t = .next u ∧ u.err = none ∧ exec .sm2vfy u = .next (u.complete true 0 none)

/-- R111, R221, R236: SM2ENC, with degenerate draws and then a good one within the cap, writes C1, C3 and C2 of the good
draw in the configured order and form, and the number of draws in ATT, those of an earlier wait (`tries`, log entry 5)
among them. -/
def Obligations.EncryptSucceeds : Prop :=
  ∀ (s : State) (bad : List Big) (k : Big) (rest : List Big), s.Inv → s.ilen.toNat ≠ 0 →
    65 - s.cfg.nopfx.toNat + 32 + s.ilen.toNat ≤ Config.bufBytes → validPoint (s.point 0) = true →
    s.rng = bad ++ k :: rest → s.tries + bad.length + 1 ≤ s.cap.toNat →
    (∀ x ∈ bad, EncDegenerate (s.point 0) s.ilen.toNat x.toNat) → ¬EncDegenerate (s.point 0) s.ilen.toNat k.toNat →
    ∃ (x1 y1 x2 y2 : Nat) (c2 : Bytes), scalarMul baseG k.toNat = .aff x1 y1 ∧
      scalarMul (s.point 0) k.toNat = .aff x2 y2 ∧ c2.length = s.ilen.toNat ∧
      (∀ j, j < s.ilen.toNat → c2.getD j 0 =
        s.ibuf.read j ^^^ (kdf (be 32 x2 ++ be 32 y2) s.ilen.toNat).getD j 0) ∧
      let c1 := (if s.cfg.nopfx then [] else [0x04#8]) ++ be 32 x1 ++ be 32 y1
      let c3 := sm3 (be 32 x2 ++ s.ibuf.readBytes 0 s.ilen.toNat ++ be 32 y2)
      exec .sm2enc s = .next ((State.put { s with rng := rest } .obuf
        (if s.cfg.order then c1 ++ c2 ++ c3 else c1 ++ c3 ++ c2)).complete false (s.tries + bad.length + 1) none)

/-- R221, R236, R265, R300: how SM2ENC fails: a ciphertext that does not fit, an invalid public point, the cap reached;
and that it stays in flight while the random source is silent. The form of that wait (`next`, every answer used up, the
attempts counted in `tries`) is the model's, log entry 5. -/
def Obligations.EncryptFails : Prop :=
  ∀ s : State, s.Inv → s.ilen.toNat ≠ 0 →
    (Config.bufBytes < 65 - s.cfg.nopfx.toNat + 32 + s.ilen.toNat →
      exec .sm2enc s = .next ((s.setLen .obuf 0).complete false 0 (some .capacity))) ∧
    (65 - s.cfg.nopfx.toNat + 32 + s.ilen.toNat ≤ Config.bufBytes →
      (validPoint (s.point 0) = false →
        exec .sm2enc s = .next ((s.setLen .obuf 0).complete false 0 (some .invalidPoint))) ∧
      (validPoint (s.point 0) = true →
        (∀ bad rest, s.rng = bad ++ rest → s.tries + bad.length = s.cap.toNat →
          (∀ x ∈ bad, EncDegenerate (s.point 0) s.ilen.toNat x.toNat) →
          exec .sm2enc s = .next ((State.setLen { s with rng := rest } .obuf 0).complete false s.cap.toNat
            (some .encryptionGeneration))) ∧
        (s.tries + s.rng.length < s.cap.toNat → (∀ x ∈ s.rng, EncDegenerate (s.point 0) s.ilen.toNat x.toNat) →
          exec .sm2enc s = .next { s with
            rng := []
            tries := s.tries + s.rng.length })))

/-- R111, R242, R265: what SM2DEC does with a non-empty input: its five failures in their order, and the plaintext. -/
def Obligations.DecryptOutcome : Prop :=
  ∀ s : State, s.ilen.toNat ≠ 0 → s.ilen.toNat ≤ Config.bufBytes →
    let fail : CmdError → Result := fun e => .next ((s.setLen .obuf 0).complete false 0 (some e))
    let L1 := 65 - s.cfg.nopfx.toNat
    let xc := int (s.ibuf.readBytes (1 - s.cfg.nopfx.toNat) 32)
    let yc := int (s.ibuf.readBytes (33 - s.cfg.nopfx.toNat) 32)
    let len2 := s.ilen.toNat - L1 - 32
    let c3 := if s.cfg.order then s.ibuf.readBytes (s.ilen.toNat - 32) 32 else s.ibuf.readBytes L1 32
    let c2 := if s.cfg.order then s.ibuf.readBytes L1 len2 else s.ibuf.readBytes (L1 + 32) len2
    (¬(1 ≤ s.regNat 0 ∧ s.regNat 0 ≤ curveN - 2) → exec .sm2dec s = fail .validation) ∧
    (1 ≤ s.regNat 0 → s.regNat 0 ≤ curveN - 2 →
      (s.ilen.toNat < L1 + 32 → exec .sm2dec s = fail .validation) ∧
      (L1 + 32 ≤ s.ilen.toNat →
        (s.cfg.nopfx = false → s.ibuf.read 0 ≠ 0x04#8 → exec .sm2dec s = fail .validation) ∧
        ((s.cfg.nopfx = true ∨ s.ibuf.read 0 = 0x04#8) →
          (validPoint (.aff xc yc) = false → exec .sm2dec s = fail .invalidPoint) ∧
          (validPoint (.aff xc yc) = true → ∃ (x2 y2 : Nat) (msg : Bytes),
            scalarMul (.aff xc yc) (s.regNat 0) = .aff x2 y2 ∧ msg.length = len2 ∧
            (∀ j, j < len2 → msg.getD j 0 = c2.getD j 0 ^^^ (kdf (be 32 x2 ++ be 32 y2) len2).getD j 0) ∧
            (sm3 (be 32 x2 ++ msg ++ be 32 y2) ≠ c3 → exec .sm2dec s = fail .decryptionIntegrity) ∧
            (sm3 (be 32 x2 ++ msg ++ be 32 y2) = c3 →
              exec .sm2dec s = .next ((s.put .obuf msg).complete false 0 none))))))

/-- R244 (a), which the spec marks derived: what SM2ENC encrypts for `d·G`, its output moved to IBUF, SM2DEC with `d`
and the same configuration decrypts to the plaintext, for every answer of the random source with which SM2ENC succeeds.
-/
def Obligations.EncryptThenDecrypt : Prop :=
  ∀ s t : State, s.Inv → s.inflight ≠ none → 1 ≤ s.regNat 0 → s.regNat 0 ≤ curveN - 2 →
    s.point 0 = scalarMul baseG (s.regNat 0) → exec .sm2enc s = .next t → t.inflight = none → t.err = none →
    ∃ u, exec .sm2dec (t.put .ibuf (t.obuf.readBytes 0 t.olen.toNat)) = .next u ∧ u.err = none ∧ u.olen = s.ilen ∧
      u.obuf.readBytes 0 u.olen.toNat = s.ibuf.readBytes 0 s.ilen.toNat

/-- R235, whose decryption half the spec marks derived: with ILEN = 0 both SM2ENC and SM2DEC succeed with OLEN = 0,
before any test and without a draw. -/
def Obligations.EmptyPlaintext : Prop :=
  ∀ s : State, s.ilen = 0 →
    exec .sm2enc s = .next ((s.setLen .obuf 0).complete false 0 none) ∧
    exec .sm2dec s = .next ((s.setLen .obuf 0).complete false 0 none)

/-! The register window -/

/-- R21, R24, R42, R70: the abstract write of a big-number register leaves the value in it, that of the X or the Y of a
point register leaves it there, and nothing else changes. R61, R72, R73: writing the eight words, or the 32 bytes, of
`be_32(v)` to the place of such a register is the abstract write of `v`. R61, R65: a single byte or aligned word written
there is the abstract write of the mixture, the old value with those bytes replaced. R39, R42, R61, R72: a byte or an
aligned word written to the place of IBUF, ABUF or SIGBUF is stored there, whatever the length, and nothing else
changes; the byte write is the abstract HostWriteBuf (R70, R73), and a byte so written is read back (from SIGBUF when
below SIGLEN, R40). Of a word that lies partly beyond the capacity (in the last word of IBUF or ABUF when BUF_BYTES is
not a multiple of 4) the bytes within the capacity are stored and the others ignored: that case is the model's deduction
from R62 and R74 (DEDUCED, log entry 14). R42, R66, R74: writes to OBUF and to reserved offsets are ignored. The answer
of the bus is left open (log entry 6). -/
def Obligations.RegisterThroughWindow : Prop :=
  (∀ (s : State) (v : Big), s.busy = false →
    let writesPoint : PReg → HostOp → PointReg → Prop := fun k o q =>
      (∃ a, hostOp o s = (s.setPreg k q).respond a) ∧ (hostOp o s).preg k = q ∧
        (∀ j, j ≠ k → (hostOp o s).preg j = s.preg j) ∧
        hostOp o s = { s with
          p := (hostOp o s).p
          resp := (hostOp o s).resp }
    (∀ k : Reg, let t := hostOp (.writeReg k v) s
      (∃ a, t = (s.setReg k v).respond a) ∧ t.reg k = v ∧ (∀ j, j ≠ k → t.reg j = s.reg j) ∧
        t = { s with
          r := t.r
          resp := t.resp }) ∧
    ∀ k : PReg,
      writesPoint k (.writePointX k v) { x := v, y := (s.preg k).y, inf := (s.preg k).inf } ∧
      writesPoint k (.writePointY k v) { x := (s.preg k).x, y := v, inf := (s.preg k).inf }) ∧
  (∀ (s : State) (v : Big), s.busy = false →
    let byWords : Nat → Result := fun off => busAll ((List.range 8).map (fun i =>
      .writeWord (Config.base + off + 4 * i) (BitVec.ofNat 32 (int (((be 32 v.toNat).drop (4 * i)).take 4))))) s
    let byBytes : Nat → Result := fun off => busAll ((List.range 32).map (fun i =>
      .writeByte (Config.base + off + i) ((be 32 v.toNat).getD i 0))) s
    (∀ k : Reg, byWords (0x400 + 0x20 * k) = .next (hostOp (.writeReg k v) s) ∧
      byBytes (0x400 + 0x20 * k) = .next (hostOp (.writeReg k v) s)) ∧
    ∀ k : PReg, byWords (0x100 + 0x60 * k) = .next (hostOp (.writePointX k v) s) ∧
      byBytes (0x100 + 0x60 * k) = .next (hostOp (.writePointX k v) s) ∧
      byWords (0x120 + 0x60 * k) = .next (hostOp (.writePointY k v) s) ∧
      byBytes (0x120 + 0x60 * k) = .next (hostOp (.writePointY k v) s)) ∧
  (∀ (s : State) (j : Nat), s.busy = false → j < 32 →
    let mixture : Nat → Nat → Big → Bytes → (Big → HostOp) → (Nat → BusAccess) → Prop := fun off n old bytes op access =>
      ∃ new : Big, (∀ i, i < 32 → (be 32 new.toNat).getD i 0 =
          if j ≤ i ∧ i < j + n then bytes.getD (i - j) 0 else (be 32 old.toNat).getD i 0) ∧
        busAccess (access (Config.base + off + j)) s = .next (hostOp (op new) s)
    (∀ x : Byte, (∀ k : Reg, mixture (0x400 + 0x20 * k) 1 (s.reg k) [x] (.writeReg k) (.writeByte · x)) ∧
      ∀ k : PReg, mixture (0x100 + 0x60 * k) 1 (s.preg k).x [x] (.writePointX k) (.writeByte · x) ∧
        mixture (0x120 + 0x60 * k) 1 (s.preg k).y [x] (.writePointY k) (.writeByte · x)) ∧
    (j % 4 = 0 → ∀ w : Word,
      (∀ k : Reg, mixture (0x400 + 0x20 * k) 4 (s.reg k) (be 4 w.toNat) (.writeReg k) (.writeWord · w)) ∧
      ∀ k : PReg, mixture (0x100 + 0x60 * k) 4 (s.preg k).x (be 4 w.toNat) (.writePointX k) (.writeWord · w) ∧
        mixture (0x120 + 0x60 * k) 4 (s.preg k).y (be 4 w.toNat) (.writePointY k) (.writeWord · w))) ∧
  (∀ (s : State) (b : Buf) (off j : Nat), s.Inv → s.busy = false →
    (b = .ibuf ∧ off = 1 * Config.bstride ∨ b = .abuf ∧ off = 3 * Config.bstride ∨ b = .sigbuf ∧ off = 0x040) →
    j < capacity b →
    (∀ x : Byte, ∃ m a, (∀ i, m.read i = if i = j then x else (s.mem b).read i) ∧
      busAccess (.writeByte (Config.base + off + j) x) s = .next ((s.setMem b m).respond a) ∧
      hostOp (.writeBuf b j x) s = (s.setMem b m).respond a ∧
      ((b = .sigbuf → j < s.siglen.toNat) →
        busAll [.writeByte (Config.base + off + j) x, .readByte (Config.base + off + j)] s =
          .next ((s.setMem b m).respond (.byte x)))) ∧
    (j % 4 = 0 → ∀ w : Word, ∃ m a,
      (∀ i, m.read i = if j ≤ i ∧ i < j + 4 ∧ i < capacity b then (be 4 w.toNat).getD (i - j) 0 else (s.mem b).read i) ∧
      busAccess (.writeWord (Config.base + off + j) w) s = .next ((s.setMem b m).respond a))) ∧
  ∀ (s : State) (A : Nat), IsReserved A ∨ (2 * Config.bstride ≤ A ∧ A < 2 * Config.bstride + Config.bufBytes) →
    ∃ a, (∀ x, busAccess (.writeByte (Config.base + A) x) s = .next (s.respond a)) ∧
      (A % 4 = 0 → ∀ w, busAccess (.writeWord (Config.base + A) w) s = .next (s.respond a))

/-- R62: in every place that takes both widths, a byte read at `A + j` gives bits `31-8j` down to `24-8j` of the word
read at `A`. -/
def Obligations.BytesOfAWord : Prop :=
  ∀ (s : State) (A j : Nat), A % 4 = 0 → A < Config.windowSize → (placeOf A).wordOnly = false → j < 4 →
    ∃ w : Word, busAccess (.readWord (Config.base + A)) s = .next (s.respond (.word w)) ∧
      busAccess (.readByte (Config.base + A + j)) s = .next (s.respond (.byte (w.extractLsb' (24 - 8 * j) 8)))

/-- R40: OBUF and SIGBUF read 0x00 at and beyond their length, whatever is stored there; a host write to SIGBUF stores
the byte whatever SIGLEN is, and it becomes visible when SIGLEN is raised above its index. -/
def Obligations.ReadBeyondLength : Prop :=
  (∀ (s : State) (i : Nat), (s.olen.toNat ≤ i → hostOp (.readBuf .obuf i) s = s.respond (.byte 0)) ∧
    (s.siglen.toNat ≤ i → hostOp (.readBuf .sigbuf i) s = s.respond (.byte 0))) ∧
  ∀ (s : State) (i : Nat) (b : Byte) (l : Word), s.Inv → s.busy = false → i < 72 → i < l.toNat → l.toNat ≤ 72 →
    hostOp (.readBuf .sigbuf i) (hostOp (.writeLen .sigbuf l) (hostOp (.writeBuf .sigbuf i b) s)) =
      (hostOp (.writeLen .sigbuf l) (hostOp (.writeBuf .sigbuf i b) s)).respond (.byte b)

/-- R63: a 16-bit access, a word access that is not 4-aligned, and a byte access to the control block or to an INF word
are refused: a bus error, no state changes, STATUS among it. The data of a refused read is a free value (log entry 7).
-/
def Obligations.RefusedAccess : Prop :=
  ∀ (s : State) (A : Nat), A < Config.windowSize →
    let a := Config.base + A
    let readRefused : BusAccess → Prop := fun x => ∃ d, busAccess x s =
      .next { s with resp := .readError d, fresh := s.fresh + 1 }
    let writeRefused : BusAccess → Prop := fun x => busAccess x s = .next { s with resp := .writeError }
    (readRefused (.readHalf a) ∧ ∀ v, writeRefused (.writeHalf a v)) ∧
    (A % 4 ≠ 0 → readRefused (.readWord a) ∧ ∀ v, writeRefused (.writeWord a v)) ∧
    ((A < 0x40 ∨ ∃ k : PReg, 0x140 + 0x60 * k ≤ A ∧ A < 0x144 + 0x60 * k) →
      readRefused (.readByte a) ∧ ∀ v, writeRefused (.writeByte a v))

/-- R35 to R38, R271: a host word write to a length register takes a value within the capacity and ignores a larger one;
OLEN ignores every write. R33, R34, R74: a word write to CFG and to RETRY_CAP stores the defined bits, each at its
position, and ignores the reserved ones; R24, R26, R72: to V[i] the word, to the INF word of a point register bit 0, X
and Y staying. Nothing else changes. R70, R73: each of these writes is the abstract operation for its place. -/
def Obligations.LengthWrites : Prop :=
  ∀ (s : State) (v : Word), s.busy = false → ∃ a,
    busAccess (.writeWord (Config.base + 0x010) v) s =
      .next ((if v.toNat ≤ Config.bufBytes then { s with ilen := v } else s).respond a) ∧
    busAccess (.writeWord (Config.base + 0x014) v) s = .next (s.respond a) ∧
    busAccess (.writeWord (Config.base + 0x018) v) s =
      .next ((if v.toNat ≤ Config.bufBytes then { s with alen := v } else s).respond a) ∧
    busAccess (.writeWord (Config.base + 0x01C) v) s =
      .next ((if v.toNat ≤ 72 then { s with siglen := v } else s).respond a) ∧
    busAccess (.writeWord (Config.base + 0x008) v) s = .next (State.respond { s with cfg :=
      { order := v.getLsbD 0
        nopfx := v.getLsbD 1
        idset := v.getLsbD 2
        blankq := v.getLsbD 3 } } a) ∧
    busAccess (.writeWord (Config.base + 0x00C) v) s = .next (State.respond { s with cap := v.extractLsb' 0 8 } a) ∧
    (∀ i : Fin 8, busAccess (.writeWord (Config.base + 0x020 + 4 * i) v) s =
      .next (State.respond { s with v := s.v.set i v } a)) ∧
    (∀ k : PReg, busAccess (.writeWord (Config.base + 0x140 + 0x60 * k) v) s = .next (State.respond (s.setPreg k
      { x := (s.preg k).x
        y := (s.preg k).y
        inf := v.getLsbD 0 }) a)) ∧
    busAccess (.writeWord (Config.base + 0x010) v) s = .next (hostOp (.writeLen .ibuf v) s) ∧
    busAccess (.writeWord (Config.base + 0x018) v) s = .next (hostOp (.writeLen .abuf v) s) ∧
    busAccess (.writeWord (Config.base + 0x01C) v) s = .next (hostOp (.writeLen .sigbuf v) s) ∧
    busAccess (.writeWord (Config.base + 0x008) v) s = .next (hostOp (.writeCfg v) s) ∧
    busAccess (.writeWord (Config.base + 0x00C) v) s = .next (hostOp (.writeCap v) s) ∧
    (∀ i : Fin 8, busAccess (.writeWord (Config.base + 0x020 + 4 * i) v) s = .next (hostOp (.writeV i v) s)) ∧
    ∀ (k : PReg) (b : Bool), busAccess (.writeWord (Config.base + 0x140 + 0x60 * k) (if b then 1 else 0)) s =
      .next (hostOp (.writePointInf k b) s)

/-- R66, R70: no read of the host, abstract or on the bus, changes the state (the answer and the count of free values
apart, which are the model's own), and what each read gives: the value of the register, the length, the byte of the buffer
within its capacity (of OBUF and SIGBUF below the length, R40); R33, R34, R74: CFG and RETRY_CAP with their reserved bits 0.
R30, R61, R72: on the bus CMD reads 0, each register of the control block, each INF word and each byte of a buffer reads as
the abstract operation does, byte `j` of a 256-bit register is `be_32(value)[j]`, and reserved offsets read 0. -/
def Obligations.ReadsChangeNothing : Prop :=
  ∀ s t : State,
    (∀ a, busAccess (.readByte a) s = .next t ∨ busAccess (.readHalf a) s = .next t ∨
      busAccess (.readWord a) s = .next t → ∃ x n, t = { s with resp := x, fresh := n }) ∧
    (∀ k, hostOp (.readReg k) s = s.respond (.big (s.reg k))) ∧
    (∀ k, hostOp (.readPointX k) s = s.respond (.big (s.preg k).x)) ∧
    (∀ k, hostOp (.readPointY k) s = s.respond (.big (s.preg k).y)) ∧
    (∀ k, hostOp (.readPointInf k) s = s.respond (.word (if (s.preg k).inf then 1 else 0))) ∧
    (∀ i : Fin 8, hostOp (.readV i) s = s.respond (.word s.v[i])) ∧
    (∀ b, hostOp (.readLen b) s = s.respond (.word (s.len b))) ∧
    (∀ b j, ∃ x, hostOp (.readBuf b j) s = s.respond (.byte x) ∧
      (j < capacity b → (b = .obuf ∨ b = .sigbuf → j < (s.len b).toNat) → x = (s.mem b).read j)) ∧
    (∃ w : Word, hostOp .readCfg s = s.respond (.word w) ∧ w.getLsbD 0 = s.cfg.order ∧ w.getLsbD 1 = s.cfg.nopfx ∧
      w.getLsbD 2 = s.cfg.idset ∧ w.getLsbD 3 = s.cfg.blankq ∧ w.extractLsb' 4 28 = 0) ∧
    hostOp .readCap s = s.respond (.word (s.cap.setWidth 32)) ∧ (∃ x, hostOp .readStatus s = s.respond x) ∧
    busAccess (.readWord Config.base) s = .next (s.respond (.word 0)) ∧
    busAccess (.readWord (Config.base + 0x004)) s = .next (hostOp .readStatus s) ∧
    busAccess (.readWord (Config.base + 0x008)) s = .next (hostOp .readCfg s) ∧
    busAccess (.readWord (Config.base + 0x00C)) s = .next (hostOp .readCap s) ∧
    busAccess (.readWord (Config.base + 0x010)) s = .next (hostOp (.readLen .ibuf) s) ∧
    busAccess (.readWord (Config.base + 0x014)) s = .next (hostOp (.readLen .obuf) s) ∧
    busAccess (.readWord (Config.base + 0x018)) s = .next (hostOp (.readLen .abuf) s) ∧
    busAccess (.readWord (Config.base + 0x01C)) s = .next (hostOp (.readLen .sigbuf) s) ∧
    (∀ i : Fin 8, busAccess (.readWord (Config.base + 0x020 + 4 * i)) s = .next (hostOp (.readV i) s)) ∧
    (∀ k : PReg, busAccess (.readWord (Config.base + 0x140 + 0x60 * k)) s = .next (hostOp (.readPointInf k) s)) ∧
    (∀ j, j < 72 → busAccess (.readByte (Config.base + 0x040 + j)) s = .next (hostOp (.readBuf .sigbuf j) s)) ∧
    (∀ j, j < Config.bufBytes →
      busAccess (.readByte (Config.base + 1 * Config.bstride + j)) s = .next (hostOp (.readBuf .ibuf j) s) ∧
      busAccess (.readByte (Config.base + 2 * Config.bstride + j)) s = .next (hostOp (.readBuf .obuf j) s) ∧
      busAccess (.readByte (Config.base + 3 * Config.bstride + j)) s = .next (hostOp (.readBuf .abuf j) s)) ∧
    (∀ j, j < 32 →
      (∀ k : Reg, busAccess (.readByte (Config.base + 0x400 + 0x20 * k + j)) s =
        .next (s.respond (.byte ((be 32 (s.reg k).toNat).getD j 0)))) ∧
      ∀ k : PReg, busAccess (.readByte (Config.base + 0x100 + 0x60 * k + j)) s =
          .next (s.respond (.byte ((be 32 (s.preg k).x.toNat).getD j 0))) ∧
        busAccess (.readByte (Config.base + 0x120 + 0x60 * k + j)) s =
          .next (s.respond (.byte ((be 32 (s.preg k).y.toNat).getD j 0)))) ∧
    ∀ A, IsReserved A → busAccess (.readByte (Config.base + A)) s = .next (s.respond (.byte 0)) ∧
      (A % 4 = 0 → busAccess (.readWord (Config.base + A)) s = .next (s.respond (.word 0)))
end

