-- ==== Sys2Proof/Laws/Bytes.lean ====
section
/-!
SUPPORT. Laws of the number and byte-string notation: the residue of an integer, `be` and `int` are inverse, lengths of
substrings and of exclusive ors.
-/
namespace Sys2Proof.Machine

/-- The residue is below the modulus. -/
theorem imod_lt (z : Int) (m : Nat) (h : 0 < m) : imod z m < m := by
  have h0 : (0 : Int) < m := by exact_mod_cast h
  have h1 := Int.emod_nonneg z (ne_of_gt h0)
  have h2 := Int.emod_lt_of_pos z h0
  unfold imod
  omega

/-- The residue as an integer. -/
theorem imod_cast (z : Int) (m : Nat) (h : 0 < m) : (imod z m : Int) = z % m := by
  have h0 : (0 : Int) < m := by exact_mod_cast h
  exact Int.toNat_of_nonneg (Int.emod_nonneg z (ne_of_gt h0))

/-- The residue is congruent to the integer. -/
theorem imod_modEq (z : Int) (m : Nat) (h : 0 < m) : (imod z m : Int) ≡ z [ZMOD m] := by
  rw [imod_cast z m h]
  exact Int.mod_modEq z m

/-- The residue in the ring of integers modulo `m`. -/
theorem imod_zmod (z : Int) (m : Nat) (h : 0 < m) : ((imod z m : Nat) : ZMod m) = (z : ZMod m) := by
  have h1 : ((imod z m : Int) : ZMod m) = (z : ZMod m) := (ZMod.intCast_eq_intCast_iff _ _ _).2 (imod_modEq z m h)
  simpa using h1

@[simp] theorem be_length (k v : Nat) : (be k v).length = k := by
  induction k with
  | zero => rfl
  | succ k ih => simp [be, ih]

/-- The fold of `int` with a start value. -/
theorem int_foldl (s : Bytes) (acc : Nat) :
    s.foldl (fun acc b => acc * 256 + b.toNat) acc = acc * 256 ^ s.length + int s := by
  induction s generalizing acc with
  | nil => simp [int]
  | cons b t ih =>
    rw [List.foldl_cons, ih]
    have h2 : int (b :: t) = (0 * 256 + b.toNat) * 256 ^ t.length + int t := by
      unfold int
      rw [List.foldl_cons, ih]
      rfl
    rw [h2, List.length_cons, pow_succ]
    ring

theorem int_cons (b : Byte) (t : Bytes) : int (b :: t) = b.toNat * 256 ^ t.length + int t := by
  have h := int_foldl t (0 * 256 + b.toNat)
  unfold int
  rw [List.foldl_cons, h]
  simp [int]

@[simp] theorem int_nil : int [] = 0 := rfl

theorem int_append (s t : Bytes) : int (s ++ t) = int s * 256 ^ t.length + int t := by
  have h := int_foldl t (int s)
  unfold int at *
  rw [List.foldl_append, h]

/-- `int` of `k` bytes is below `256^k`. -/
theorem int_lt (s : Bytes) : int s < 256 ^ s.length := by
  induction s with
  | nil => simp
  | cons b t ih =>
    rw [int_cons, List.length_cons, pow_succ]
    have hb := b.isLt
    have : b.toNat * 256 ^ t.length ≤ 255 * 256 ^ t.length := Nat.mul_le_mul_right _ (by omega)
    omega

/-- `int` undoes `be` on every number, modulo `256^k`. -/
theorem int_be_mod (k v : Nat) : int (be k v) = v % 256 ^ k := by
  induction k with
  | zero => simp [be, Nat.mod_one]
  | succ k ih =>
    rw [be, int_cons, ih, be_length, BitVec.toNat_ofNat, show (2 : Nat) ^ 8 = 256 from rfl, Nat.pow_succ, Nat.mod_mul]
    ring

/-- `int(be_k(v)) = v` for `v < 256^k`. -/
theorem int_be (k v : Nat) (h : v < 256 ^ k) : int (be k v) = v := by
  rw [int_be_mod, Nat.mod_eq_of_lt h]

/-- `be_k(int(s)) = s` for a string of `k` bytes. -/
theorem be_int (s : Bytes) : be s.length (int s) = s := by
  induction s with
  | nil => rfl
  | cons b t ih =>
    have ht := int_lt t
    have h1 : int (b :: t) / 256 ^ t.length = b.toNat := by
      rw [int_cons, Nat.add_comm, Nat.add_mul_div_right _ _ (by positivity), Nat.div_eq_of_lt ht, Nat.zero_add]
    have h2 : ∀ k v w : Nat, v % 256 ^ k = w % 256 ^ k → be k v = be k w := by
      intro k
      induction k with
      | zero => intros; rfl
      | succ k ihk =>
        intro v w h
        have hk : v % 256 ^ k = w % 256 ^ k := by
          have := congrArg (· % 256 ^ k) h
          simpa [pow_succ, Nat.mod_mul_right_mod] using this
        have hd : v / 256 ^ k % 256 = w / 256 ^ k % 256 := by
          have hv := Nat.mod_mul_right_div_self v (256 ^ k) 256
          have hw := Nat.mod_mul_right_div_self w (256 ^ k) 256
          rw [← hv, ← hw, ← pow_succ, h]
        simp only [be, ihk v w hk]
        congr 1
        apply BitVec.eq_of_toNat_eq
        simpa using hd
    have h3 : be t.length (int (b :: t)) = be t.length (int t) := by
      apply h2
      rw [int_cons, Nat.mul_comm, Nat.mul_add_mod]
    rw [List.length_cons, be, h1, h3, ih]
    simp

/-- Byte `i` of `be_k(v)`, byte 0 the most significant (R9). -/
theorem be_getD (k v i : Nat) (h : i < k) : (be k v).getD i 0 = BitVec.ofNat 8 (v / 256 ^ (k - 1 - i)) := by
  induction k generalizing i with
  | zero => omega
  | succ k ih =>
    cases i with
    | zero => simp [be]
    | succ i =>
      rw [be, List.getD_cons_succ, ih i (by omega)]
      congr 3
      omega

@[simp] theorem slice_length (s : Bytes) (i j : Nat) : (slice s i j).length = min (j - i) (s.length - i) := by
  simp [slice]

@[simp] theorem xorBytes_length (s t : Bytes) : (xorBytes s t).length = min s.length t.length := by
  simp [xorBytes]

@[simp] theorem xorBytes_nil_left (t : Bytes) : xorBytes [] t = [] := by simp [xorBytes]

/-- Masking twice with the same string gives the string back (R192). -/
theorem xorBytes_xorBytes (s t : Bytes) (h : s.length ≤ t.length) : xorBytes (xorBytes s t) t = s := by
  induction s generalizing t with
  | nil => simp [xorBytes]
  | cons a s ih =>
    cases t with
    | nil => simp at h
    | cons b t =>
      have := ih t (by simpa using h)
      simp only [xorBytes, List.zipWith_cons_cons] at *
      rw [this, BitVec.xor_assoc, BitVec.xor_self, BitVec.xor_zero]

end Sys2Proof.Machine
end

