-- ==== Sys2Proof/Laws/Pow.lean ====
section
/-!
SUPPORT. Square-and-multiply computes the power: `modPow m x e` is `x^e mod m`.
-/
namespace Sys2Proof.Machine

/-- The bits of `k` end below `bitlen k`. -/
theorem lt_two_pow_bitlen (k : Nat) : k < 2 ^ bitlen k := by
  unfold bitlen
  split
  · simp_all
  · exact Nat.lt_log2_self

/-- The low `i + 1` bits of `e` are bit `i` and the low `i` bits. -/
theorem mod_two_pow_succ_testBit (e i : Nat) : e % 2 ^ (i + 1) = (if e.testBit i then 2 ^ i else 0) + e % 2 ^ i := by
  rw [Nat.testBit_eq_decide_div_mod_eq, pow_succ, Nat.mod_mul]
  have h := Nat.mod_two_eq_zero_or_one (e / 2 ^ i)
  rcases h with h | h <;> simp [h, Nat.add_comm]

/-- The loop of square-and-multiply, modulo `m`. -/
theorem modPowBits_mod (m x e i acc : Nat) : modPowBits m x e i acc % m = acc ^ 2 ^ i * x ^ (e % 2 ^ i) % m := by
  induction i generalizing acc with
  | zero => simp [modPowBits, Nat.mod_one]
  | succ i ih =>
    rw [modPowBits, ih, mod_two_pow_succ_testBit]
    have h2 : acc ^ 2 ^ (i + 1) = (acc * acc) ^ 2 ^ i := by rw [← pow_two, ← pow_mul, pow_succ, Nat.mul_comm]
    rw [h2]
    cases e.testBit i with
    | false =>
      simp only [Bool.false_eq_true, if_false, Nat.zero_add]
      exact Nat.ModEq.mul_right _ ((Nat.mod_modEq _ _).pow _)
    | true =>
      simp only [if_true, pow_add]
      have : (acc * acc % m * x % m) ^ 2 ^ i ≡ (acc * acc * x) ^ 2 ^ i [MOD m] :=
        ((Nat.mod_modEq _ _).trans ((Nat.mod_modEq _ _).mul_right _)).pow _
      have h3 := this.mul_right (x ^ (e % 2 ^ i))
      rw [mul_pow] at h3
      rw [← mul_assoc]
      exact h3

/-- The loop stays below the modulus. -/
theorem modPowBits_lt (m x e i acc : Nat) (hm : 0 < m) (h : acc < m) : modPowBits m x e i acc < m := by
  induction i generalizing acc with
  | zero => exact h
  | succ i ih =>
    rw [modPowBits]
    apply ih
    split <;> exact Nat.mod_lt _ hm

/-- `modPow m x e = x^e mod m`. -/
theorem modPow_eq (m x e : Nat) (hm : 0 < m) : modPow m x e = x ^ e % m := by
  have h1 := modPowBits_lt m x e (bitlen e) (1 % m) hm (Nat.mod_lt _ hm)
  have h2 := modPowBits_mod m x e (bitlen e) (1 % m)
  rw [Nat.mod_eq_of_lt h1, Nat.mod_eq_of_lt (lt_two_pow_bitlen e)] at h2
  unfold modPow
  rw [h2]
  have : (1 % m) ^ 2 ^ bitlen e ≡ 1 [MOD m] := by simpa using (Nat.mod_modEq 1 m).pow (2 ^ bitlen e)
  have h3 := this.mul_right (x ^ e)
  rw [Nat.one_mul] at h3
  exact h3

theorem modPow_lt (m x e : Nat) (hm : 0 < m) : modPow m x e < m := by
  rw [modPow_eq m x e hm]
  exact Nat.mod_lt _ hm

/-- The power in the ring of integers modulo `m`. -/
theorem modPow_zmod (m x e : Nat) (hm : 0 < m) : ((modPow m x e : Nat) : ZMod m) = (x : ZMod m) ^ e := by
  rw [modPow_eq m x e hm]
  simp

theorem modPow_eq_one_iff (m x e : Nat) (hm : 1 < m) : modPow m x e = 1 ↔ (x : ZMod m) ^ e = 1 := by
  rw [← modPow_zmod m x e (by omega)]
  constructor
  · intro h; simp [h]
  · intro h
    have h3 : ((modPow m x e : Nat) : ZMod m) = ((1 : Nat) : ZMod m) := by simpa using h
    have h1 := (ZMod.natCast_eq_natCast_iff' _ _ _).1 h3
    rwa [Nat.mod_eq_of_lt (modPow_lt m x e (by omega)), Nat.mod_eq_of_lt hm] at h1

end Sys2Proof.Machine
end

