-- ==== Sys2Proof/Laws/Primes.lean ====
section
/-!
SUPPORT. The two moduli are prime (41_field.md R121 says so without proof): a chain of primality certificates, each number
with the factors of its predecessor and a primitive root.
-/
namespace Sys2Proof.Machine

/-- A number with a primitive root is prime: `a^(p-1) = 1` and `a^((p-1)/q)` is not 1 for each prime factor `q`. -/
theorem prime_of_pratt (p a : Nat) (fs : List Nat) (hp : 1 < p) (hprod : fs.prod = p - 1) (hprime : ∀ q ∈ fs, q.Prime)
    (h1 : modPow p a (p - 1) = 1) (h2 : ∀ q ∈ fs, modPow p a ((p - 1) / q) ≠ 1) : p.Prime := by
  have key : ∀ e, modPow p a e = 1 ↔ (a : ZMod p) ^ e = 1 := fun e => modPow_eq_one_iff p a e hp
  refine lucas_primality p (a : ZMod p) ((key _).1 h1) ?_
  intro q hq hd he
  rw [← hprod] at hd
  obtain ⟨r, hr, hqr⟩ := (Nat.Prime.prime hq).dvd_prod_iff.1 hd
  have : q = r := (Nat.prime_dvd_prime_iff_eq hq (hprime r hr)).1 hqr
  subst this
  exact h2 q hr ((key _).2 he)

theorem prime_7 : Nat.Prime 7 := by norm_num

theorem prime_11 : Nat.Prime 11 := by norm_num

theorem prime_13 : Nat.Prime 13 := by norm_num

theorem prime_31 : Nat.Prime 31 := by norm_num

theorem prime_41 : Nat.Prime 41 := by norm_num

theorem prime_43 : Nat.Prime 43 := by norm_num

theorem prime_53 : Nat.Prime 53 := by norm_num

theorem prime_59 : Nat.Prime 59 := by norm_num

theorem prime_61 : Nat.Prime 61 := by norm_num

theorem prime_67 : Nat.Prime 67 := by norm_num

theorem prime_71 : Nat.Prime 71 := by norm_num

theorem prime_79 : Nat.Prime 79 := by norm_num

theorem prime_97 : Nat.Prime 97 := by norm_num

theorem prime_103 : Nat.Prime 103 := by norm_num

theorem prime_127 : Nat.Prime 127 := by norm_num

theorem prime_181 : Nat.Prime 181 := by norm_num

theorem prime_233 : Nat.Prime 233 := by norm_num

theorem prime_337 : Nat.Prime 337 := by norm_num

theorem prime_367 : Nat.Prime 367 := by norm_num

theorem prime_719 : Nat.Prime 719 := by norm_num

theorem prime_769 : Nat.Prime 769 := by norm_num

theorem prime_823 : Nat.Prime 823 := by norm_num

theorem prime_1013 : Nat.Prime 1013 := by norm_num

theorem prime_1213 : Nat.Prime 1213 := by norm_num

theorem prime_2473 : Nat.Prime 2473 := by norm_num

theorem prime_3049 : Nat.Prime 3049 := by norm_num

theorem prime_4957 : Nat.Prime 4957 := by norm_num

theorem prime_5303 : Nat.Prime 5303 := by norm_num

theorem prime_5711 : Nat.Prime 5711 := by norm_num

theorem prime_5801 : Nat.Prime 5801 := by norm_num

theorem prime_7759 : Nat.Prime 7759 := by norm_num

theorem prime_12149 : Nat.Prime 12149 := by norm_num

theorem prime_14057 : Nat.Prime 14057 := by norm_num

theorem prime_30223 : Nat.Prime 30223 := by norm_num

theorem prime_34511 : Nat.Prime 34511 := by norm_num

theorem prime_54983 : Nat.Prime 54983 := by norm_num

theorem prime_71209 : Nat.Prime 71209 := by norm_num

theorem prime_84163 : Nat.Prime 84163 := by norm_num

theorem prime_110899 : Nat.Prime 110899 := by norm_num

theorem prime_179429 : Nat.Prime 179429 := by norm_num

theorem prime_363761 : Nat.Prime 363761 := by norm_num

theorem prime_3079049 : Nat.Prime 3079049 := by
  refine prime_of_pratt 3079049 3 [2, 2, 2, 7, 54983] (by decide +kernel) (by decide +kernel) ?_ (by decide +kernel) (by decide +kernel)
  simp only [List.forall_mem_cons, List.not_mem_nil, false_imp_iff, implies_true, and_true]
  exact ⟨Nat.prime_two, Nat.prime_two, Nat.prime_two, prime_7, prime_54983⟩

theorem prime_6158099 : Nat.Prime 6158099 := by
  refine prime_of_pratt 6158099 2 [2, 3079049] (by decide +kernel) (by decide +kernel) ?_ (by decide +kernel) (by decide +kernel)
  simp only [List.forall_mem_cons, List.not_mem_nil, false_imp_iff, implies_true, and_true]
  exact ⟨Nat.prime_two, prime_3079049⟩

theorem prime_8214737 : Nat.Prime 8214737 := by
  refine prime_of_pratt 8214737 3 [2, 2, 2, 2, 67, 79, 97] (by decide +kernel) (by decide +kernel) ?_ (by decide +kernel) (by decide +kernel)
  simp only [List.forall_mem_cons, List.not_mem_nil, false_imp_iff, implies_true, and_true]
  exact ⟨Nat.prime_two, Nat.prime_two, Nat.prime_two, Nat.prime_two, prime_67, prime_79, prime_97⟩

theorem prime_9061163 : Nat.Prime 9061163 := by
  refine prime_of_pratt 9061163 2 [2, 11, 71, 5801] (by decide +kernel) (by decide +kernel) ?_ (by decide +kernel) (by decide +kernel)
  simp only [List.forall_mem_cons, List.not_mem_nil, false_imp_iff, implies_true, and_true]
  exact ⟨Nat.prime_two, prime_11, prime_71, prime_5801⟩

theorem prime_10042883 : Nat.Prime 10042883 := by
  refine prime_of_pratt 10042883 2 [2, 1013, 4957] (by decide +kernel) (by decide +kernel) ?_ (by decide +kernel) (by decide +kernel)
  simp only [List.forall_mem_cons, List.not_mem_nil, false_imp_iff, implies_true, and_true]
  exact ⟨Nat.prime_two, prime_1013, prime_4957⟩

theorem prime_17965699 : Nat.Prime 17965699 := by
  refine prime_of_pratt 17965699 2 [2, 3, 71, 181, 233] (by decide +kernel) (by decide +kernel) ?_ (by decide +kernel) (by decide +kernel)
  simp only [List.forall_mem_cons, List.not_mem_nil, false_imp_iff, implies_true, and_true]
  exact ⟨Nat.prime_two, Nat.prime_three, prime_71, prime_181, prime_233⟩

theorem prime_107615843 : Nat.Prime 107615843 := by
  refine prime_of_pratt 107615843 2 [2, 43, 103, 12149] (by decide +kernel) (by decide +kernel) ?_ (by decide +kernel) (by decide +kernel)
  simp only [List.forall_mem_cons, List.not_mem_nil, false_imp_iff, implies_true, and_true]
  exact ⟨Nat.prime_two, prime_43, prime_103, prime_12149⟩

theorem prime_117774739 : Nat.Prime 117774739 := by
  refine prime_of_pratt 117774739 2 [2, 3, 3, 59, 110899] (by decide +kernel) (by decide +kernel) ?_ (by decide +kernel) (by decide +kernel)
  simp only [List.forall_mem_cons, List.not_mem_nil, false_imp_iff, implies_true, and_true]
  exact ⟨Nat.prime_two, Nat.prime_three, Nat.prime_three, prime_59, prime_110899⟩

theorem prime_1413296869 : Nat.Prime 1413296869 := by
  refine prime_of_pratt 1413296869 6 [2, 2, 3, 117774739] (by decide +kernel) (by decide +kernel) ?_ (by decide +kernel) (by decide +kernel)
  simp only [List.forall_mem_cons, List.not_mem_nil, false_imp_iff, implies_true, and_true]
  exact ⟨Nat.prime_two, Nat.prime_two, Nat.prime_three, prime_117774739⟩

theorem prime_2566129871 : Nat.Prime 2566129871 := by
  refine prime_of_pratt 2566129871 7 [2, 5, 3049, 84163] (by decide +kernel) (by decide +kernel) ?_ (by decide +kernel) (by decide +kernel)
  simp only [List.forall_mem_cons, List.not_mem_nil, false_imp_iff, implies_true, and_true]
  exact ⟨Nat.prime_two, Nat.prime_five, prime_3049, prime_84163⟩

theorem prime_3017783777 : Nat.Prime 3017783777 := by
  refine prime_of_pratt 3017783777 3 [2, 2, 2, 2, 2, 7, 7, 337, 5711] (by decide +kernel) (by decide +kernel) ?_ (by decide +kernel) (by decide +kernel)
  simp only [List.forall_mem_cons, List.not_mem_nil, false_imp_iff, implies_true, and_true]
  exact ⟨Nat.prime_two, Nat.prime_two, Nat.prime_two, Nat.prime_two, Nat.prime_two, prime_7, prime_7, prime_337, prime_5711⟩

theorem prime_348253387243 : Nat.Prime 348253387243 := by
  refine prime_of_pratt 348253387243 3 [2, 3, 61, 5303, 179429] (by decide +kernel) (by decide +kernel) ?_ (by decide +kernel) (by decide +kernel)
  simp only [List.forall_mem_cons, List.not_mem_nil, false_imp_iff, implies_true, and_true]
  exact ⟨Nat.prime_two, Nat.prime_three, prime_61, prime_5303, prime_179429⟩

theorem prime_2368433183657 : Nat.Prime 2368433183657 := by
  refine prime_of_pratt 2368433183657 3 [2, 2, 2, 41, 719, 10042883] (by decide +kernel) (by decide +kernel) ?_ (by decide +kernel) (by decide +kernel)
  simp only [List.forall_mem_cons, List.not_mem_nil, false_imp_iff, implies_true, and_true]
  exact ⟨Nat.prime_two, Nat.prime_two, Nat.prime_two, prime_41, prime_719, prime_10042883⟩

theorem prime_4641351449027 : Nat.Prime 4641351449027 := by
  refine prime_of_pratt 4641351449027 2 [2, 769, 3017783777] (by decide +kernel) (by decide +kernel) ?_ (by decide +kernel) (by decide +kernel)
  simp only [List.forall_mem_cons, List.not_mem_nil, false_imp_iff, implies_true, and_true]
  exact ⟨Nat.prime_two, prime_769, prime_3017783777⟩

theorem prime_5636460199499 : Nat.Prime 5636460199499 := by
  refine prime_of_pratt 5636460199499 2 [2, 31, 79, 127, 9061163] (by decide +kernel) (by decide +kernel) ?_ (by decide +kernel) (by decide +kernel)
  simp only [List.forall_mem_cons, List.not_mem_nil, false_imp_iff, implies_true, and_true]
  exact ⟨Nat.prime_two, prime_31, prime_79, prime_127, prime_9061163⟩

theorem prime_101456283590983 : Nat.Prime 101456283590983 := by
  refine prime_of_pratt 101456283590983 3 [2, 3, 3, 5636460199499] (by decide +kernel) (by decide +kernel) ?_ (by decide +kernel) (by decide +kernel)
  simp only [List.forall_mem_cons, List.not_mem_nil, false_imp_iff, implies_true, and_true]
  exact ⟨Nat.prime_two, Nat.prime_three, Nat.prime_three, prime_5636460199499⟩

theorem prime_417514796639753 : Nat.Prime 417514796639753 := by
  refine prime_of_pratt 417514796639753 3 [2, 2, 2, 7, 367, 2473, 8214737] (by decide +kernel) (by decide +kernel) ?_ (by decide +kernel) (by decide +kernel)
  simp only [List.forall_mem_cons, List.not_mem_nil, false_imp_iff, implies_true, and_true]
  exact ⟨Nat.prime_two, Nat.prime_two, Nat.prime_two, prime_7, prime_367, prime_2473, prime_8214737⟩

theorem prime_3258964060712033 : Nat.Prime 3258964060712033 := by
  refine prime_of_pratt 3258964060712033 3 [2, 2, 2, 2, 2, 43, 2368433183657] (by decide +kernel) (by decide +kernel) ?_ (by decide +kernel) (by decide +kernel)
  simp only [List.forall_mem_cons, List.not_mem_nil, false_imp_iff, implies_true, and_true]
  exact ⟨Nat.prime_two, Nat.prime_two, Nat.prime_two, Nat.prime_two, Nat.prime_two, prime_43, prime_2368433183657⟩

theorem prime_4773264379806847 : Nat.Prime 4773264379806847 := by
  refine prime_of_pratt 4773264379806847 3 [2, 3, 7, 11, 823, 34511, 363761] (by decide +kernel) (by decide +kernel) ?_ (by decide +kernel) (by decide +kernel)
  simp only [List.forall_mem_cons, List.not_mem_nil, false_imp_iff, implies_true, and_true]
  exact ⟨Nat.prime_two, Nat.prime_three, prime_7, prime_11, prime_823, prime_34511, prime_363761⟩

theorem prime_66013261729388519804782124120027 : Nat.Prime 66013261729388519804782124120027 := by
  refine prime_of_pratt 66013261729388519804782124120027 2 [2, 13, 1213, 71209, 6158099, 4773264379806847] (by decide +kernel) (by decide +kernel) ?_ (by decide +kernel) (by decide +kernel)
  simp only [List.forall_mem_cons, List.not_mem_nil, false_imp_iff, implies_true, and_true]
  exact ⟨Nat.prime_two, prime_13, prime_1213, prime_71209, prime_6158099, prime_4773264379806847⟩

theorem prime_18120927127286907576013935251791662753637 : Nat.Prime 18120927127286907576013935251791662753637 := by
  refine prime_of_pratt 18120927127286907576013935251791662753637 6 [2, 2, 3, 3, 17965699, 107615843, 2566129871, 101456283590983] (by decide +kernel) (by decide +kernel) ?_ (by decide +kernel) (by decide +kernel)
  simp only [List.forall_mem_cons, List.not_mem_nil, false_imp_iff, implies_true, and_true]
  exact ⟨Nat.prime_two, Nat.prime_two, Nat.prime_three, Nat.prime_three, prime_17965699, prime_107615843, prime_2566129871, prime_101456283590983⟩

theorem prime_125197554539772723432468576818475380947471091418362477724521 : Nat.Prime 125197554539772723432468576818475380947471091418362477724521 := by
  refine prime_of_pratt 125197554539772723432468576818475380947471091418362477724521 3 [2, 2, 2, 5, 53, 3258964060712033, 18120927127286907576013935251791662753637] (by decide +kernel) (by decide +kernel) ?_ (by decide +kernel) (by decide +kernel)
  simp only [List.forall_mem_cons, List.not_mem_nil, false_imp_iff, implies_true, and_true]
  exact ⟨Nat.prime_two, Nat.prime_two, Nat.prime_two, Nat.prime_five, prime_53, prime_3258964060712033, prime_18120927127286907576013935251791662753637⟩

theorem curveN_prime : Nat.Prime curveN := by
  refine prime_of_pratt curveN 3 [2, 3, 7759, 14057, 1413296869, 125197554539772723432468576818475380947471091418362477724521] (by decide +kernel) (by decide +kernel) ?_ (by decide +kernel) (by decide +kernel)
  simp only [List.forall_mem_cons, List.not_mem_nil, false_imp_iff, implies_true, and_true]
  exact ⟨Nat.prime_two, Nat.prime_three, prime_7759, prime_14057, prime_1413296869, prime_125197554539772723432468576818475380947471091418362477724521⟩

theorem curveP_prime : Nat.Prime curveP := by
  refine prime_of_pratt curveP 13 [2, 43, 30223, 348253387243, 4641351449027, 417514796639753, 66013261729388519804782124120027] (by decide +kernel) (by decide +kernel) ?_ (by decide +kernel) (by decide +kernel)
  simp only [List.forall_mem_cons, List.not_mem_nil, false_imp_iff, implies_true, and_true]
  exact ⟨Nat.prime_two, prime_43, prime_30223, prime_348253387243, prime_4641351449027, prime_417514796639753, prime_66013261729388519804782124120027⟩

/-- Either modulus is prime. -/
theorem modulus_prime (m : Modulus) : (modulus m).Prime := by
  cases m
  · exact curveP_prime
  · exact curveN_prime

end Sys2Proof.Machine
end

