-- ==== Sys2Proof/Laws/State.lean ====
section
/-!
SUPPORT. One lemma for each field under each update of the state, and the register, buffer and length accessors under
their updates, so that no proof unfolds a record update.
-/
namespace Sys2Proof.Machine

@[simp] theorem State.setReg_p (s : State) (k : Reg) (x : Big) : (s.setReg k x).p = s.p := rfl
@[simp] theorem State.setReg_v (s : State) (k : Reg) (x : Big) : (s.setReg k x).v = s.v := rfl
@[simp] theorem State.setReg_ibuf (s : State) (k : Reg) (x : Big) : (s.setReg k x).ibuf = s.ibuf := rfl
@[simp] theorem State.setReg_obuf (s : State) (k : Reg) (x : Big) : (s.setReg k x).obuf = s.obuf := rfl
@[simp] theorem State.setReg_abuf (s : State) (k : Reg) (x : Big) : (s.setReg k x).abuf = s.abuf := rfl
@[simp] theorem State.setReg_sigbuf (s : State) (k : Reg) (x : Big) : (s.setReg k x).sigbuf = s.sigbuf := rfl
@[simp] theorem State.setReg_ilen (s : State) (k : Reg) (x : Big) : (s.setReg k x).ilen = s.ilen := rfl
@[simp] theorem State.setReg_olen (s : State) (k : Reg) (x : Big) : (s.setReg k x).olen = s.olen := rfl
@[simp] theorem State.setReg_alen (s : State) (k : Reg) (x : Big) : (s.setReg k x).alen = s.alen := rfl
@[simp] theorem State.setReg_siglen (s : State) (k : Reg) (x : Big) : (s.setReg k x).siglen = s.siglen := rfl
@[simp] theorem State.setReg_cfg (s : State) (k : Reg) (x : Big) : (s.setReg k x).cfg = s.cfg := rfl
@[simp] theorem State.setReg_cap (s : State) (k : Reg) (x : Big) : (s.setReg k x).cap = s.cap := rfl
@[simp] theorem State.setReg_inflight (s : State) (k : Reg) (x : Big) : (s.setReg k x).inflight = s.inflight := rfl
@[simp] theorem State.setReg_done (s : State) (k : Reg) (x : Big) : (s.setReg k x).done = s.done := rfl
@[simp] theorem State.setReg_result (s : State) (k : Reg) (x : Big) : (s.setReg k x).result = s.result := rfl
@[simp] theorem State.setReg_err (s : State) (k : Reg) (x : Big) : (s.setReg k x).err = s.err := rfl
@[simp] theorem State.setReg_att (s : State) (k : Reg) (x : Big) : (s.setReg k x).att = s.att := rfl
@[simp] theorem State.setReg_host (s : State) (k : Reg) (x : Big) : (s.setReg k x).host = s.host := rfl
@[simp] theorem State.setReg_rng (s : State) (k : Reg) (x : Big) : (s.setReg k x).rng = s.rng := rfl
@[simp] theorem State.setReg_resp (s : State) (k : Reg) (x : Big) : (s.setReg k x).resp = s.resp := rfl
@[simp] theorem State.setReg_fresh (s : State) (k : Reg) (x : Big) : (s.setReg k x).fresh = s.fresh := rfl
@[simp] theorem State.setReg_tries (s : State) (k : Reg) (x : Big) : (s.setReg k x).tries = s.tries := rfl
@[simp] theorem State.setRegNat_p (s : State) (k : Reg) (x : Nat) : (s.setRegNat k x).p = s.p := rfl
@[simp] theorem State.setRegNat_v (s : State) (k : Reg) (x : Nat) : (s.setRegNat k x).v = s.v := rfl
@[simp] theorem State.setRegNat_ibuf (s : State) (k : Reg) (x : Nat) : (s.setRegNat k x).ibuf = s.ibuf := rfl
@[simp] theorem State.setRegNat_obuf (s : State) (k : Reg) (x : Nat) : (s.setRegNat k x).obuf = s.obuf := rfl
@[simp] theorem State.setRegNat_abuf (s : State) (k : Reg) (x : Nat) : (s.setRegNat k x).abuf = s.abuf := rfl
@[simp] theorem State.setRegNat_sigbuf (s : State) (k : Reg) (x : Nat) : (s.setRegNat k x).sigbuf = s.sigbuf := rfl
@[simp] theorem State.setRegNat_ilen (s : State) (k : Reg) (x : Nat) : (s.setRegNat k x).ilen = s.ilen := rfl
@[simp] theorem State.setRegNat_olen (s : State) (k : Reg) (x : Nat) : (s.setRegNat k x).olen = s.olen := rfl
@[simp] theorem State.setRegNat_alen (s : State) (k : Reg) (x : Nat) : (s.setRegNat k x).alen = s.alen := rfl
@[simp] theorem State.setRegNat_siglen (s : State) (k : Reg) (x : Nat) : (s.setRegNat k x).siglen = s.siglen := rfl
@[simp] theorem State.setRegNat_cfg (s : State) (k : Reg) (x : Nat) : (s.setRegNat k x).cfg = s.cfg := rfl
@[simp] theorem State.setRegNat_cap (s : State) (k : Reg) (x : Nat) : (s.setRegNat k x).cap = s.cap := rfl
@[simp] theorem State.setRegNat_inflight (s : State) (k : Reg) (x : Nat) : (s.setRegNat k x).inflight = s.inflight := rfl
@[simp] theorem State.setRegNat_done (s : State) (k : Reg) (x : Nat) : (s.setRegNat k x).done = s.done := rfl
@[simp] theorem State.setRegNat_result (s : State) (k : Reg) (x : Nat) : (s.setRegNat k x).result = s.result := rfl
@[simp] theorem State.setRegNat_err (s : State) (k : Reg) (x : Nat) : (s.setRegNat k x).err = s.err := rfl
@[simp] theorem State.setRegNat_att (s : State) (k : Reg) (x : Nat) : (s.setRegNat k x).att = s.att := rfl
@[simp] theorem State.setRegNat_host (s : State) (k : Reg) (x : Nat) : (s.setRegNat k x).host = s.host := rfl
@[simp] theorem State.setRegNat_rng (s : State) (k : Reg) (x : Nat) : (s.setRegNat k x).rng = s.rng := rfl
@[simp] theorem State.setRegNat_resp (s : State) (k : Reg) (x : Nat) : (s.setRegNat k x).resp = s.resp := rfl
@[simp] theorem State.setRegNat_fresh (s : State) (k : Reg) (x : Nat) : (s.setRegNat k x).fresh = s.fresh := rfl
@[simp] theorem State.setRegNat_tries (s : State) (k : Reg) (x : Nat) : (s.setRegNat k x).tries = s.tries := rfl
@[simp] theorem State.setPreg_r (s : State) (k : PReg) (q : PointReg) : (s.setPreg k q).r = s.r := rfl
@[simp] theorem State.setPreg_v (s : State) (k : PReg) (q : PointReg) : (s.setPreg k q).v = s.v := rfl
@[simp] theorem State.setPreg_ibuf (s : State) (k : PReg) (q : PointReg) : (s.setPreg k q).ibuf = s.ibuf := rfl
@[simp] theorem State.setPreg_obuf (s : State) (k : PReg) (q : PointReg) : (s.setPreg k q).obuf = s.obuf := rfl
@[simp] theorem State.setPreg_abuf (s : State) (k : PReg) (q : PointReg) : (s.setPreg k q).abuf = s.abuf := rfl
@[simp] theorem State.setPreg_sigbuf (s : State) (k : PReg) (q : PointReg) : (s.setPreg k q).sigbuf = s.sigbuf := rfl
@[simp] theorem State.setPreg_ilen (s : State) (k : PReg) (q : PointReg) : (s.setPreg k q).ilen = s.ilen := rfl
@[simp] theorem State.setPreg_olen (s : State) (k : PReg) (q : PointReg) : (s.setPreg k q).olen = s.olen := rfl
@[simp] theorem State.setPreg_alen (s : State) (k : PReg) (q : PointReg) : (s.setPreg k q).alen = s.alen := rfl
@[simp] theorem State.setPreg_siglen (s : State) (k : PReg) (q : PointReg) : (s.setPreg k q).siglen = s.siglen := rfl
@[simp] theorem State.setPreg_cfg (s : State) (k : PReg) (q : PointReg) : (s.setPreg k q).cfg = s.cfg := rfl
@[simp] theorem State.setPreg_cap (s : State) (k : PReg) (q : PointReg) : (s.setPreg k q).cap = s.cap := rfl
@[simp] theorem State.setPreg_inflight (s : State) (k : PReg) (q : PointReg) : (s.setPreg k q).inflight = s.inflight := rfl
@[simp] theorem State.setPreg_done (s : State) (k : PReg) (q : PointReg) : (s.setPreg k q).done = s.done := rfl
@[simp] theorem State.setPreg_result (s : State) (k : PReg) (q : PointReg) : (s.setPreg k q).result = s.result := rfl
@[simp] theorem State.setPreg_err (s : State) (k : PReg) (q : PointReg) : (s.setPreg k q).err = s.err := rfl
@[simp] theorem State.setPreg_att (s : State) (k : PReg) (q : PointReg) : (s.setPreg k q).att = s.att := rfl
@[simp] theorem State.setPreg_host (s : State) (k : PReg) (q : PointReg) : (s.setPreg k q).host = s.host := rfl
@[simp] theorem State.setPreg_rng (s : State) (k : PReg) (q : PointReg) : (s.setPreg k q).rng = s.rng := rfl
@[simp] theorem State.setPreg_resp (s : State) (k : PReg) (q : PointReg) : (s.setPreg k q).resp = s.resp := rfl
@[simp] theorem State.setPreg_fresh (s : State) (k : PReg) (q : PointReg) : (s.setPreg k q).fresh = s.fresh := rfl
@[simp] theorem State.setPreg_tries (s : State) (k : PReg) (q : PointReg) : (s.setPreg k q).tries = s.tries := rfl
@[simp] theorem State.setPoint_r (s : State) (k : PReg) (q : AffinePoint) : (s.setPoint k q).r = s.r := rfl
@[simp] theorem State.setPoint_v (s : State) (k : PReg) (q : AffinePoint) : (s.setPoint k q).v = s.v := rfl
@[simp] theorem State.setPoint_ibuf (s : State) (k : PReg) (q : AffinePoint) : (s.setPoint k q).ibuf = s.ibuf := rfl
@[simp] theorem State.setPoint_obuf (s : State) (k : PReg) (q : AffinePoint) : (s.setPoint k q).obuf = s.obuf := rfl
@[simp] theorem State.setPoint_abuf (s : State) (k : PReg) (q : AffinePoint) : (s.setPoint k q).abuf = s.abuf := rfl
@[simp] theorem State.setPoint_sigbuf (s : State) (k : PReg) (q : AffinePoint) : (s.setPoint k q).sigbuf = s.sigbuf := rfl
@[simp] theorem State.setPoint_ilen (s : State) (k : PReg) (q : AffinePoint) : (s.setPoint k q).ilen = s.ilen := rfl
@[simp] theorem State.setPoint_olen (s : State) (k : PReg) (q : AffinePoint) : (s.setPoint k q).olen = s.olen := rfl
@[simp] theorem State.setPoint_alen (s : State) (k : PReg) (q : AffinePoint) : (s.setPoint k q).alen = s.alen := rfl
@[simp] theorem State.setPoint_siglen (s : State) (k : PReg) (q : AffinePoint) : (s.setPoint k q).siglen = s.siglen := rfl
@[simp] theorem State.setPoint_cfg (s : State) (k : PReg) (q : AffinePoint) : (s.setPoint k q).cfg = s.cfg := rfl
@[simp] theorem State.setPoint_cap (s : State) (k : PReg) (q : AffinePoint) : (s.setPoint k q).cap = s.cap := rfl
@[simp] theorem State.setPoint_inflight (s : State) (k : PReg) (q : AffinePoint) : (s.setPoint k q).inflight = s.inflight :=
    rfl
@[simp] theorem State.setPoint_done (s : State) (k : PReg) (q : AffinePoint) : (s.setPoint k q).done = s.done := rfl
@[simp] theorem State.setPoint_result (s : State) (k : PReg) (q : AffinePoint) : (s.setPoint k q).result = s.result := rfl
@[simp] theorem State.setPoint_err (s : State) (k : PReg) (q : AffinePoint) : (s.setPoint k q).err = s.err := rfl
@[simp] theorem State.setPoint_att (s : State) (k : PReg) (q : AffinePoint) : (s.setPoint k q).att = s.att := rfl
@[simp] theorem State.setPoint_host (s : State) (k : PReg) (q : AffinePoint) : (s.setPoint k q).host = s.host := rfl
@[simp] theorem State.setPoint_rng (s : State) (k : PReg) (q : AffinePoint) : (s.setPoint k q).rng = s.rng := rfl
@[simp] theorem State.setPoint_resp (s : State) (k : PReg) (q : AffinePoint) : (s.setPoint k q).resp = s.resp := rfl
@[simp] theorem State.setPoint_fresh (s : State) (k : PReg) (q : AffinePoint) : (s.setPoint k q).fresh = s.fresh := rfl
@[simp] theorem State.setPoint_tries (s : State) (k : PReg) (q : AffinePoint) : (s.setPoint k q).tries = s.tries := rfl
@[simp] theorem State.respond_r (s : State) (a : Response) : (s.respond a).r = s.r := rfl
@[simp] theorem State.respond_p (s : State) (a : Response) : (s.respond a).p = s.p := rfl
@[simp] theorem State.respond_v (s : State) (a : Response) : (s.respond a).v = s.v := rfl
@[simp] theorem State.respond_ibuf (s : State) (a : Response) : (s.respond a).ibuf = s.ibuf := rfl
@[simp] theorem State.respond_obuf (s : State) (a : Response) : (s.respond a).obuf = s.obuf := rfl
@[simp] theorem State.respond_abuf (s : State) (a : Response) : (s.respond a).abuf = s.abuf := rfl
@[simp] theorem State.respond_sigbuf (s : State) (a : Response) : (s.respond a).sigbuf = s.sigbuf := rfl
@[simp] theorem State.respond_ilen (s : State) (a : Response) : (s.respond a).ilen = s.ilen := rfl
@[simp] theorem State.respond_olen (s : State) (a : Response) : (s.respond a).olen = s.olen := rfl
@[simp] theorem State.respond_alen (s : State) (a : Response) : (s.respond a).alen = s.alen := rfl
@[simp] theorem State.respond_siglen (s : State) (a : Response) : (s.respond a).siglen = s.siglen := rfl
@[simp] theorem State.respond_cfg (s : State) (a : Response) : (s.respond a).cfg = s.cfg := rfl
@[simp] theorem State.respond_cap (s : State) (a : Response) : (s.respond a).cap = s.cap := rfl
@[simp] theorem State.respond_inflight (s : State) (a : Response) : (s.respond a).inflight = s.inflight := rfl
@[simp] theorem State.respond_done (s : State) (a : Response) : (s.respond a).done = s.done := rfl
@[simp] theorem State.respond_result (s : State) (a : Response) : (s.respond a).result = s.result := rfl
@[simp] theorem State.respond_err (s : State) (a : Response) : (s.respond a).err = s.err := rfl
@[simp] theorem State.respond_att (s : State) (a : Response) : (s.respond a).att = s.att := rfl
@[simp] theorem State.respond_host (s : State) (a : Response) : (s.respond a).host = s.host := rfl
@[simp] theorem State.respond_rng (s : State) (a : Response) : (s.respond a).rng = s.rng := rfl
@[simp] theorem State.respond_fresh (s : State) (a : Response) : (s.respond a).fresh = s.fresh := rfl
@[simp] theorem State.respond_tries (s : State) (a : Response) : (s.respond a).tries = s.tries := rfl
@[simp] theorem State.complete_r (s : State) (b : Bool) (n : Nat) (e : Option CmdError) : (s.complete b n e).r = s.r := rfl
@[simp] theorem State.complete_p (s : State) (b : Bool) (n : Nat) (e : Option CmdError) : (s.complete b n e).p = s.p := rfl
@[simp] theorem State.complete_v (s : State) (b : Bool) (n : Nat) (e : Option CmdError) : (s.complete b n e).v = s.v := rfl
@[simp] theorem State.complete_ibuf (s : State) (b : Bool) (n : Nat) (e : Option CmdError) : (s.complete b n e).ibuf = s.ibuf := rfl
@[simp] theorem State.complete_obuf (s : State) (b : Bool) (n : Nat) (e : Option CmdError) : (s.complete b n e).obuf = s.obuf := rfl
@[simp] theorem State.complete_abuf (s : State) (b : Bool) (n : Nat) (e : Option CmdError) : (s.complete b n e).abuf = s.abuf := rfl
@[simp] theorem State.complete_sigbuf (s : State) (b : Bool) (n : Nat) (e : Option CmdError) : (s.complete b n e).sigbuf = s.sigbuf := rfl
@[simp] theorem State.complete_ilen (s : State) (b : Bool) (n : Nat) (e : Option CmdError) : (s.complete b n e).ilen = s.ilen := rfl
@[simp] theorem State.complete_olen (s : State) (b : Bool) (n : Nat) (e : Option CmdError) : (s.complete b n e).olen = s.olen := rfl
@[simp] theorem State.complete_alen (s : State) (b : Bool) (n : Nat) (e : Option CmdError) : (s.complete b n e).alen = s.alen := rfl
@[simp] theorem State.complete_siglen (s : State) (b : Bool) (n : Nat) (e : Option CmdError) : (s.complete b n e).siglen = s.siglen := rfl
@[simp] theorem State.complete_cfg (s : State) (b : Bool) (n : Nat) (e : Option CmdError) : (s.complete b n e).cfg = s.cfg := rfl
@[simp] theorem State.complete_cap (s : State) (b : Bool) (n : Nat) (e : Option CmdError) : (s.complete b n e).cap = s.cap := rfl
@[simp] theorem State.complete_host (s : State) (b : Bool) (n : Nat) (e : Option CmdError) : (s.complete b n e).host = s.host := rfl
@[simp] theorem State.complete_rng (s : State) (b : Bool) (n : Nat) (e : Option CmdError) : (s.complete b n e).rng = s.rng := rfl
@[simp] theorem State.complete_resp (s : State) (b : Bool) (n : Nat) (e : Option CmdError) : (s.complete b n e).resp = s.resp := rfl
@[simp] theorem State.complete_fresh (s : State) (b : Bool) (n : Nat) (e : Option CmdError) : (s.complete b n e).fresh = s.fresh := rfl
@[simp] theorem State.complete_tries (s : State) (b : Bool) (n : Nat) (e : Option CmdError) : (s.complete b n e).tries = 0 := rfl
@[simp] theorem State.awaitDraw_r (s : State) (n : Nat) : (s.awaitDraw n).r = s.r := rfl
@[simp] theorem State.awaitDraw_p (s : State) (n : Nat) : (s.awaitDraw n).p = s.p := rfl
@[simp] theorem State.awaitDraw_v (s : State) (n : Nat) : (s.awaitDraw n).v = s.v := rfl
@[simp] theorem State.awaitDraw_ibuf (s : State) (n : Nat) : (s.awaitDraw n).ibuf = s.ibuf := rfl
@[simp] theorem State.awaitDraw_obuf (s : State) (n : Nat) : (s.awaitDraw n).obuf = s.obuf := rfl
@[simp] theorem State.awaitDraw_abuf (s : State) (n : Nat) : (s.awaitDraw n).abuf = s.abuf := rfl
@[simp] theorem State.awaitDraw_sigbuf (s : State) (n : Nat) : (s.awaitDraw n).sigbuf = s.sigbuf := rfl
@[simp] theorem State.awaitDraw_ilen (s : State) (n : Nat) : (s.awaitDraw n).ilen = s.ilen := rfl
@[simp] theorem State.awaitDraw_olen (s : State) (n : Nat) : (s.awaitDraw n).olen = s.olen := rfl
@[simp] theorem State.awaitDraw_alen (s : State) (n : Nat) : (s.awaitDraw n).alen = s.alen := rfl
@[simp] theorem State.awaitDraw_siglen (s : State) (n : Nat) : (s.awaitDraw n).siglen = s.siglen := rfl
@[simp] theorem State.awaitDraw_cfg (s : State) (n : Nat) : (s.awaitDraw n).cfg = s.cfg := rfl
@[simp] theorem State.awaitDraw_cap (s : State) (n : Nat) : (s.awaitDraw n).cap = s.cap := rfl
@[simp] theorem State.awaitDraw_inflight (s : State) (n : Nat) : (s.awaitDraw n).inflight = s.inflight := rfl
@[simp] theorem State.awaitDraw_done (s : State) (n : Nat) : (s.awaitDraw n).done = s.done := rfl
@[simp] theorem State.awaitDraw_result (s : State) (n : Nat) : (s.awaitDraw n).result = s.result := rfl
@[simp] theorem State.awaitDraw_err (s : State) (n : Nat) : (s.awaitDraw n).err = s.err := rfl
@[simp] theorem State.awaitDraw_att (s : State) (n : Nat) : (s.awaitDraw n).att = s.att := rfl
@[simp] theorem State.awaitDraw_host (s : State) (n : Nat) : (s.awaitDraw n).host = s.host := rfl
@[simp] theorem State.awaitDraw_resp (s : State) (n : Nat) : (s.awaitDraw n).resp = s.resp := rfl
@[simp] theorem State.awaitDraw_fresh (s : State) (n : Nat) : (s.awaitDraw n).fresh = s.fresh := rfl
@[simp] theorem State.awaitDraw_rng (s : State) (n : Nat) : (s.awaitDraw n).rng = [] := rfl
@[simp] theorem State.awaitDraw_tries (s : State) (n : Nat) : (s.awaitDraw n).tries = n := rfl
@[simp] theorem State.mem_awaitDraw (s : State) (n : Nat) (b : Buf) : (s.awaitDraw n).mem b = s.mem b := by cases b <;> rfl
@[simp] theorem State.len_awaitDraw (s : State) (n : Nat) (b : Buf) : (s.awaitDraw n).len b = s.len b := by cases b <;> rfl
@[simp] theorem State.setMem_r (s : State) (b : Buf) (m : Memory) : (s.setMem b m).r = s.r := by cases b <;> rfl
@[simp] theorem State.setMem_p (s : State) (b : Buf) (m : Memory) : (s.setMem b m).p = s.p := by cases b <;> rfl
@[simp] theorem State.setMem_v (s : State) (b : Buf) (m : Memory) : (s.setMem b m).v = s.v := by cases b <;> rfl
@[simp] theorem State.setMem_ilen (s : State) (b : Buf) (m : Memory) : (s.setMem b m).ilen = s.ilen := by cases b <;> rfl
@[simp] theorem State.setMem_olen (s : State) (b : Buf) (m : Memory) : (s.setMem b m).olen = s.olen := by cases b <;> rfl
@[simp] theorem State.setMem_alen (s : State) (b : Buf) (m : Memory) : (s.setMem b m).alen = s.alen := by cases b <;> rfl
@[simp] theorem State.setMem_siglen (s : State) (b : Buf) (m : Memory) : (s.setMem b m).siglen = s.siglen :=
    by cases b <;> rfl
@[simp] theorem State.setMem_cfg (s : State) (b : Buf) (m : Memory) : (s.setMem b m).cfg = s.cfg := by cases b <;> rfl
@[simp] theorem State.setMem_cap (s : State) (b : Buf) (m : Memory) : (s.setMem b m).cap = s.cap := by cases b <;> rfl
@[simp] theorem State.setMem_inflight (s : State) (b : Buf) (m : Memory) : (s.setMem b m).inflight = s.inflight :=
    by cases b <;> rfl
@[simp] theorem State.setMem_done (s : State) (b : Buf) (m : Memory) : (s.setMem b m).done = s.done := by cases b <;> rfl
@[simp] theorem State.setMem_result (s : State) (b : Buf) (m : Memory) : (s.setMem b m).result = s.result :=
    by cases b <;> rfl
@[simp] theorem State.setMem_err (s : State) (b : Buf) (m : Memory) : (s.setMem b m).err = s.err := by cases b <;> rfl
@[simp] theorem State.setMem_att (s : State) (b : Buf) (m : Memory) : (s.setMem b m).att = s.att := by cases b <;> rfl
@[simp] theorem State.setMem_host (s : State) (b : Buf) (m : Memory) : (s.setMem b m).host = s.host := by cases b <;> rfl
@[simp] theorem State.setMem_rng (s : State) (b : Buf) (m : Memory) : (s.setMem b m).rng = s.rng := by cases b <;> rfl
@[simp] theorem State.setMem_resp (s : State) (b : Buf) (m : Memory) : (s.setMem b m).resp = s.resp := by cases b <;> rfl
@[simp] theorem State.setMem_fresh (s : State) (b : Buf) (m : Memory) : (s.setMem b m).fresh = s.fresh := by cases b <;> rfl
@[simp] theorem State.setMem_tries (s : State) (b : Buf) (m : Memory) : (s.setMem b m).tries = s.tries := by cases b <;> rfl
@[simp] theorem State.setLen_r (s : State) (b : Buf) (w : Word) : (s.setLen b w).r = s.r := by cases b <;> rfl
@[simp] theorem State.setLen_p (s : State) (b : Buf) (w : Word) : (s.setLen b w).p = s.p := by cases b <;> rfl
@[simp] theorem State.setLen_v (s : State) (b : Buf) (w : Word) : (s.setLen b w).v = s.v := by cases b <;> rfl
@[simp] theorem State.setLen_ibuf (s : State) (b : Buf) (w : Word) : (s.setLen b w).ibuf = s.ibuf := by cases b <;> rfl
@[simp] theorem State.setLen_obuf (s : State) (b : Buf) (w : Word) : (s.setLen b w).obuf = s.obuf := by cases b <;> rfl
@[simp] theorem State.setLen_abuf (s : State) (b : Buf) (w : Word) : (s.setLen b w).abuf = s.abuf := by cases b <;> rfl
@[simp] theorem State.setLen_sigbuf (s : State) (b : Buf) (w : Word) : (s.setLen b w).sigbuf = s.sigbuf := by cases b <;> rfl
@[simp] theorem State.setLen_cfg (s : State) (b : Buf) (w : Word) : (s.setLen b w).cfg = s.cfg := by cases b <;> rfl
@[simp] theorem State.setLen_cap (s : State) (b : Buf) (w : Word) : (s.setLen b w).cap = s.cap := by cases b <;> rfl
@[simp] theorem State.setLen_inflight (s : State) (b : Buf) (w : Word) : (s.setLen b w).inflight = s.inflight :=
    by cases b <;> rfl
@[simp] theorem State.setLen_done (s : State) (b : Buf) (w : Word) : (s.setLen b w).done = s.done := by cases b <;> rfl
@[simp] theorem State.setLen_result (s : State) (b : Buf) (w : Word) : (s.setLen b w).result = s.result := by cases b <;> rfl
@[simp] theorem State.setLen_err (s : State) (b : Buf) (w : Word) : (s.setLen b w).err = s.err := by cases b <;> rfl
@[simp] theorem State.setLen_att (s : State) (b : Buf) (w : Word) : (s.setLen b w).att = s.att := by cases b <;> rfl
@[simp] theorem State.setLen_host (s : State) (b : Buf) (w : Word) : (s.setLen b w).host = s.host := by cases b <;> rfl
@[simp] theorem State.setLen_rng (s : State) (b : Buf) (w : Word) : (s.setLen b w).rng = s.rng := by cases b <;> rfl
@[simp] theorem State.setLen_resp (s : State) (b : Buf) (w : Word) : (s.setLen b w).resp = s.resp := by cases b <;> rfl
@[simp] theorem State.setLen_fresh (s : State) (b : Buf) (w : Word) : (s.setLen b w).fresh = s.fresh := by cases b <;> rfl
@[simp] theorem State.setLen_tries (s : State) (b : Buf) (w : Word) : (s.setLen b w).tries = s.tries := by cases b <;> rfl
@[simp] theorem State.emptied_r (s : State) (b : Buf) : (s.emptied b).r = s.r := by cases b <;> rfl
@[simp] theorem State.emptied_p (s : State) (b : Buf) : (s.emptied b).p = s.p := by cases b <;> rfl
@[simp] theorem State.emptied_v (s : State) (b : Buf) : (s.emptied b).v = s.v := by cases b <;> rfl
@[simp] theorem State.emptied_ibuf (s : State) (b : Buf) : (s.emptied b).ibuf = s.ibuf := by cases b <;> rfl
@[simp] theorem State.emptied_obuf (s : State) (b : Buf) : (s.emptied b).obuf = s.obuf := by cases b <;> rfl
@[simp] theorem State.emptied_abuf (s : State) (b : Buf) : (s.emptied b).abuf = s.abuf := by cases b <;> rfl
@[simp] theorem State.emptied_sigbuf (s : State) (b : Buf) : (s.emptied b).sigbuf = s.sigbuf := by cases b <;> rfl
@[simp] theorem State.emptied_cfg (s : State) (b : Buf) : (s.emptied b).cfg = s.cfg := by cases b <;> rfl
@[simp] theorem State.emptied_cap (s : State) (b : Buf) : (s.emptied b).cap = s.cap := by cases b <;> rfl
@[simp] theorem State.emptied_inflight (s : State) (b : Buf) : (s.emptied b).inflight = s.inflight := by cases b <;> rfl
@[simp] theorem State.emptied_done (s : State) (b : Buf) : (s.emptied b).done = s.done := by cases b <;> rfl
@[simp] theorem State.emptied_result (s : State) (b : Buf) : (s.emptied b).result = s.result := by cases b <;> rfl
@[simp] theorem State.emptied_err (s : State) (b : Buf) : (s.emptied b).err = s.err := by cases b <;> rfl
@[simp] theorem State.emptied_att (s : State) (b : Buf) : (s.emptied b).att = s.att := by cases b <;> rfl
@[simp] theorem State.emptied_host (s : State) (b : Buf) : (s.emptied b).host = s.host := by cases b <;> rfl
@[simp] theorem State.emptied_rng (s : State) (b : Buf) : (s.emptied b).rng = s.rng := by cases b <;> rfl
@[simp] theorem State.emptied_resp (s : State) (b : Buf) : (s.emptied b).resp = s.resp := by cases b <;> rfl
@[simp] theorem State.emptied_fresh (s : State) (b : Buf) : (s.emptied b).fresh = s.fresh := by cases b <;> rfl
@[simp] theorem State.emptied_tries (s : State) (b : Buf) : (s.emptied b).tries = s.tries := by cases b <;> rfl
@[simp] theorem State.setMem_ibuf_ibuf (s : State) (m : Memory) : (s.setMem .ibuf m).ibuf = m := rfl
@[simp] theorem State.setMem_ibuf_obuf (s : State) (m : Memory) : (s.setMem .ibuf m).obuf = s.obuf := rfl
@[simp] theorem State.setMem_ibuf_abuf (s : State) (m : Memory) : (s.setMem .ibuf m).abuf = s.abuf := rfl
@[simp] theorem State.setMem_ibuf_sigbuf (s : State) (m : Memory) : (s.setMem .ibuf m).sigbuf = s.sigbuf := rfl
@[simp] theorem State.setMem_obuf_ibuf (s : State) (m : Memory) : (s.setMem .obuf m).ibuf = s.ibuf := rfl
@[simp] theorem State.setMem_obuf_obuf (s : State) (m : Memory) : (s.setMem .obuf m).obuf = m := rfl
@[simp] theorem State.setMem_obuf_abuf (s : State) (m : Memory) : (s.setMem .obuf m).abuf = s.abuf := rfl
@[simp] theorem State.setMem_obuf_sigbuf (s : State) (m : Memory) : (s.setMem .obuf m).sigbuf = s.sigbuf := rfl
@[simp] theorem State.setMem_abuf_ibuf (s : State) (m : Memory) : (s.setMem .abuf m).ibuf = s.ibuf := rfl
@[simp] theorem State.setMem_abuf_obuf (s : State) (m : Memory) : (s.setMem .abuf m).obuf = s.obuf := rfl
@[simp] theorem State.setMem_abuf_abuf (s : State) (m : Memory) : (s.setMem .abuf m).abuf = m := rfl
@[simp] theorem State.setMem_abuf_sigbuf (s : State) (m : Memory) : (s.setMem .abuf m).sigbuf = s.sigbuf := rfl
@[simp] theorem State.setMem_sigbuf_ibuf (s : State) (m : Memory) : (s.setMem .sigbuf m).ibuf = s.ibuf := rfl
@[simp] theorem State.setMem_sigbuf_obuf (s : State) (m : Memory) : (s.setMem .sigbuf m).obuf = s.obuf := rfl
@[simp] theorem State.setMem_sigbuf_abuf (s : State) (m : Memory) : (s.setMem .sigbuf m).abuf = s.abuf := rfl
@[simp] theorem State.setMem_sigbuf_sigbuf (s : State) (m : Memory) : (s.setMem .sigbuf m).sigbuf = m := rfl
@[simp] theorem State.setLen_ibuf_ilen (s : State) (w : Word) : (s.setLen .ibuf w).ilen = w := rfl
@[simp] theorem State.emptied_ibuf_ilen (s : State) : (s.emptied .ibuf).ilen = 0 := rfl
@[simp] theorem State.setLen_ibuf_olen (s : State) (w : Word) : (s.setLen .ibuf w).olen = s.olen := rfl
@[simp] theorem State.emptied_ibuf_olen (s : State) : (s.emptied .ibuf).olen = s.olen := rfl
@[simp] theorem State.setLen_ibuf_alen (s : State) (w : Word) : (s.setLen .ibuf w).alen = s.alen := rfl
@[simp] theorem State.emptied_ibuf_alen (s : State) : (s.emptied .ibuf).alen = s.alen := rfl
@[simp] theorem State.setLen_ibuf_siglen (s : State) (w : Word) : (s.setLen .ibuf w).siglen = s.siglen := rfl
@[simp] theorem State.emptied_ibuf_siglen (s : State) : (s.emptied .ibuf).siglen = s.siglen := rfl
@[simp] theorem State.setLen_obuf_ilen (s : State) (w : Word) : (s.setLen .obuf w).ilen = s.ilen := rfl
@[simp] theorem State.emptied_obuf_ilen (s : State) : (s.emptied .obuf).ilen = s.ilen := rfl
@[simp] theorem State.setLen_obuf_olen (s : State) (w : Word) : (s.setLen .obuf w).olen = w := rfl
@[simp] theorem State.emptied_obuf_olen (s : State) : (s.emptied .obuf).olen = 0 := rfl
@[simp] theorem State.setLen_obuf_alen (s : State) (w : Word) : (s.setLen .obuf w).alen = s.alen := rfl
@[simp] theorem State.emptied_obuf_alen (s : State) : (s.emptied .obuf).alen = s.alen := rfl
@[simp] theorem State.setLen_obuf_siglen (s : State) (w : Word) : (s.setLen .obuf w).siglen = s.siglen := rfl
@[simp] theorem State.emptied_obuf_siglen (s : State) : (s.emptied .obuf).siglen = s.siglen := rfl
@[simp] theorem State.setLen_abuf_ilen (s : State) (w : Word) : (s.setLen .abuf w).ilen = s.ilen := rfl
@[simp] theorem State.emptied_abuf_ilen (s : State) : (s.emptied .abuf).ilen = s.ilen := rfl
@[simp] theorem State.setLen_abuf_olen (s : State) (w : Word) : (s.setLen .abuf w).olen = s.olen := rfl
@[simp] theorem State.emptied_abuf_olen (s : State) : (s.emptied .abuf).olen = s.olen := rfl
@[simp] theorem State.setLen_abuf_alen (s : State) (w : Word) : (s.setLen .abuf w).alen = w := rfl
@[simp] theorem State.emptied_abuf_alen (s : State) : (s.emptied .abuf).alen = 0 := rfl
@[simp] theorem State.setLen_abuf_siglen (s : State) (w : Word) : (s.setLen .abuf w).siglen = s.siglen := rfl
@[simp] theorem State.emptied_abuf_siglen (s : State) : (s.emptied .abuf).siglen = s.siglen := rfl
@[simp] theorem State.setLen_sigbuf_ilen (s : State) (w : Word) : (s.setLen .sigbuf w).ilen = s.ilen := rfl
@[simp] theorem State.emptied_sigbuf_ilen (s : State) : (s.emptied .sigbuf).ilen = s.ilen := rfl
@[simp] theorem State.setLen_sigbuf_olen (s : State) (w : Word) : (s.setLen .sigbuf w).olen = s.olen := rfl
@[simp] theorem State.emptied_sigbuf_olen (s : State) : (s.emptied .sigbuf).olen = s.olen := rfl
@[simp] theorem State.setLen_sigbuf_alen (s : State) (w : Word) : (s.setLen .sigbuf w).alen = s.alen := rfl
@[simp] theorem State.emptied_sigbuf_alen (s : State) : (s.emptied .sigbuf).alen = s.alen := rfl
@[simp] theorem State.setLen_sigbuf_siglen (s : State) (w : Word) : (s.setLen .sigbuf w).siglen = w := rfl
@[simp] theorem State.emptied_sigbuf_siglen (s : State) : (s.emptied .sigbuf).siglen = 0 := rfl
@[simp] theorem State.put_r (s : State) (b : Buf) (x : Bytes) : (s.put b x).r = s.r := by cases b <;> rfl
@[simp] theorem State.put_p (s : State) (b : Buf) (x : Bytes) : (s.put b x).p = s.p := by cases b <;> rfl
@[simp] theorem State.put_v (s : State) (b : Buf) (x : Bytes) : (s.put b x).v = s.v := by cases b <;> rfl
@[simp] theorem State.put_cfg (s : State) (b : Buf) (x : Bytes) : (s.put b x).cfg = s.cfg := by cases b <;> rfl
@[simp] theorem State.put_cap (s : State) (b : Buf) (x : Bytes) : (s.put b x).cap = s.cap := by cases b <;> rfl
@[simp] theorem State.put_inflight (s : State) (b : Buf) (x : Bytes) : (s.put b x).inflight = s.inflight :=
    by cases b <;> rfl
@[simp] theorem State.put_done (s : State) (b : Buf) (x : Bytes) : (s.put b x).done = s.done := by cases b <;> rfl
@[simp] theorem State.put_result (s : State) (b : Buf) (x : Bytes) : (s.put b x).result = s.result := by cases b <;> rfl
@[simp] theorem State.put_err (s : State) (b : Buf) (x : Bytes) : (s.put b x).err = s.err := by cases b <;> rfl
@[simp] theorem State.put_att (s : State) (b : Buf) (x : Bytes) : (s.put b x).att = s.att := by cases b <;> rfl
@[simp] theorem State.put_host (s : State) (b : Buf) (x : Bytes) : (s.put b x).host = s.host := by cases b <;> rfl
@[simp] theorem State.put_rng (s : State) (b : Buf) (x : Bytes) : (s.put b x).rng = s.rng := by cases b <;> rfl
@[simp] theorem State.put_resp (s : State) (b : Buf) (x : Bytes) : (s.put b x).resp = s.resp := by cases b <;> rfl
@[simp] theorem State.put_fresh (s : State) (b : Buf) (x : Bytes) : (s.put b x).fresh = s.fresh := by cases b <;> rfl
@[simp] theorem State.put_tries (s : State) (b : Buf) (x : Bytes) : (s.put b x).tries = s.tries := by cases b <;> rfl

@[simp] theorem State.complete_inflight (s : State) (b : Bool) (n : Nat) (e : Option CmdError) :
    (s.complete b n e).inflight = none := rfl
@[simp] theorem State.complete_done (s : State) (b : Bool) (n : Nat) (e : Option CmdError) :
    (s.complete b n e).done = true := rfl
@[simp] theorem State.complete_result (s : State) (b : Bool) (n : Nat) (e : Option CmdError) :
    (s.complete b n e).result = b := rfl
@[simp] theorem State.complete_err (s : State) (b : Bool) (n : Nat) (e : Option CmdError) :
    (s.complete b n e).err = e := rfl
@[simp] theorem State.complete_att (s : State) (b : Bool) (n : Nat) (e : Option CmdError) :
    (s.complete b n e).att = BitVec.ofNat 8 n := rfl
@[simp] theorem State.respond_resp (s : State) (a : Response) : (s.respond a).resp = a := rfl

/-- `r[k]` after `r[j] <- x`. -/
@[simp] theorem State.reg_setReg (s : State) (j k : Reg) (x : Big) :
    (s.setReg j x).reg k = if j = k then x else s.reg k := by
  simp only [State.reg, State.setReg, Fin.getElem_fin, Vector.getElem_set, Fin.ext_iff]

/-- The fields of point register `k` after a write of point register `j`. -/
@[simp] theorem State.preg_setPreg (s : State) (j k : PReg) (q : PointReg) :
    (s.setPreg j q).preg k = if j = k then q else s.preg k := by
  simp only [State.preg, State.setPreg, Fin.getElem_fin, Vector.getElem_set, Fin.ext_iff]

@[simp] theorem State.reg_setRegNat (s : State) (j k : Reg) (x : Nat) :
    (s.setRegNat j x).reg k = if j = k then BitVec.ofNat 256 x else s.reg k := State.reg_setReg s j k _

@[simp] theorem State.preg_setPoint (s : State) (j k : PReg) (q : AffinePoint) :
    (s.setPoint j q).preg k = if j = k then q.toReg else s.preg k := State.preg_setPreg s j k _

@[simp] theorem State.preg_setReg (s : State) (j : Reg) (k : PReg) (x : Big) : (s.setReg j x).preg k = s.preg k := rfl
@[simp] theorem State.preg_setRegNat (s : State) (j : Reg) (k : PReg) (x : Nat) :
    (s.setRegNat j x).preg k = s.preg k := rfl
@[simp] theorem State.reg_setPreg (s : State) (j : PReg) (k : Reg) (q : PointReg) : (s.setPreg j q).reg k = s.reg k := rfl
@[simp] theorem State.reg_setPoint (s : State) (j : PReg) (k : Reg) (q : AffinePoint) :
    (s.setPoint j q).reg k = s.reg k := rfl
@[simp] theorem State.reg_complete (s : State) (b : Bool) (n : Nat) (e : Option CmdError) (k : Reg) :
    (s.complete b n e).reg k = s.reg k := rfl
@[simp] theorem State.preg_complete (s : State) (b : Bool) (n : Nat) (e : Option CmdError) (k : PReg) :
    (s.complete b n e).preg k = s.preg k := rfl

/-- The content of buffer `c` after buffer `b` was replaced. -/
@[simp] theorem State.mem_setMem (s : State) (b c : Buf) (m : Memory) :
    (s.setMem b m).mem c = if b = c then m else s.mem c := by cases b <;> cases c <;> rfl

/-- The length of buffer `c` after that of buffer `b` was replaced. -/
@[simp] theorem State.len_setLen (s : State) (b c : Buf) (w : Word) :
    (s.setLen b w).len c = if b = c then w else s.len c := by cases b <;> cases c <;> rfl

@[simp] theorem State.mem_setLen (s : State) (b c : Buf) (w : Word) : (s.setLen b w).mem c = s.mem c := by
  cases b <;> cases c <;> rfl
@[simp] theorem State.len_setMem (s : State) (b c : Buf) (m : Memory) : (s.setMem b m).len c = s.len c := by
  cases b <;> cases c <;> rfl
/-- The content of buffer `c` after a command put a string in buffer `b`. -/
@[simp] theorem State.mem_put (s : State) (b c : Buf) (x : Bytes) :
    (s.put b x).mem c = if b = c then (s.mem b).writeBytes 0 x else s.mem c := by cases b <;> cases c <;> rfl

/-- The length of buffer `c` after a command put a string in buffer `b`. -/
@[simp] theorem State.len_put (s : State) (b c : Buf) (x : Bytes) :
    (s.put b x).len c = if b = c then BitVec.ofNat 32 x.length else s.len c := by cases b <;> cases c <;> rfl

@[simp] theorem State.mem_emptied (s : State) (b c : Buf) : (s.emptied b).mem c = s.mem c := State.mem_setLen s b c 0
@[simp] theorem State.len_emptied (s : State) (b c : Buf) :
    (s.emptied b).len c = if b = c then 0 else s.len c := State.len_setLen s b c 0
@[simp] theorem State.mem_setReg (s : State) (k : Reg) (x : Big) (c : Buf) : (s.setReg k x).mem c = s.mem c := by
  cases c <;> rfl
@[simp] theorem State.len_setReg (s : State) (k : Reg) (x : Big) (c : Buf) : (s.setReg k x).len c = s.len c := by
  cases c <;> rfl
@[simp] theorem State.mem_setRegNat (s : State) (k : Reg) (x : Nat) (c : Buf) : (s.setRegNat k x).mem c = s.mem c := by
  cases c <;> rfl
@[simp] theorem State.len_setRegNat (s : State) (k : Reg) (x : Nat) (c : Buf) : (s.setRegNat k x).len c = s.len c := by
  cases c <;> rfl
@[simp] theorem State.mem_setPreg (s : State) (k : PReg) (q : PointReg) (c : Buf) : (s.setPreg k q).mem c = s.mem c := by
  cases c <;> rfl
@[simp] theorem State.len_setPreg (s : State) (k : PReg) (q : PointReg) (c : Buf) : (s.setPreg k q).len c = s.len c := by
  cases c <;> rfl
@[simp] theorem State.mem_setPoint (s : State) (k : PReg) (q : AffinePoint) (c : Buf) :
    (s.setPoint k q).mem c = s.mem c := by cases c <;> rfl
@[simp] theorem State.len_setPoint (s : State) (k : PReg) (q : AffinePoint) (c : Buf) :
    (s.setPoint k q).len c = s.len c := by cases c <;> rfl
@[simp] theorem State.mem_complete (s : State) (b : Bool) (n : Nat) (e : Option CmdError) (c : Buf) :
    (s.complete b n e).mem c = s.mem c := by cases c <;> rfl
@[simp] theorem State.len_complete (s : State) (b : Bool) (n : Nat) (e : Option CmdError) (c : Buf) :
    (s.complete b n e).len c = s.len c := by cases c <;> rfl
@[simp] theorem State.mem_respond (s : State) (a : Response) (c : Buf) : (s.respond a).mem c = s.mem c := by
  cases c <;> rfl
@[simp] theorem State.len_respond (s : State) (a : Response) (c : Buf) : (s.respond a).len c = s.len c := by
  cases c <;> rfl
@[simp] theorem State.busy_complete (s : State) (b : Bool) (n : Nat) (e : Option CmdError) :
    (s.complete b n e).busy = false := rfl
@[simp] theorem State.busy_respond (s : State) (a : Response) : (s.respond a).busy = s.busy := rfl

end Sys2Proof.Machine
end

