-- ==== Sys2Proof/Laws/Field.lean ====
section
/-!
SUPPORT. Laws of the field functions (41_field.md): every result is below the modulus and congruent to what the rule asks;
`modInv` is the inverse; the Montgomery product times 2^256 is the product.
-/
namespace Sys2Proof.Machine

theorem modulus_pos (m : Modulus) : 0 < modulus m := (modulus_prime m).pos

theorem curveP_pos : 0 < curveP := curveP_prime.pos

theorem curveN_pos : 0 < curveN := curveN_prime.pos

/-- Both moduli are below 2^256 (R121). -/
theorem modulus_lt (m : Modulus) : modulus m < 2 ^ 256 := by cases m <;> decide +kernel

theorem modAdd_lt (m a b : Nat) (h : 0 < m) : modAdd m a b < m := Nat.mod_lt _ h

theorem modSub_lt (m a b : Nat) (h : 0 < m) : modSub m a b < m := imod_lt _ _ h

theorem modMul_lt (m a b : Nat) (h : 0 < m) : modMul m a b < m := Nat.mod_lt _ h

theorem montMul_lt (m a b : Nat) (h : 0 < m) : montMul m a b < m := Nat.mod_lt _ h

theorem modInv_lt (m x : Nat) (h : 0 < m) : modInv m x < m := modPow_lt m _ _ h

/-- The difference, added back (R124). -/
theorem modSub_add_modEq (m a b : Nat) (h : 0 < m) : modSub m a b + b ≡ a [MOD m] := by
  have h1 := imod_modEq ((a : Int) - b) m h
  have h2 := Int.ModEq.add_right (b : Int) h1
  rw [sub_add_cancel] at h2
  exact (Int.natCast_modEq_iff).1 (by push_cast; exact h2)

/-- In the ring of integers modulo a prime, `modInv` is the inverse (R126). -/
theorem modInv_zmod (m x : Nat) (hm : m.Prime) (hx : (x : ZMod m) ≠ 0) : ((modInv m x : Nat) : ZMod m) = (x : ZMod m)⁻¹ := by
  have := Fact.mk hm
  unfold modInv
  rw [modPow_zmod m _ _ hm.pos]
  have h1 : ((x % m : Nat) : ZMod m) = (x : ZMod m) := by simp
  rw [h1]
  apply eq_inv_of_mul_eq_one_left
  have h2 := ZMod.pow_card_sub_one_eq_one hx
  have h3 : m - 1 = (m - 2) + 1 := by have := hm.two_le; omega
  rw [h3, pow_succ] at h2
  exact h2

/-- A number is 0 modulo `m` exactly when its residue is 0. -/
theorem natCast_zmod_ne_zero (m x : Nat) : ((x : Nat) : ZMod m) ≠ 0 ↔ x % m ≠ 0 := by
  rw [Ne, ZMod.natCast_eq_zero_iff, Nat.dvd_iff_mod_eq_zero]

/-- `x · x^-1 mod M = 1` (R126). -/
theorem mul_modInv (m x : Nat) (hm : m.Prime) (hx : x % m ≠ 0) : x * modInv m x % m = 1 := by
  have := Fact.mk hm
  have hx' := (natCast_zmod_ne_zero m x).2 hx
  have h1 : ((x * modInv m x : Nat) : ZMod m) = ((1 : Nat) : ZMod m) := by
    rw [Nat.cast_mul, modInv_zmod m x hm hx', mul_inv_cancel₀ hx', Nat.cast_one]
  have h2 := (ZMod.natCast_eq_natCast_iff' _ _ _).1 h1
  rwa [Nat.mod_eq_of_lt hm.one_lt] at h2

theorem modInv_pos (m x : Nat) (hm : m.Prime) (hx : x % m ≠ 0) : 0 < modInv m x := by
  rcases Nat.eq_zero_or_pos (modInv m x) with h | h
  · have := mul_modInv m x hm hx
    simp [h] at this
  · exact h

/-- 2^256 is invertible modulo either modulus (R128). -/
theorem two_pow_256_mod (m : Modulus) : 2 ^ 256 % modulus m ≠ 0 := by cases m <;> decide +kernel

/-- The Montgomery product times the radix is the product (R128). -/
theorem montMul_mul_radix (m : Modulus) (a b : Nat) : montMul (modulus m) a b * 2 ^ 256 ≡ a * b [MOD modulus m] := by
  have h1 : montRinv (modulus m) * 2 ^ 256 ≡ 1 [MOD modulus m] := by
    have h := mul_modInv (modulus m) (2 ^ 256 % modulus m) (modulus_prime m)
      (by rw [Nat.mod_mod]; exact two_pow_256_mod m)
    have h2 : 2 ^ 256 % modulus m * montRinv (modulus m) ≡ 1 [MOD modulus m] := by
      unfold Nat.ModEq montRinv
      rw [h, Nat.mod_eq_of_lt (modulus_prime m).one_lt]
    have h3 : 2 ^ 256 * montRinv (modulus m) ≡ 2 ^ 256 % modulus m * montRinv (modulus m) [MOD modulus m] :=
      ((Nat.mod_modEq _ _).mul_right _).symm
    rw [Nat.mul_comm]
    exact h3.trans h2
  have h4 : montMul (modulus m) a b ≡ a * b * montRinv (modulus m) [MOD modulus m] := Nat.mod_modEq _ _
  have h5 := h4.mul_right (2 ^ 256)
  rw [Nat.mul_assoc (a * b)] at h5
  have h6 := h1.mul_left (a * b)
  rw [Nat.mul_one] at h6
  exact h5.trans h6

/-- Every constant of the ROM fits a register (R121). -/
theorem rom_lt (c : Const) : rom c < 2 ^ 256 := by cases c <;> decide +kernel

@[simp] theorem State.regNat_lt (s : State) (k : Reg) : s.regNat k < 2 ^ 256 := (s.reg k).isLt

/-- A register reads back the number written to it. -/
theorem State.regNat_setRegNat (s : State) (k : Reg) (v : Nat) (h : v < 2 ^ 256) : (s.setRegNat k v).regNat k = v := by
  simp only [State.regNat, State.reg_setRegNat, if_true, BitVec.toNat_ofNat]
  exact Nat.mod_eq_of_lt h

end Sys2Proof.Machine
end

