-- ==== Sys2Proof/Laws/Curve.lean ====
section
/-!
SUPPORT. The point functions of 42_point.md are the group operations of the curve: a point as the model holds it stands
for a point of Mathlib's Weierstrass curve over the field, and doubling, adding and double-and-add keep that.
-/

namespace Sys2Proof.Machine
open WeierstrassCurve.Affine

/-- The prime field of R120. -/
abbrev Fp := ZMod curveP

/-- The curve of R140 as a Weierstrass curve over the field. -/
def curve : WeierstrassCurve.Affine Fp where
  a₁ := 0
  a₂ := 0
  a₃ := 0
  a₄ := (curveA : Fp)
  a₆ := (curveB : Fp)

theorem curve_a₁ : curve.a₁ = 0 := rfl
theorem curve_a₂ : curve.a₂ = 0 := rfl
theorem curve_a₃ : curve.a₃ = 0 := rfl
theorem curve_a₄ : curve.a₄ = (curveA : Fp) := rfl
theorem curve_a₆ : curve.a₆ = (curveB : Fp) := rfl

/-- The curve is not singular. -/
theorem curve_Δ : curve.Δ ≠ 0 := by
  have h : curve.Δ = -((16 * (4 * curveA ^ 3 + 27 * curveB ^ 2) : Nat) : Fp) := by
    simp only [WeierstrassCurve.Δ, WeierstrassCurve.b₂, WeierstrassCurve.b₄, WeierstrassCurve.b₆, WeierstrassCurve.b₈,
      curve_a₁, curve_a₂, curve_a₃, curve_a₄, curve_a₆]
    push_cast
    ring
  rw [h, neg_ne_zero, natCast_zmod_ne_zero]
  decide +kernel

/-- The equation of R140 in the field. -/
theorem curve_equation (x y : Fp) : curve.Equation x y ↔ y * y = x * x * x + (curveA : Fp) * x + (curveB : Fp) := by
  rw [equation_iff]
  simp only [curve_a₁, curve_a₂, curve_a₃, curve_a₄, curve_a₆, zero_mul, add_zero, pow_succ, pow_zero, one_mul]

/-- The model's test of the equation. -/
theorem onCurve_iff (x y : Nat) : onCurve x y = true ↔ curve.Equation (x : Fp) (y : Fp) := by
  rw [curve_equation]
  unfold onCurve
  rw [decide_eq_true_eq]
  rw [← ZMod.natCast_eq_natCast_iff']
  push_cast
  rfl

/-- Every solution of the equation is a point. -/
theorem curve_nonsingular (x y : Fp) : curve.Nonsingular x y ↔ curve.Equation x y :=
  (equation_iff_nonsingular_of_Δ_ne_zero curve_Δ).symm

/-- A register value stands for a point of the curve. -/
inductive Rep : AffinePoint → curve.Point → Prop
  | inf : Rep .inf 0
  | aff (x y : Nat) (hx : x < curveP) (hy : y < curveP) (h : curve.Nonsingular (x : Fp) (y : Fp)) :
      Rep (.aff x y) (.some (x : Fp) (y : Fp) h)

theorem ptDouble_aff (x y : Nat) : ptDouble (.aff x y) =
    if y = 0 then .inf else chord ((3 * x * x + curveA) * modInv curveP (2 * y) % curveP) x y x := rfl

theorem ptAdd_aff (x1 y1 x2 y2 : Nat) : ptAdd (.aff x1 y1) (.aff x2 y2) =
    if x1 = x2 then (if y1 = y2 ∧ y1 ≠ 0 then ptDouble (.aff x1 y1) else .inf)
    else chord (imod (((y2 : Int) - y1) * (modInv curveP (imod ((x2 : Int) - x1) curveP) : Int)) curveP) x1 y1 x2 := rfl

@[simp] theorem ptAdd_inf_left (q : AffinePoint) : ptAdd .inf q = q := by cases q <;> rfl

@[simp] theorem ptAdd_inf_right (q : AffinePoint) : ptAdd q .inf = q := by cases q <;> rfl

@[simp] theorem ptDouble_inf : ptDouble .inf = .inf := rfl

/-- Numbers below `p` are determined by their residue. -/
theorem natCast_inj_of_lt {x y : Nat} (hx : x < curveP) (hy : y < curveP) (h : (x : Fp) = (y : Fp)) : x = y := by
  have h1 := (ZMod.natCast_eq_natCast_iff' _ _ _).1 h
  rwa [Nat.mod_eq_of_lt hx, Nat.mod_eq_of_lt hy] at h1

theorem natCast_ne_zero_of_lt {x : Nat} (hx : x < curveP) (h : x ≠ 0) : (x : Fp) ≠ 0 := by
  rw [natCast_zmod_ne_zero, Nat.mod_eq_of_lt hx]
  exact h

/-- A register value stands for at most one point. -/
theorem Rep.unique_point {q : AffinePoint} {P P' : curve.Point} (h : Rep q P) (h' : Rep q P') : P = P' := by
  cases h <;> cases h' <;> rfl

/-- A point is stood for by at most one register value. -/
theorem Rep.unique {q q' : AffinePoint} {P : curve.Point} (h : Rep q P) (h' : Rep q' P) : q = q' := by
  generalize hP : P = P' at h'
  cases h with
  | inf =>
    cases h' with
    | inf => rfl
    | aff x y hx hy hn => exact absurd hP (Point.some_ne_zero hn).symm
  | aff x y hx hy hn =>
    cases h' with
    | inf => exact absurd hP (Point.some_ne_zero hn)
    | aff x' y' hx' hy' hn' =>
      injection hP with h1 h2
      rw [natCast_inj_of_lt hx hx' h1, natCast_inj_of_lt hy hy' h2]

/-- ValidPoint (R140) in the terms of the curve. -/
theorem validPoint_aff (x y : Nat) :
    validPoint (.aff x y) = true ↔ x < curveP ∧ y < curveP ∧ curve.Nonsingular (x : Fp) (y : Fp) := by
  rw [curve_nonsingular, ← onCurve_iff]
  simp [validPoint, and_assoc]

/-- Every valid point stands for a point of the curve. -/
theorem rep_of_valid {q : AffinePoint} (h : validPoint q = true) : ∃ P, Rep q P := by
  cases q with
  | inf => exact absurd h (by simp [validPoint])
  | aff x y =>
    obtain ⟨hx, hy, hn⟩ := (validPoint_aff x y).1 h
    exact ⟨_, .aff x y hx hy hn⟩

/-- What stands for a point of the curve is valid or `O`. -/
theorem Rep.valid_or_inf {q : AffinePoint} {P : curve.Point} (h : Rep q P) : validPoint q = true ∨ q = .inf := by
  cases h with
  | inf => exact .inr rfl
  | aff x y hx hy hn => exact .inl ((validPoint_aff x y).2 ⟨hx, hy, hn⟩)

theorem rep_iff {q : AffinePoint} : (∃ P, Rep q P) ↔ (validPoint q = true ∨ q = .inf) := by
  constructor
  · rintro ⟨P, h⟩; exact h.valid_or_inf
  · rintro (h | rfl)
    · exact rep_of_valid h
    · exact ⟨0, .inf⟩

theorem Rep.eq_inf_iff {q : AffinePoint} {P : curve.Point} (h : Rep q P) : q = .inf ↔ P = 0 := by
  cases h with
  | inf => simp
  | aff x y hx hy hn => simp [Point.some_ne_zero hn]

/-- The result of a line construction stands for the point whose coordinates it computes. -/
theorem rep_chord (lam x1 y1 x2 : Nat) (l : Fp) (hl : (lam : Fp) = l)
    (h : curve.Nonsingular (curve.addX (x1 : Fp) (x2 : Fp) l) (curve.addY (x1 : Fp) (x2 : Fp) (y1 : Fp) l)) :
    Rep (chord lam x1 y1 x2) (.some _ _ h) := by
  have hx : ((imod ((lam : Int) * lam - x1 - x2) curveP : Nat) : Fp) = curve.addX (x1 : Fp) (x2 : Fp) l := by
    rw [imod_zmod _ _ curveP_pos]
    simp only [addX, curve_a₁, curve_a₂, ← hl]
    push_cast
    ring
  have hy : ((imod ((lam : Int) * ((x1 : Int) - imod ((lam : Int) * lam - x1 - x2) curveP) - y1) curveP : Nat) : Fp) =
      curve.addY (x1 : Fp) (x2 : Fp) (y1 : Fp) l := by
    rw [imod_zmod _ _ curveP_pos]
    push_cast
    rw [hx]
    simp only [addY, negAddY, negY, curve_a₁, curve_a₃, ← hl]
    ring
  unfold chord
  have key : ∀ (X Y : Fp) (hX : ((imod ((lam : Int) * lam - x1 - x2) curveP : Nat) : Fp) = X)
      (hY : ((imod ((lam : Int) * ((x1 : Int) - imod ((lam : Int) * lam - x1 - x2) curveP) - y1) curveP : Nat) : Fp) = Y)
      (hn : curve.Nonsingular X Y), Rep (.aff (imod ((lam : Int) * lam - x1 - x2) curveP)
        (imod ((lam : Int) * ((x1 : Int) - imod ((lam : Int) * lam - x1 - x2) curveP) - y1) curveP)) (.some X Y hn) := by
    rintro X Y rfl rfl hn
    exact .aff _ _ (imod_lt _ _ curveP_pos) (imod_lt _ _ curveP_pos) hn
  exact key _ _ hx hy h

theorem curve_negY (x y : Fp) : curve.negY x y = -y := by
  simp [negY, curve_a₁, curve_a₃]

theorem curveP_odd : curveP % 2 = 1 := by decide +kernel

theorem two_ne_zero_F : (2 : Fp) ≠ 0 := by
  have h := (natCast_zmod_ne_zero curveP 2).2 (by decide +kernel)
  exact_mod_cast h

variable [Fact curveP.Prime]

/-- `ptDouble` is doubling (R143). -/
theorem Rep.double {q : AffinePoint} {P : curve.Point} (h : Rep q P) : Rep (ptDouble q) (P + P) := by
  cases h with
  | inf => rw [add_zero]; exact .inf
  | aff x y hx hy hn =>
    rw [ptDouble_aff]
    by_cases h0 : y = 0
    · subst h0
      rw [if_pos rfl, Point.add_self_of_Y_eq (by rw [curve_negY]; simp)]
      exact .inf
    · rw [if_neg h0]
      have hy0 := natCast_ne_zero_of_lt hy h0
      have h2y : (2 : Fp) * (y : Fp) ≠ 0 := mul_ne_zero two_ne_zero_F hy0
      have hyn : (y : Fp) ≠ curve.negY (x : Fp) (y : Fp) := by
        rw [curve_negY]
        intro he
        apply h2y
        rw [two_mul]
        nth_rw 1 [he]
        exact neg_add_cancel _
      rw [Point.add_self_of_Y_ne hyn]
      apply rep_chord
      rw [slope_of_Y_ne rfl hyn, ZMod.natCast_mod, curve_negY, curve_a₁, curve_a₂, curve_a₄]
      push_cast
      rw [modInv_zmod _ _ curveP_prime (by push_cast; exact h2y)]
      push_cast
      rw [div_eq_mul_inv, sub_neg_eq_add, ← two_mul]
      ring

/-- `ptAdd` is the addition of the group (R143). -/
theorem Rep.add {q q' : AffinePoint} {P P' : curve.Point} (h : Rep q P) (h' : Rep q' P') :
    Rep (ptAdd q q') (P + P') := by
  cases h with
  | inf => rw [zero_add, ptAdd_inf_left]; exact h'
  | aff x1 y1 hx1 hy1 hn1 =>
    cases h' with
    | inf => rw [add_zero, ptAdd_inf_right]; exact .aff x1 y1 hx1 hy1 hn1
    | aff x2 y2 hx2 hy2 hn2 =>
      rw [ptAdd_aff]
      by_cases hx : x1 = x2
      · subst hx
        rw [if_pos rfl]
        by_cases hy : y1 = y2 ∧ y1 ≠ 0
        · rw [if_pos hy]
          obtain ⟨rfl, _⟩ := hy
          exact (Rep.aff x1 y1 hx1 hy1 hn1).double
        · rw [if_neg hy]
          have hneg : (y1 : Fp) = curve.negY (x1 : Fp) (y2 : Fp) := by
            rcases Y_eq_of_X_eq hn1.1 hn2.1 rfl with h | h
            · have := natCast_inj_of_lt hy1 hy2 h
              subst this
              have h0 : y1 = 0 := by simpa using hy
              subst h0
              rw [curve_negY]; simp
            · exact h
          rw [Point.add_of_Y_eq rfl hneg]
          exact .inf
      · rw [if_neg hx]
        have hxF : (x1 : Fp) ≠ (x2 : Fp) := fun he => hx (natCast_inj_of_lt hx1 hx2 he)
        rw [Point.add_of_X_ne hxF]
        apply rep_chord
        have hd : ((imod ((x2 : Int) - x1) curveP : Nat) : Fp) = (x2 : Fp) - (x1 : Fp) := by
          rw [imod_zmod _ _ curveP_pos]; push_cast; rfl
        rw [slope_of_X_ne hxF, imod_zmod _ _ curveP_pos]
        push_cast
        rw [modInv_zmod _ _ curveP_prime (by rw [hd]; exact sub_ne_zero.2 (Ne.symm hxF)), hd, ← div_eq_mul_inv,
          ← neg_sub (y1 : Fp), ← neg_sub (x1 : Fp), neg_div_neg_eq]

/-- The loop of double-and-add. -/
theorem Rep.scalarMulBits {q : AffinePoint} {P : curve.Point} (h : Rep q P) (k i : Nat) {acc : AffinePoint}
    {A : curve.Point} (ha : Rep acc A) : Rep (scalarMulBits q k i acc) (2 ^ i • A + (k % 2 ^ i) • P) := by
  induction i generalizing acc A with
  | zero => simpa [Machine.scalarMulBits, Nat.mod_one] using ha
  | succ i ih =>
    unfold Machine.scalarMulBits
    cases hb : k.testBit i with
    | false =>
      have e : 2 ^ (i + 1) • A + (k % 2 ^ (i + 1)) • P = 2 ^ i • (A + A) + (k % 2 ^ i) • P := by
        rw [mod_two_pow_succ_testBit, hb, ← two_nsmul, ← mul_nsmul', pow_succ]
        simp
      rw [e]
      exact ih ha.double
    | true =>
      have e : 2 ^ (i + 1) • A + (k % 2 ^ (i + 1)) • P = 2 ^ i • (A + A + P) + (k % 2 ^ i) • P := by
        rw [mod_two_pow_succ_testBit, hb, ← two_nsmul, pow_succ]
        simp only [if_true, add_nsmul, nsmul_add, mul_nsmul']
        abel
      rw [e]
      exact ih (ha.double.add h)

/-- Double-and-add computes the multiple (R144). -/
theorem Rep.scalarMul {q : AffinePoint} {P : curve.Point} (h : Rep q P) (k : Nat) : Rep (scalarMul q k) (k • P) := by
  have h1 := h.scalarMulBits k (bitlen k) Rep.inf
  rw [nsmul_zero, zero_add, Nat.mod_eq_of_lt (lt_two_pow_bitlen k)] at h1
  exact h1

end Sys2Proof.Machine
end

