-- ==== Sys2Proof/Laws/Decode.lean ====
section
/-!
SUPPORT. Laws of the word formats (30_encoding.md R91 to R93): what each field of a word made by `wordR`, `wordI` or
`wordZ` reads as.
-/
namespace Sys2Proof
open Sys2Proof.Machine

/-- A field of a word as division and remainder. -/
theorem wordField_def (hi lo : Nat) (w : Word) : wordField hi lo w = w.toNat / 2 ^ lo % 2 ^ (hi - lo + 1) := rfl

/-- The number of a word of format R. -/
theorem wordR_toNat (op f1 f2 f3 f4 m : Nat) (h0 : op < 256) (h1 : f1 < 16) (h2 : f2 < 16) (h3 : f3 < 16) (h4 : f4 < 16)
    (h5 : m < 2) :
    (wordR op f1 f2 f3 f4 m).toNat = op * 2 ^ 24 + f1 * 2 ^ 20 + f2 * 2 ^ 16 + f3 * 2 ^ 12 + f4 * 2 ^ 8 + m := by
  unfold wordR
  rw [BitVec.toNat_ofNat]
  omega

/-- The number of a word of format I. -/
theorem wordI_toNat (op imm : Nat) (h0 : op < 256) (h1 : imm < 65536) : (wordI op imm).toNat = op * 2 ^ 24 + imm := by
  unfold wordI
  rw [BitVec.toNat_ofNat]
  omega

/-- The number of a word of format Z. -/
theorem wordZ_toNat (op : Nat) (h0 : op < 256) : (wordZ op).toNat = op * 2 ^ 24 := by
  unfold wordZ
  rw [BitVec.toNat_ofNat]
  omega

theorem modBit_lt (m : Modulus) : modBit m < 2 := by cases m <;> decide

theorem constIndex_lt (c : Const) : constIndex c < 6 := by cases c <;> decide

/-- A constant's number names the constant (R129). -/
theorem constOf_constIndex (c : Const) : constOf (constIndex c) = some c := by cases c <;> rfl

/-- The number that names a constant is its number. -/
theorem constIndex_of_constOf (k : Nat) (c : Const) (h : constOf k = some c) : constIndex c = k := by
  unfold constOf at h
  split at h <;> simp_all <;> subst h <;> rfl

/-- A command passes a check exactly when the check holds and the rest gives the command. -/
theorem need_ok (check : Bool) (why : Illegal) (rest : Except Illegal Instr) (i : Instr) :
    need check why rest = .ok i ↔ check = true ∧ rest = .ok i := by
  unfold need
  cases check <;> simp

/-- A decoding fails exactly when a check fails or the rest fails. -/
theorem need_error (check : Bool) (why : Illegal) (rest : Except Illegal Instr) :
    (∃ x, need check why rest = .error x) ↔ check = false ∨ ∃ x, rest = .error x := by
  unfold need
  cases check <;> simp

theorem ok_not_error (i : Instr) : (∃ x, (Except.ok i : Except Illegal Instr) = .error x) ↔ False := by simp

/-- A field that names no point register (R98 (c)). -/
theorem isPoint_eq_false (lo : Nat) (w : Word) : isPoint lo w = false ↔ 3 < wordField (lo + 3) lo w := by
  unfold isPoint
  simp
  omega

theorem zeroField_eq_false (hi lo : Nat) (w : Word) : zeroField hi lo w = false ↔ wordField hi lo w ≠ 0 := by
  unfold zeroField
  simp

/-- A constant index that names no constant (R98 (d)). -/
theorem constOf_error (n : Nat) (rd : Reg) :
    (∃ x, (match constOf n with
      | some c => (.ok (.ldc rd c) : Except Illegal Instr)
      | none => .error .constantIndex) = .error x) ↔ 5 < n := by
  rcases n with _ | _ | _ | _ | _ | _ | n <;> simp [constOf]

/-- Two register fields of a word name one register (R98 (e)). -/
theorem regField_eq (w : Word) : regField 20 w = regField 16 w ↔ wordField 23 20 w = wordField 19 16 w := by
  have a : wordField 23 20 w < 16 := by unfold wordField bitField; exact Nat.mod_lt _ (by norm_num)
  have b : wordField 19 16 w < 16 := by unfold wordField bitField; exact Nat.mod_lt _ (by norm_num)
  have h1 : (regField 20 w).val = wordField 23 20 w := Nat.mod_eq_of_lt a
  have h2 : (regField 16 w).val = wordField 19 16 w := Nat.mod_eq_of_lt b
  rw [Fin.ext_iff, h1, h2]

/-- The bytes of a word, read back (R61). -/
theorem wordOfBytes_wordBytes (w : Word) : wordOfBytes (wordBytes w) = w := by
  apply BitVec.eq_of_toNat_eq
  have h := w.isLt
  simp only [wordOfBytes, wordBytes, be, int, List.foldl_cons, List.foldl_nil, BitVec.toNat_ofNat]
  omega

end Sys2Proof
end

