-- ==== Sys2Proof/Laws/Der.lean ====
section
/-!
SUPPORT. Laws of the DER codec (45_der.md): the content octets of an INTEGER and the lengths of an encoding.
-/
namespace Sys2Proof.Machine

/-- `bitlen` of a number below a power of two. -/
theorem bitlen_le (v k : Nat) (h : v < 2 ^ k) : bitlen v ≤ k := by
  unfold bitlen
  split
  · exact Nat.zero_le _
  · rename_i h0
    exact (Nat.log2_lt h0).mpr h

/-- The shortest form of a number below 2^256 takes 1 to 32 bytes (R201). -/
theorem minimalBytes_length (v : Nat) (h : v < 2 ^ 256) :
    1 ≤ (minimalBytes v).length ∧ (minimalBytes v).length ≤ 32 := by
  have hb := bitlen_le v 256 h
  unfold minimalBytes
  rw [be_length]
  omega

/-- The shortest form is a form of the number (R201). -/
theorem int_minimalBytes (v : Nat) : int (minimalBytes v) = v := by
  unfold minimalBytes
  apply int_be
  refine (lt_two_pow_bitlen v).trans_le ?_
  rw [show (256 : Nat) = 2 ^ 8 from rfl, ← pow_mul]
  exact Nat.pow_le_pow_right (by norm_num) (by omega)

/-- The content octets of a number below 2^256: 1 to 33 (R201). -/
theorem derContent_length (v : Nat) (h : v < 2 ^ 256) :
    1 ≤ (derContent v).length ∧ (derContent v).length ≤ 33 := by
  have hm := minimalBytes_length v h
  simp only [derContent]
  split
  · rw [List.length_cons]; omega
  · omega

/-- The content octets hold the number (R201). -/
theorem int_derContent (v : Nat) : int (derContent v) = v := by
  simp only [derContent]
  split
  · rw [int_cons, int_minimalBytes]; simp
  · exact int_minimalBytes v

/-- The shortest form has no leading 0x00 (R201). -/
theorem minimalBytes_head (v : Nat) (h : 2 ≤ (minimalBytes v).length) : (minimalBytes v).getD 0 0 ≠ 0 := by
  unfold minimalBytes at *
  rw [be_length] at h
  generalize hk : max 1 ((bitlen v + 7) / 8) = k at *
  obtain ⟨k, rfl⟩ : ∃ j, k = j + 1 := ⟨k - 1, by omega⟩
  have h1 : v / 256 ^ k < 256 := by
    rw [Nat.div_lt_iff_lt_mul (by positivity)]
    refine (lt_two_pow_bitlen v).trans_le ?_
    rw [show (256 : Nat) = 2 ^ 8 from rfl, ← pow_mul, ← pow_add]
    exact Nat.pow_le_pow_right (by norm_num) (by omega)
  intro h0
  rw [be_getD _ _ _ (by omega)] at h0
  have h2 := congrArg BitVec.toNat h0
  simp only [BitVec.toNat_ofNat, Nat.add_sub_cancel, Nat.sub_zero] at h2
  rw [show (2 : Nat) ^ 8 = 256 from rfl, Nat.mod_eq_of_lt h1] at h2
  have h3 : v < 256 ^ k := by
    by_contra hc
    exact absurd (Nat.div_pos (not_lt.1 hc) (by positivity)) (by rw [h2]; decide)
  rw [show (256 : Nat) = 2 ^ 8 from rfl, ← pow_mul] at h3
  have h4 := bitlen_le v _ h3
  omega

/-- The content octets are not negative (R201). -/
theorem derContent_head (v : Nat) : ((derContent v).getD 0 0).toNat < 0x80 := by
  simp only [derContent]
  split
  · simp
  · rename_i hc
    cases hm : minimalBytes v with
    | nil => simp
    | cons a t => rw [hm] at hc; simpa using hc

/-- The content octets have no superfluous leading 0x00 (R201). -/
theorem derContent_minimal (v : Nat) (h : 2 ≤ (derContent v).length) (h0 : (derContent v).getD 0 0 = 0) :
    0x80 ≤ ((derContent v).getD 1 0).toNat := by
  revert h h0
  simp only [derContent]
  split
  · rename_i hc
    intro _ _
    cases hm : minimalBytes v with
    | nil => rw [hm] at hc; simp at hc
    | cons a t => rw [hm] at hc; simpa using hc
  · intro h h0
    exact absurd h0 (minimalBytes_head v h)

/-- An encoding of two numbers below 2^256 in numbers (R200). -/
theorem der_length (r s : Nat) : (der r s).length = 6 + (derContent r).length + (derContent s).length := by
  simp only [der, derInt, List.length_cons, List.length_append]
  omega

/-- Every encoding of two numbers below 2^256 fits SIGBUF (R200). -/
theorem der_length_le (r s : Nat) (hr : r < 2 ^ 256) (hs : s < 2 ^ 256) : (der r s).length ≤ 72 := by
  have h1 := derContent_length r hr
  have h2 := derContent_length s hs
  rw [der_length]
  omega

end Sys2Proof.Machine
end

