-- ==== Sys2Proof/Laws/Loop.lean ====
section
/-!
SUPPORT. The bounded retry loop (46_sm2.md R221): what each ending says about the draws.
-/
namespace Sys2Proof.Machine

/-- A draw that costs an attempt: out of range, or degenerate for the attempt (R221). -/
def degenerateDraw {α : Type} (attempt : Nat → Option α) (k : Big) : Prop :=
  k.toNat < 1 ∨ curveN - 1 < k.toNat ∨ attempt k.toNat = none

/-- A draw that costs an attempt is dropped. -/
theorem retryLoop_degenerate {α : Type} (attempt : Nat → Option α) (left att : Nat) (k : Big) (rng : List Big)
    (h : degenerateDraw attempt k) : retryLoop attempt (left + 1) att (k :: rng) = retryLoop attempt left (att + 1) rng := by
  rw [retryLoop]
  split
  · rfl
  · rename_i hr
    rcases h with h | h | h
    · exact absurd (.inl h) hr
    · exact absurd (.inr h) hr
    · rw [h]

/-- A good draw ends the loop. -/
theorem retryLoop_good {α : Type} (attempt : Nat → Option α) (left att : Nat) (k : Big) (rng : List Big) (a : α)
    (h1 : 1 ≤ k.toNat) (h2 : k.toNat ≤ curveN - 1) (h3 : attempt k.toNat = some a) :
    retryLoop attempt (left + 1) att (k :: rng) = .success a (att + 1) rng := by
  rw [retryLoop, if_neg (by omega), h3]

/-- A draw that does not cost an attempt is in range and good. -/
theorem good_of_not_degenerate {α : Type} (attempt : Nat → Option α) (k : Big) (h : ¬degenerateDraw attempt k) :
    1 ≤ k.toNat ∧ k.toNat ≤ curveN - 1 ∧ ∃ a, attempt k.toNat = some a := by
  unfold degenerateDraw at h
  push Not at h
  exact ⟨h.1, h.2.1, Option.ne_none_iff_exists'.1 h.2.2⟩

/-- On success the draws before the last were all degenerate, the last was good, and exactly `att` draws were made. -/
theorem retryLoop_success {α : Type} (attempt : Nat → Option α) (left att : Nat) (rng : List Big) (a : α) (att' : Nat)
    (rng' : List Big) (h : retryLoop attempt left att rng = .success a att' rng') :
    ∃ bad k, rng = bad ++ k :: rng' ∧ (∀ x ∈ bad, degenerateDraw attempt x) ∧ 1 ≤ k.toNat ∧ k.toNat ≤ curveN - 1 ∧
      attempt k.toNat = some a ∧ att' = att + bad.length + 1 ∧ bad.length + 1 ≤ left := by
  induction left generalizing att rng with
  | zero => simp [retryLoop] at h
  | succ left ih =>
    cases rng with
    | nil => simp [retryLoop] at h
    | cons k rng =>
      by_cases hd : degenerateDraw attempt k
      · rw [retryLoop_degenerate attempt left att k rng hd] at h
        obtain ⟨bad, k', h1, h2, h3, h4, h5, h6, h7⟩ := ih (att + 1) rng h
        refine ⟨k :: bad, k', by simp [h1], ?_, h3, h4, h5, ?_, ?_⟩
        · intro x hx
          rcases List.mem_cons.1 hx with hx | hx
          · subst hx; exact hd
          · exact h2 x hx
        · simp only [List.length_cons]; omega
        · simp only [List.length_cons]; omega
      · obtain ⟨h1, h2, b, h3⟩ := good_of_not_degenerate attempt k hd
        rw [retryLoop_good attempt left att k rng b h1 h2 h3] at h
        cases h
        exact ⟨[], k, rfl, by simp, h1, h2, h3, by simp, by simp⟩

/-- On exhaustion every attempt was degenerate and exactly `left` draws were made. -/
theorem retryLoop_exhausted {α : Type} (attempt : Nat → Option α) (left att : Nat) (rng : List Big) (att' : Nat)
    (rng' : List Big) (h : retryLoop attempt left att rng = .exhausted att' rng') :
    ∃ bad, rng = bad ++ rng' ∧ (∀ x ∈ bad, degenerateDraw attempt x) ∧ bad.length = left ∧ att' = att + left := by
  induction left generalizing att rng with
  | zero =>
    simp only [retryLoop, LoopEnd.exhausted.injEq] at h
    exact ⟨[], by simp [h.2], by simp, rfl, by simp [h.1]⟩
  | succ left ih =>
    cases rng with
    | nil => simp [retryLoop] at h
    | cons k rng =>
      by_cases hd : degenerateDraw attempt k
      · rw [retryLoop_degenerate attempt left att k rng hd] at h
        obtain ⟨bad, h1, h2, h3, h4⟩ := ih (att + 1) rng h
        refine ⟨k :: bad, by simp [h1], ?_, by simp [h3], by omega⟩
        intro x hx
        rcases List.mem_cons.1 hx with hx | hx
        · subst hx; exact hd
        · exact h2 x hx
      · obtain ⟨h1, h2, b, h3⟩ := good_of_not_degenerate attempt k hd
        rw [retryLoop_good attempt left att k rng b h1 h2 h3] at h
        cases h

/-- The loop waits only when every answer was drawn and degenerate before the cap is reached, and it has counted them. -/
theorem retryLoop_waiting {α : Type} (attempt : Nat → Option α) (left att : Nat) (rng : List Big) (att' : Nat)
    (h : retryLoop attempt left att rng = .waiting att') :
    (∀ x ∈ rng, degenerateDraw attempt x) ∧ rng.length < left ∧ att' = att + rng.length := by
  induction left generalizing att rng with
  | zero => simp [retryLoop] at h
  | succ left ih =>
    cases rng with
    | nil =>
      simp only [retryLoop, LoopEnd.waiting.injEq] at h
      exact ⟨by simp, by simp, by simp [h]⟩
    | cons k rng =>
      by_cases hd : degenerateDraw attempt k
      · rw [retryLoop_degenerate attempt left att k rng hd] at h
        obtain ⟨h1, h2, h3⟩ := ih (att + 1) rng h
        refine ⟨List.forall_mem_cons.2 ⟨hd, h1⟩, ?_, ?_⟩ <;> simp only [List.length_cons] <;> omega
      · obtain ⟨h1, h2, b, h3⟩ := good_of_not_degenerate attempt k hd
        rw [retryLoop_good attempt left att k rng b h1 h2 h3] at h
        cases h

/-- Degenerate draws followed by a good one, within the cap. -/
theorem retryLoop_append_good {α : Type} (attempt : Nat → Option α) (bad : List Big) (k : Big) (rng : List Big) (a : α)
    (left att : Nat) (hb : ∀ x ∈ bad, degenerateDraw attempt x) (h1 : 1 ≤ k.toNat) (h2 : k.toNat ≤ curveN - 1)
    (h3 : attempt k.toNat = some a) (hl : bad.length + 1 ≤ left) :
    retryLoop attempt left att (bad ++ k :: rng) = .success a (att + bad.length + 1) rng := by
  induction bad generalizing left att with
  | nil =>
    obtain ⟨l, rfl⟩ : ∃ l, left = l + 1 := ⟨left - 1, by simp at hl; omega⟩
    simpa using retryLoop_good attempt l att k rng a h1 h2 h3
  | cons b bad ih =>
    obtain ⟨l, rfl⟩ : ∃ l, left = l + 1 := ⟨left - 1, by simp at hl; omega⟩
    rw [List.cons_append, retryLoop_degenerate attempt l att b _ (hb b (by simp)),
      ih l (att + 1) (fun x hx => hb x (by simp [hx])) (by simpa using hl)]
    simp only [List.length_cons]
    congr 1
    omega

/-- As many degenerate draws as the cap allows. -/
theorem retryLoop_append_exhausted {α : Type} (attempt : Nat → Option α) (bad : List Big) (rng : List Big) (att : Nat)
    (hb : ∀ x ∈ bad, degenerateDraw attempt x) :
    retryLoop attempt bad.length att (bad ++ rng) = .exhausted (att + bad.length) rng := by
  induction bad generalizing att with
  | nil => simp [retryLoop]
  | cons b bad ih =>
    rw [List.length_cons, List.cons_append, retryLoop_degenerate attempt _ att b _ (hb b (by simp)),
      ih (att + 1) (fun x hx => hb x (by simp [hx]))]
    congr 1
    omega

/-- Degenerate answers that run out before the cap is reached: the loop waits. -/
theorem retryLoop_all_degenerate {α : Type} (attempt : Nat → Option α) (rng : List Big) (left att : Nat)
    (hb : ∀ x ∈ rng, degenerateDraw attempt x) (hl : rng.length < left) :
    retryLoop attempt left att rng = .waiting (att + rng.length) := by
  induction rng generalizing left att with
  | nil =>
    obtain ⟨l, rfl⟩ : ∃ l, left = l + 1 := ⟨left - 1, by simp at hl; omega⟩
    rfl
  | cons b rng ih =>
    obtain ⟨l, rfl⟩ : ∃ l, left = l + 1 := ⟨left - 1, by simp at hl; omega⟩
    rw [retryLoop_degenerate attempt l att b _ (hb b (by simp)),
      ih l (att + 1) (fun x hx => hb x (by simp [hx])) (by simpa using hl)]
    simp only [List.length_cons]
    congr 1
    omega

/-- The loop of the command in flight succeeds: degenerate draws, then a good one, all attempts counted and within the
cap. -/
theorem runLoop_success {α : Type} (attempt : Nat → Option α) (s : State) (a : α) (att : Nat) (rng : List Big)
    (h : runLoop attempt s = .success a att rng) :
    ∃ bad k, s.rng = bad ++ k :: rng ∧ (∀ x ∈ bad, degenerateDraw attempt x) ∧ 1 ≤ k.toNat ∧ k.toNat ≤ curveN - 1 ∧
      attempt k.toNat = some a ∧ att = s.tries + bad.length + 1 ∧ att ≤ s.cap.toNat := by
  obtain ⟨bad, k, h1, h2, h3, h4, h5, h6, h7⟩ := retryLoop_success attempt _ _ _ a att rng h
  exact ⟨bad, k, h1, h2, h3, h4, h5, h6, by omega⟩

/-- The loop of the command in flight reaches the cap, which the attempts made so far do not exceed: every draw was
degenerate and `cap` attempts are made. -/
theorem runLoop_exhausted {α : Type} (attempt : Nat → Option α) (s : State) (att : Nat) (rng : List Big)
    (ht : s.tries ≤ s.cap.toNat) (h : runLoop attempt s = .exhausted att rng) :
    ∃ bad, s.rng = bad ++ rng ∧ (∀ x ∈ bad, degenerateDraw attempt x) ∧ s.tries + bad.length = s.cap.toNat ∧
      att = s.cap.toNat := by
  obtain ⟨bad, h1, h2, h3, h4⟩ := retryLoop_exhausted attempt _ _ _ att rng h
  exact ⟨bad, h1, h2, by omega, by omega⟩

/-- The loop of the command in flight waits: every answer is drawn, degenerate and counted, and the cap is not reached. -/
theorem runLoop_waiting {α : Type} (attempt : Nat → Option α) (s : State) (att : Nat)
    (h : runLoop attempt s = .waiting att) :
    (∀ x ∈ s.rng, degenerateDraw attempt x) ∧ att = s.tries + s.rng.length ∧ s.tries + s.rng.length < s.cap.toNat := by
  obtain ⟨h1, h2, h3⟩ := retryLoop_waiting attempt _ _ _ att h
  exact ⟨h1, h3, by omega⟩

end Sys2Proof.Machine
end

