-- ==== Sys2Proof/Laws/Memory.lean ====
section
/-!
SUPPORT. Laws of the buffer memories: a read after a write, the canonical form is kept, indices stay within a bound.
-/
namespace Sys2Proof.Machine

@[simp] theorem Memory.read_nil (a : Nat) : Memory.read [] a = 0 := rfl

/-- A read below every listed index gives 0x00. -/
theorem Memory.read_of_lt (m : Memory) (a : Nat) (h : ∀ c ∈ m, a < c.1) : m.read a = 0 := by
  induction m with
  | nil => rfl
  | cons c t ih =>
    have h1 := h c (by simp)
    rw [Memory.read, if_neg (by omega)]
    exact ih (fun d hd => h d (by simp [hd]))

/-- A read after a write gives the byte written, and every other index reads as before. -/
theorem Memory.read_write (m : Memory) (hm : m.wf) (a a' : Nat) (b : Byte) :
    (m.write a b).read a' = if a = a' then b else m.read a' := by
  induction m with
  | nil =>
    simp only [Memory.write]
    split <;> simp_all [Memory.read]
  | cons c t ih =>
    obtain ⟨k, c⟩ := c
    obtain ⟨hp, hz⟩ := hm
    rw [List.pairwise_cons] at hp
    have ht : Memory.wf t := ⟨hp.2, fun d hd => hz d (by simp [hd])⟩
    have hlow : ∀ x, x ≤ k → Memory.read t x = 0 := fun x hx =>
      Memory.read_of_lt t x (fun d hd => lt_of_le_of_lt hx (hp.1 d hd))
    simp only [Memory.write]
    split
    · rename_i hlt
      split
      · rename_i hb
        split
        · rename_i haa
          subst haa
          rw [Memory.read, if_neg (by omega), hlow _ (by omega), hb]
        · rfl
      · simp only [Memory.read]
    · split
      · rename_i hge heq
        subst heq
        split
        · rename_i hb
          split
          · rename_i haa
            subst haa
            rw [hlow _ (le_refl _), hb]
          · rename_i hne
            rw [Memory.read, if_neg (by omega)]
        · simp only [Memory.read]
          split <;> simp_all
      · rename_i hge hne
        simp only [Memory.read]
        split
        · rename_i hk
          rw [if_neg (by omega)]
        · exact ih ht

/-- Every entry after a write is an old entry or the one written. -/
theorem Memory.mem_write (m : Memory) (a : Nat) (b : Byte) (c : Host.Cell) (h : c ∈ m.write a b) : c ∈ m ∨ c = (a, b) := by
  induction m with
  | nil =>
    simp only [Memory.write] at h
    split at h <;> simp_all
  | cons d t ih =>
    simp only [Memory.write] at h
    split at h
    · split at h
      · exact .inl h
      · rcases List.mem_cons.1 h with h | h
        · exact .inr h
        · exact .inl h
    · split at h
      · split at h
        · exact .inl (List.mem_cons_of_mem _ h)
        · rcases List.mem_cons.1 h with h | h
          · exact .inr h
          · exact .inl (List.mem_cons_of_mem _ h)
      · rcases List.mem_cons.1 h with h | h
        · exact .inl (by simp [h])
        · rcases ih h with h | h
          · exact .inl (List.mem_cons_of_mem _ h)
          · exact .inr h

/-- A write keeps the canonical form. -/
theorem Memory.wf_write (m : Memory) (hm : m.wf) (a : Nat) (b : Byte) : (m.write a b).wf := by
  induction m with
  | nil =>
    simp only [Memory.write]
    split <;> simp_all [Memory.wf]
  | cons c t ih =>
    obtain ⟨hp, hz⟩ := hm
    have hp' := hp
    rw [List.pairwise_cons] at hp
    have ht : Memory.wf t := ⟨hp.2, fun d hd => hz d (by simp [hd])⟩
    simp only [Memory.write]
    split
    · rename_i hlt
      split
      · exact ⟨hp', hz⟩
      · rename_i hb
        refine ⟨List.pairwise_cons.2 ⟨?_, hp'⟩, ?_⟩
        · intro d hd
          rcases List.mem_cons.1 hd with hd | hd
          · subst hd; exact hlt
          · exact lt_trans hlt (hp.1 d hd)
        · intro d hd
          rcases List.mem_cons.1 hd with hd | hd
          · subst hd; exact hb
          · exact hz d hd
    · split
      · rename_i hge heq
        split
        · exact ht
        · rename_i hb
          refine ⟨List.pairwise_cons.2 ⟨fun d hd => by subst heq; exact hp.1 d hd, hp.2⟩, ?_⟩
          intro d hd
          rcases List.mem_cons.1 hd with hd | hd
          · subst hd; exact hb
          · exact hz d (List.mem_cons_of_mem _ hd)
      · rename_i hge hne
        have hi := ih ht
        refine ⟨List.pairwise_cons.2 ⟨?_, hi.1⟩, ?_⟩
        · intro d hd
          rcases Memory.mem_write t a b d hd with hd | hd
          · exact hp.1 d hd
          · subst hd; simp only; omega
        · intro d hd
          rcases List.mem_cons.1 hd with hd | hd
          · subst hd; exact hz _ (by simp)
          · exact hi.2 d hd

/-- A write of a string keeps the canonical form. -/
theorem Memory.wf_writeBytes (m : Memory) (hm : m.wf) (off : Nat) (v : Bytes) : (m.writeBytes off v).wf := by
  induction v generalizing m off with
  | nil => exact hm
  | cons b t ih => exact ih (m.write off b) (m.wf_write hm off b) (off + 1)

/-- What an index reads as after a string was written. -/
theorem Memory.read_writeBytes (m : Memory) (hm : m.wf) (off : Nat) (v : Bytes) (a : Nat) :
    (m.writeBytes off v).read a = if off ≤ a ∧ a < off + v.length then v.getD (a - off) 0 else m.read a := by
  induction v generalizing m off with
  | nil =>
    have : ¬(off ≤ a ∧ a < off + ([] : Bytes).length) := by simp
    rw [if_neg this]; rfl
  | cons b t ih =>
    rw [Memory.writeBytes, ih (m.write off b) (m.wf_write hm off b) (off + 1), Memory.read_write m hm]
    by_cases h1 : off = a
    · subst h1
      simp
    · by_cases h2 : off + 1 ≤ a ∧ a < off + 1 + t.length
      · rw [if_pos h2, if_pos (by simp only [List.length_cons]; omega)]
        have : a - off = (a - (off + 1)) + 1 := by omega
        rw [this, List.getD_cons_succ]
      · rw [if_neg h2, if_neg h1, if_neg (by simp only [List.length_cons]; omega)]

/-- Indices stay below a bound that the written string respects. -/
theorem Memory.bound_writeBytes (m : Memory) (off : Nat) (v : Bytes) (n : Nat) (hm : ∀ c ∈ m, c.1 < n)
    (hv : off + v.length ≤ n) : ∀ c ∈ m.writeBytes off v, c.1 < n := by
  induction v generalizing m off with
  | nil => exact hm
  | cons b t ih =>
    rw [List.length_cons] at hv
    refine ih (m.write off b) (off + 1) ?_ (by omega)
    intro c hc
    rcases Memory.mem_write m off b c hc with h | h
    · exact hm c h
    · subst h; simp only; omega

@[simp] theorem Memory.readBytes_length (m : Memory) (off n : Nat) : (m.readBytes off n).length = n := by
  simp [Memory.readBytes]

/-- Byte `i` of a string read. -/
theorem Memory.readBytes_getD (m : Memory) (off n i : Nat) (h : i < n) : (m.readBytes off n).getD i 0 = m.read (off + i) := by
  simp [Memory.readBytes, List.getD_eq_getElem?_getD, h]

/-- A string written is read back. -/
theorem Memory.readBytes_writeBytes (m : Memory) (hm : m.wf) (off : Nat) (v : Bytes) :
    (m.writeBytes off v).readBytes off v.length = v := by
  apply List.ext_getElem
  · simp
  · intro i h1 h2
    have hi : i < v.length := h2
    simp only [Memory.readBytes, List.getElem_map, List.getElem_range]
    rw [Memory.read_writeBytes m hm, if_pos (by omega)]
    simp [List.getD_eq_getElem?_getD, hi]

end Sys2Proof.Machine
end

