-- ==== Sys2Proof/Laws/Ops.lean ====
section
/-!
SUPPORT. What each shared operation can do, once: reading and writing buffers, ending a command, issue, status clear,
reset; and that each keeps the invariant.
-/
namespace Sys2Proof.Machine

/-- BUF_BYTES is at least 256 (R7). -/
theorem bufBytes_ge : 256 ≤ Config.bufBytes := by
  unfold Config.bufBytes
  exact Nat.le_add_left _ _

/-- BUF_BYTES is below 2^31 (R7). -/
theorem bufBytes_lt : Config.bufBytes < 2 ^ 31 := by
  have h : Config.bufParam % 2147483392 < 2147483392 := Nat.mod_lt _ (by norm_num)
  have h2 : Config.bufBytes = Config.bufParam % 2147483392 + 256 := by unfold Config.bufBytes; rfl
  rw [h2]
  norm_num
  linarith

/-- The capacities (R39). -/
@[simp] theorem capacity_ibuf : capacity .ibuf = Config.bufBytes := rfl

@[simp] theorem capacity_obuf : capacity .obuf = Config.bufBytes := rfl

@[simp] theorem capacity_abuf : capacity .abuf = Config.bufBytes := rfl

@[simp] theorem capacity_sigbuf : capacity .sigbuf = 72 := rfl

/-- Every capacity is below 2^31. -/
theorem capacity_lt (b : Buf) : capacity b < 2 ^ 31 := by
  have := bufBytes_lt
  cases b <;> simp <;> omega

/-- Every capacity is at least 72. -/
theorem capacity_ge (b : Buf) : 72 ≤ capacity b := by
  have := bufBytes_ge
  cases b <;> simp <;> omega

/-- A buffer operation goes on to a next state exactly when it succeeds and what follows does. -/
theorem orFault_next {α : Type} (x : Except Fault α) (k : α → Result) (t : State) :
    orFault x k = .next t ↔ ∃ a, x = .ok a ∧ k a = .next t := by
  cases x <;> simp [orFault]

@[simp] theorem orFault_ok {α : Type} (a : α) (k : α → Result) : orFault (.ok a) k = k a := rfl

/-- MemRead within the length and the capacity gives the bytes (R80). -/
theorem memRead_ok (s : State) (b : Buf) (off n : Nat) (h1 : off + n ≤ (s.len b).toNat) (h2 : off + n ≤ capacity b) :
    memRead s b off n = .ok ((s.mem b).readBytes off n) := if_pos ⟨h1, h2⟩

/-- When MemRead gives bytes, they are the buffer's. -/
theorem memRead_eq_ok (s : State) (b : Buf) (off n : Nat) (v : Bytes) (h : memRead s b off n = .ok v) :
    v = (s.mem b).readBytes off n ∧ off + n ≤ (s.len b).toNat ∧ off + n ≤ capacity b := by
  unfold memRead at h
  split at h
  · rename_i hc
    cases h
    exact ⟨rfl, hc⟩
  · cases h

/-- A whole buffer is read when its length is within its capacity (R82). -/
theorem memRead_all (s : State) (b : Buf) (h : (s.len b).toNat ≤ capacity b) :
    memRead s b 0 (s.len b).toNat = .ok ((s.mem b).readBytes 0 (s.len b).toNat) :=
  memRead_ok s b 0 _ (by omega) (by omega)

/-- A command's output that fits is stored from index 0 and the length set (R81). -/
theorem putBytes_ok (s : State) (b : Buf) (v : Bytes) (h : v.length ≤ capacity b) :
    putBytes s b v = .ok (s.put b v) := by
  simp [putBytes, memWrite, h, Except.map, State.put]

/-- When a command's output is stored, it fits and only the buffer and its length change. -/
theorem putBytes_eq_ok (s : State) (b : Buf) (v : Bytes) (t : State) (h : putBytes s b v = .ok t) :
    v.length ≤ capacity b ∧ t = s.put b v := by
  by_cases hv : v.length ≤ capacity b
  · rw [putBytes_ok s b v hv] at h
    cases h
    exact ⟨hv, rfl⟩
  · simp [putBytes, memWrite, hv, Except.map] at h

/-- `OUT <- v` and the end of the command. -/
theorem putOut_next (s : State) (v : Bytes) (k : State → Result) (t : State) (h : putOut s v k = .next t) :
    v.length ≤ capacity .obuf ∧
      k (s.put .obuf v) = .next t := by
  obtain ⟨u, hu, hk⟩ := (orFault_next _ _ _).1 h
  obtain ⟨h1, h2⟩ := putBytes_eq_ok _ _ _ _ hu
  subst h2
  exact ⟨h1, hk⟩

/-- `SIGOUT <- v` and the end of the command. -/
theorem putSig_next (s : State) (v : Bytes) (k : State → Result) (t : State) (h : putSig s v k = .next t) :
    v.length ≤ capacity .sigbuf ∧
      k (s.put .sigbuf v) = .next t := by
  obtain ⟨u, hu, hk⟩ := (orFault_next _ _ _).1 h
  obtain ⟨h1, h2⟩ := putBytes_eq_ok _ _ _ _ hu
  subst h2
  exact ⟨h1, hk⟩

theorem putOut_ok (s : State) (v : Bytes) (k : State → Result) (h : v.length ≤ Config.bufBytes) :
    putOut s v k = k (s.put .obuf v) := by
  unfold putOut
  rw [putBytes_ok s .obuf v h]
  rfl

theorem putSig_ok (s : State) (v : Bytes) (k : State → Result) (h : v.length ≤ 72) :
    putSig s v k = k (s.put .sigbuf v) := by
  unfold putSig
  rw [putBytes_ok s .sigbuf v h]
  rfl

theorem withIn_ok (s : State) (k : Bytes → Result) (h : s.ilen.toNat ≤ Config.bufBytes) :
    withIn s k = k (s.ibuf.readBytes 0 s.ilen.toNat) := by
  unfold withIn
  rw [show s.ilen = s.len .ibuf from rfl, memRead_all s .ibuf h]
  rfl

theorem withAux_ok (s : State) (k : Bytes → Result) (h : s.alen.toNat ≤ Config.bufBytes) :
    withAux s k = k (s.abuf.readBytes 0 s.alen.toNat) := by
  unfold withAux
  rw [show s.alen = s.len .abuf from rfl, memRead_all s .abuf h]
  rfl

theorem withSig_ok (s : State) (k : Bytes → Result) (h : s.siglen.toNat ≤ 72) :
    withSig s k = k (s.sigbuf.readBytes 0 s.siglen.toNat) := by
  unfold withSig
  rw [show s.siglen = s.len .sigbuf from rfl, memRead_all s .sigbuf h]
  rfl

theorem withIdent_ok (s : State) (k : Bytes → Result) (h : s.alen.toNat ≤ Config.bufBytes) :
    withIdent s k = k (identOf s) := by
  unfold withIdent identOf
  split
  · exact withAux_ok s k h
  · rfl

theorem withIn_next (s : State) (k : Bytes → Result) (t : State) (h : withIn s k = .next t) :
    k (s.ibuf.readBytes 0 s.ilen.toNat) = .next t := by
  obtain ⟨v, hv, hk⟩ := (orFault_next _ _ _).1 h
  obtain ⟨h1, _⟩ := memRead_eq_ok _ _ _ _ _ hv
  subst h1
  exact hk

theorem withAux_next (s : State) (k : Bytes → Result) (t : State) (h : withAux s k = .next t) :
    k (s.abuf.readBytes 0 s.alen.toNat) = .next t := by
  obtain ⟨v, hv, hk⟩ := (orFault_next _ _ _).1 h
  obtain ⟨h1, _⟩ := memRead_eq_ok _ _ _ _ _ hv
  subst h1
  exact hk

theorem withSig_next (s : State) (k : Bytes → Result) (t : State) (h : withSig s k = .next t) :
    k (s.sigbuf.readBytes 0 s.siglen.toNat) = .next t := by
  obtain ⟨v, hv, hk⟩ := (orFault_next _ _ _).1 h
  obtain ⟨h1, _⟩ := memRead_eq_ok _ _ _ _ _ hv
  subst h1
  exact hk

theorem withIdent_next (s : State) (k : Bytes → Result) (t : State) (h : withIdent s k = .next t) :
    k (identOf s) = .next t := by
  unfold withIdent at h
  unfold identOf
  split at h
  · rename_i hc
    rw [if_pos hc]
    exact withAux_next s k t h
  · rename_i hc
    rw [if_neg hc]
    exact h

/-- Raising an error ends the command in one next state (R262). -/
@[simp] theorem raise_eq (e : CmdError) (att : Nat) (s : State) : raise e att s = .next (s.complete false att (some e)) := rfl

@[simp] theorem succeed_eq (s : State) : succeed s = .next (s.complete false 0 none) := rfl

@[simp] theorem answer_eq (b : Bool) (s : State) : answer b s = .next (s.complete b 0 none) := rfl

@[simp] theorem succeedAfter_eq (att : Nat) (s : State) : succeedAfter att s = .next (s.complete false att none) := rfl

/-- What a register update, a reply or a move of the schedule needs for the invariant to stay: the fields it speaks of. -/
theorem State.Inv.congr {s t : State} (h : s.Inv) (hm : ∀ b, t.mem b = s.mem b) (hl : ∀ b, t.len b = s.len b)
    (h1 : t.inflight = s.inflight) (h2 : t.done = s.done) (h3 : t.result = s.result) (h4 : t.err = s.err)
    (h5 : t.att = s.att) (h6 : t.cap = s.cap) (h7 : t.tries = s.tries) : t.Inv := by
  refine ⟨?_, ?_, ?_, ?_, ?_, ?_, ?_, ?_⟩
  · intro b; rw [hm]; exact h.memWf b
  · intro b; rw [hm]; exact h.memBound b
  · intro b; rw [hl]; exact h.lenBound b
  · unfold State.busy; rw [h1, h2]; exact h.busyNotDone
  · rw [h2, h3, h4, h5]; exact h.notDoneClear
  · rw [h3, h4]; exact h.errNoResult
  · rw [h6, h7]; exact h.triesBound
  · unfold State.busy; rw [h1, h7]; exact h.idleNoTries

/-- Completion keeps the invariant when it does not set RESULT beside an error. -/
theorem State.Inv.complete {s : State} (h : s.Inv) (b : Bool) (n : Nat) (e : Option CmdError) (he : e ≠ none → b = false) :
    (s.complete b n e).Inv := by
  refine ⟨?_, ?_, ?_, ?_, ?_, ?_, ?_, ?_⟩
  · intro c; rw [State.mem_complete]; exact h.memWf c
  · intro c; rw [State.mem_complete]; exact h.memBound c
  · intro c; rw [State.len_complete]; exact h.lenBound c
  · simp
  · simp
  · simpa using he
  · simp
  · simp

/-- A register write keeps the invariant. -/
theorem State.Inv.setReg {s : State} (h : s.Inv) (k : Reg) (x : Big) : (s.setReg k x).Inv :=
  h.congr (by simp) (by simp) rfl rfl rfl rfl rfl rfl rfl

theorem State.Inv.setRegNat {s : State} (h : s.Inv) (k : Reg) (x : Nat) : (s.setRegNat k x).Inv := h.setReg k _

/-- A write of a point register keeps the invariant. -/
theorem State.Inv.setPreg {s : State} (h : s.Inv) (k : PReg) (q : PointReg) : (s.setPreg k q).Inv :=
  h.congr (by simp) (by simp) rfl rfl rfl rfl rfl rfl rfl

theorem State.Inv.setPoint {s : State} (h : s.Inv) (k : PReg) (q : AffinePoint) : (s.setPoint k q).Inv := h.setPreg k _

/-- A length within the capacity keeps the invariant. -/
theorem State.Inv.setLen {s : State} (h : s.Inv) (b : Buf) (w : Word) (hw : w.toNat ≤ capacity b) : (s.setLen b w).Inv := by
  refine ⟨?_, ?_, ?_, ?_, ?_, ?_, ?_, ?_⟩
  · intro c; rw [State.mem_setLen]; exact h.memWf c
  · intro c; rw [State.mem_setLen]; exact h.memBound c
  · intro c
    rw [State.len_setLen]
    split
    · rename_i hc; subst hc; exact hw
    · exact h.lenBound c
  · unfold State.busy; simp only [State.setLen_inflight, State.setLen_done]; exact h.busyNotDone
  · simp only [State.setLen_done, State.setLen_result, State.setLen_err, State.setLen_att]; exact h.notDoneClear
  · simp only [State.setLen_result, State.setLen_err]; exact h.errNoResult
  · simp only [State.setLen_tries, State.setLen_cap]; exact h.triesBound
  · unfold State.busy; simp only [State.setLen_inflight, State.setLen_tries]; exact h.idleNoTries

theorem State.Inv.emptied {s : State} (h : s.Inv) (b : Buf) : (s.emptied b).Inv := h.setLen b 0 (by simp)

/-- A buffer content in canonical form and within the capacity keeps the invariant. -/
theorem State.Inv.setMem {s : State} (h : s.Inv) (b : Buf) (m : Memory) (hw : m.wf) (hb : ∀ c ∈ m, c.1 < capacity b) :
    (s.setMem b m).Inv := by
  refine ⟨?_, ?_, ?_, ?_, ?_, ?_, ?_, ?_⟩
  · intro c
    rw [State.mem_setMem]
    split
    · exact hw
    · exact h.memWf c
  · intro c
    rw [State.mem_setMem]
    split
    · rename_i hc; subst hc; exact hb
    · exact h.memBound c
  · intro c; rw [State.len_setMem]; exact h.lenBound c
  · unfold State.busy; simp only [State.setMem_inflight, State.setMem_done]; exact h.busyNotDone
  · simp only [State.setMem_done, State.setMem_result, State.setMem_err, State.setMem_att]; exact h.notDoneClear
  · simp only [State.setMem_result, State.setMem_err]; exact h.errNoResult
  · simp only [State.setMem_tries, State.setMem_cap]; exact h.triesBound
  · unfold State.busy; simp only [State.setMem_inflight, State.setMem_tries]; exact h.idleNoTries

/-- Storing a command's output keeps the invariant. -/
theorem State.Inv.put {s : State} (h : s.Inv) (b : Buf) (v : Bytes) (hv : v.length ≤ capacity b) :
    (s.put b v).Inv := by
  unfold State.put
  refine (h.setMem b _ ((s.mem b).wf_writeBytes (h.memWf b) 0 v) ?_).setLen b _ ?_
  · exact (s.mem b).bound_writeBytes 0 v _ (h.memBound b) (by omega)
  · rw [BitVec.toNat_ofNat]
    exact (Nat.mod_le _ _).trans hv

/-- What STATUS a status clear leaves (R32). -/
theorem hostClearStatus_of_idle (s : State) (h : s.busy = false) :
    hostClearStatus s = { s with done := false, result := false, err := none, att := 0 } := by
  simp [hostClearStatus, h]

/-- While BUSY a status clear does nothing (R32). -/
theorem hostClearStatus_of_busy (s : State) (h : s.busy = true) : hostClearStatus s = s := by
  simp [hostClearStatus, h]

/-- What issue does (R95). -/
theorem hostIssue_of_ready (w : Word) (s : State) (h : s.busy = false) (he : s.err = none) :
    hostIssue w s = { s with done := false, result := false, att := 0, inflight := some w } := by
  simp [hostIssue, h, he]

/-- When issue does nothing (R95, R263). -/
theorem hostIssue_refused (w : Word) (s : State) (h : s.busy = true ∨ s.err ≠ none) : hostIssue w s = s := by
  unfold hostIssue
  rcases h with h | h
  · simp [h]
  · simp [h]

end Sys2Proof.Machine
end

