-- ==== Sys2Proof/Laws/Exec.lean ====
section
/-!
SUPPORT. What each command can do, once: if its meaning answers a next state, one of the cases listed holds. The commands
that always end in one state have that state as their law.
-/
namespace Sys2Proof.Machine

/-- The state with the answers of the random source left after a command's draws. -/
def State.drew (s : State) (rng : List Big) : State := { s with rng := rng }

/-- A wait below the cap with a command in flight keeps the invariant. -/
theorem State.Inv.awaitDraw {s : State} (h : s.Inv) (n : Nat) (hn : n ≤ s.cap.toNat) (hb : s.busy = true) :
    (s.awaitDraw n).Inv where
  memWf := by simpa using h.memWf
  memBound := by simpa using h.memBound
  lenBound := by simpa using h.lenBound
  busyNotDone := h.busyNotDone
  notDoneClear := h.notDoneClear
  errNoResult := h.errNoResult
  triesBound := hn
  idleNoTries := fun hi => absurd (hb.symm.trans hi) (by simp)

/-- A command with a destination buffer ended: with an error and the length 0, or with a string that fits stored. -/
def OutOrError (s t : State) (b : Buf) : Prop :=
  (∃ e, t = (s.emptied b).complete false 0 (some e)) ∨
    ∃ v, v.length ≤ capacity b ∧ t = (s.put b v).complete false 0 none

theorem execModadd_eq (rd ra rb : Reg) (m : Modulus) (s : State) :
    execModadd rd ra rb m s =
      .next ((s.setRegNat rd (modAdd (modulus m) (s.regNat ra) (s.regNat rb))).complete false 0 none) := rfl

theorem execModsub_eq (rd ra rb : Reg) (m : Modulus) (s : State) :
    execModsub rd ra rb m s =
      .next ((s.setRegNat rd (modSub (modulus m) (s.regNat ra) (s.regNat rb))).complete false 0 none) := rfl

theorem execModmul_eq (rd ra rb : Reg) (m : Modulus) (s : State) :
    execModmul rd ra rb m s =
      .next ((s.setRegNat rd (modMul (modulus m) (s.regNat ra) (s.regNat rb))).complete false 0 none) := rfl

theorem execMontmul_eq (rd ra rb : Reg) (m : Modulus) (s : State) :
    execMontmul rd ra rb m s =
      .next ((s.setRegNat rd (montMul (modulus m) (s.regNat ra) (s.regNat rb))).complete false 0 none) := rfl

theorem execLdc_eq (rd : Reg) (c : Const) (s : State) :
    execLdc rd c s = .next ((s.setRegNat rd (rom c)).complete false 0 none) := rfl

theorem execModinv_cases (rd ra : Reg) (m : Modulus) (s t : State) (h : execModinv rd ra m s = .next t) :
    (s.regNat ra % modulus m = 0 ∧ t = s.complete false 0 (some .notInvertible)) ∨
      (s.regNat ra % modulus m ≠ 0 ∧
        t = (s.setRegNat rd (modInv (modulus m) (s.regNat ra % modulus m))).complete false 0 none) := by
  unfold execModinv at h
  split at h
  · rename_i hc; cases h; exact .inl ⟨hc, rfl⟩
  · rename_i hc; cases h; exact .inr ⟨hc, rfl⟩

theorem execPadd_eq (pd pa pb : PReg) (s : State) :
    execPadd pd pa pb s =
      .next ((s.setPoint pd (ptAdd (norm (s.point pa)) (norm (s.point pb)))).complete false 0 none) := rfl

theorem execPdbl_eq (pd pa : PReg) (s : State) :
    execPdbl pd pa s = .next ((s.setPoint pd (ptDouble (norm (s.point pa)))).complete false 0 none) := rfl

theorem execPmul_eq (pd pa : PReg) (rk : Reg) (s : State) :
    execPmul pd pa rk s =
      .next ((s.setPoint pd (scalarMul (norm (s.point pa)) (s.regNat rk))).complete false 0 none) := rfl

theorem execPchk_eq (pa : PReg) (s : State) :
    execPchk pa s = .next (s.complete (validPoint (s.point pa)) 0 none) := rfl

theorem execPldg_eq (pd : PReg) (s : State) : execPldg pd s = .next ((s.setPoint pd baseG).complete false 0 none) := rfl

theorem execPenc_cases (pa : PReg) (s t : State) (h : execPenc pa s = .next t) : OutOrError s t .obuf := by
  unfold execPenc at h
  split at h
  · cases h; exact .inl ⟨_, rfl⟩
  · obtain ⟨hl, hk⟩ := putOut_next _ _ _ _ h
    cases hk
    exact .inr ⟨_, hl, rfl⟩

theorem execPdec_cases (pd : PReg) (s t : State) (h : execPdec pd s = .next t) :
    (∃ e, t = s.complete false 0 (some e)) ∨
      ∃ x y, validPoint (.aff x y) = true ∧ t = (s.setPoint pd (.aff x y)).complete false 0 none := by
  have h := withIn_next _ _ _ h
  split at h
  · cases h; exact .inl ⟨_, rfl⟩
  · split at h
    · rename_i hv; cases h; exact .inr ⟨_, _, hv, rfl⟩
    · cases h; exact .inl ⟨_, rfl⟩

theorem execSm3init_eq (s : State) :
    execSm3init s = .next (({ s with v := sm3IV } : State).complete false 0 none) := rfl

theorem execSm3blk_cases (s t : State) (h : execSm3blk s = .next t) :
    (s.ilen.toNat ≠ 64 ∧ t = s.complete false 0 (some .validation)) ∨
      (s.ilen.toNat = 64 ∧
        t = ({ s with v := sm3CF s.v (s.ibuf.readBytes 0 64) } : State).complete false 0 none) := by
  unfold execSm3blk at h
  split at h
  · rename_i hc; cases h; exact .inl ⟨hc, rfl⟩
  · rename_i hc
    obtain ⟨v, hv, hk⟩ := (orFault_next _ _ _).1 h
    obtain ⟨h1, _⟩ := memRead_eq_ok _ _ _ _ _ hv
    subst h1
    cases hk
    exact .inr ⟨not_not.1 hc, rfl⟩

theorem execSm3hash_cases (s t : State) (h : execSm3hash s = .next t) :
    (s.cfg.blankq = true ∧ isBlank (s.ibuf.readBytes 0 s.ilen.toNat) = true ∧
        t = (s.put .obuf []).complete false 0 none) ∨
      (¬(s.cfg.blankq = true ∧ isBlank (s.ibuf.readBytes 0 s.ilen.toNat) = true) ∧
        t = (({ s with v := sm3Chain (s.ibuf.readBytes 0 s.ilen.toNat) } : State).put .obuf
          (sm3 (s.ibuf.readBytes 0 s.ilen.toNat))).complete false 0 none) := by
  have h := withIn_next _ _ _ h
  split at h
  · rename_i hc
    obtain ⟨_, hk⟩ := putOut_next _ _ _ _ h
    cases hk
    rw [Bool.and_eq_true] at hc
    exact .inl ⟨hc.1, hc.2, rfl⟩
  · rename_i hc
    obtain ⟨_, hk⟩ := putOut_next _ _ _ _ h
    cases hk
    rw [Bool.and_eq_true] at hc
    exact .inr ⟨hc, rfl⟩

theorem execKdfgen_cases (l : BitVec 16) (s t : State) (h : execKdfgen l s = .next t) : OutOrError s t .obuf := by
  unfold execKdfgen at h
  split at h
  · cases h; exact .inl ⟨_, rfl⟩
  · obtain ⟨hl, hk⟩ := putOut_next _ _ _ _ (withAux_next _ _ _ h)
    cases hk
    exact .inr ⟨_, hl, rfl⟩

theorem execKdfxor_cases (s t : State) (h : execKdfxor s = .next t) :
    ∃ v, v.length ≤ capacity .obuf ∧ t = (s.put .obuf v).complete false 0 none := by
  obtain ⟨hl, hk⟩ := putOut_next _ _ _ _ (withIn_next _ _ _ (withAux_next _ _ _ h))
  cases hk
  exact ⟨_, hl, rfl⟩

theorem execDerenc_cases (ra rb : Reg) (s t : State) (h : execDerenc ra rb s = .next t) :
    (der (s.regNat ra) (s.regNat rb)).length ≤ capacity .sigbuf ∧
      t = (s.put .sigbuf (der (s.regNat ra) (s.regNat rb))).complete false 0 none := by
  obtain ⟨hl, hk⟩ := putSig_next _ _ _ _ h
  cases hk
  exact ⟨hl, rfl⟩

theorem execDerdec_cases (rd re : Reg) (s t : State) (h : execDerdec rd re s = .next t) :
    (∃ e, t = s.complete false 0 (some e)) ∨
      ∃ v1 v2, derParse (s.sigbuf.readBytes 0 s.siglen.toNat) = some (v1, v2) ∧
        t = ((s.setRegNat rd v1).setRegNat re v2).complete false 0 none := by
  unfold execDerdec at h
  split at h
  · cases h; exact .inl ⟨_, rfl⟩
  · have h := withSig_next _ _ _ h
    split at h
    · cases h; exact .inl ⟨_, rfl⟩
    · rename_i hp; cases h; exact .inr ⟨_, _, hp, rfl⟩

theorem execSm2key_cases (s t : State) (h : execSm2key s = .next t) :
    (validScalar (s.regNat 0) = false ∧ t = s.complete false 0 (some .validation)) ∨
      (validScalar (s.regNat 0) = true ∧
        t = (s.setPoint 0 (scalarMul baseG (s.regNat 0))).complete false 0 none) := by
  unfold execSm2key at h
  split at h
  · rename_i hc; cases h; exact .inr ⟨hc, rfl⟩
  · rename_i hc; cases h; exact .inl ⟨by simpa using hc, rfl⟩

theorem execSm2z_cases (s t : State) (h : execSm2z s = .next t) : OutOrError s t .obuf := by
  have h := withIdent_next _ _ _ h
  split at h
  · cases h; exact .inl ⟨_, rfl⟩
  · split at h
    · split at h
      · obtain ⟨hl, hk⟩ := putOut_next _ _ _ _ h
        cases hk
        exact .inr ⟨_, hl, rfl⟩
      · cases h; exact .inl ⟨_, rfl⟩
    · cases h; exact .inl ⟨_, rfl⟩

/-- The ends of the retry loop of SM2SIGN: waiting, the cap reached, a signature. -/
theorem signLoop_cases (d e : Nat) (s t : State) (h : signLoop d e s = .next t) :
    (∃ att, runLoop (attemptSign d e) s = .waiting att ∧ t = s.awaitDraw att) ∨
      (∃ att rng, runLoop (attemptSign d e) s = .exhausted att rng ∧
        t = ((s.drew rng).emptied .sigbuf).complete false att (some .signatureGeneration)) ∨
      ∃ r sg att rng, runLoop (attemptSign d e) s = .success (r, sg) att rng ∧
        (der r sg).length ≤ capacity .sigbuf ∧
        t = ((((s.drew rng).setRegNat 1 r).setRegNat 2 sg).put .sigbuf (der r sg)).complete false att none := by
  unfold signLoop at h
  split at h
  · rename_i att hr; cases h; exact .inl ⟨att, hr, rfl⟩
  · rename_i att rng hr; cases h; exact .inr (.inl ⟨att, rng, hr, rfl⟩)
  · rename_i r sg att rng hr
    obtain ⟨hl, hk⟩ := putSig_next _ _ _ _ h
    cases hk
    exact .inr (.inr ⟨r, sg, att, rng, hr, hl, rfl⟩)

theorem execSm2sign_cases (s t : State) (h : execSm2sign s = .next t) :
    (t = (s.emptied .sigbuf).complete false 0 (some .validation)) ∨
      ∃ xq yq, validScalar (s.regNat 0) = true ∧ (identOf s).length ≤ Config.idMax ∧
        scalarMul baseG (s.regNat 0) = .aff xq yq ∧
        signLoop (s.regNat 0) (digestE (identOf s) xq yq (s.ibuf.readBytes 0 s.ilen.toNat)) s = .next t := by
  unfold execSm2sign at h
  split at h
  · rename_i hd
    have h := withIdent_next _ _ _ h
    split at h
    · cases h; exact .inl rfl
    · rename_i hi
      split at h
      · cases h; exact .inl rfl
      · rename_i xq yq hq
        exact .inr ⟨xq, yq, hd, by omega, hq, withIn_next _ _ _ h⟩
  · cases h; exact .inl rfl

theorem execSm2vfy_cases (s t : State) (h : execSm2vfy s = .next t) :
    t = s.complete (verify (s.sigbuf.readBytes 0 s.siglen.toNat) (s.point 0) (identOf s)
      (s.ibuf.readBytes 0 s.ilen.toNat)) 0 none := by
  have h := withIn_next _ _ _ (withIdent_next _ _ _ (withSig_next _ _ _ h))
  cases h
  rfl

theorem encLoop_cases (msg : Bytes) (s t : State) (h : encLoop msg s = .next t) :
    (∃ att, runLoop (attemptEnc s.cfg.order s.cfg.nopfx (s.point 0) msg) s = .waiting att ∧ t = s.awaitDraw att) ∨
      (∃ att rng, runLoop (attemptEnc s.cfg.order s.cfg.nopfx (s.point 0) msg) s = .exhausted att rng ∧
        t = ((s.drew rng).emptied .obuf).complete false att (some .encryptionGeneration)) ∨
      ∃ c att rng,
        runLoop (attemptEnc s.cfg.order s.cfg.nopfx (s.point 0) msg) s = .success c att rng ∧
        c.length ≤ capacity .obuf ∧ t = ((s.drew rng).put .obuf c).complete false att none := by
  unfold encLoop at h
  split at h
  · rename_i att hr; cases h; exact .inl ⟨att, hr, rfl⟩
  · rename_i att rng hr; cases h; exact .inr (.inl ⟨att, rng, hr, rfl⟩)
  · rename_i c att rng hr
    obtain ⟨hl, hk⟩ := putOut_next _ _ _ _ h
    cases hk
    exact .inr (.inr ⟨c, att, rng, hr, hl, rfl⟩)

theorem execSm2enc_cases (s t : State) (h : execSm2enc s = .next t) :
    (s.ilen.toNat = 0 ∧ t = (s.put .obuf []).complete false 0 none) ∨
      (∃ e, t = (s.emptied .obuf).complete false 0 (some e)) ∨
      (s.ilen.toNat ≠ 0 ∧ validPoint (s.point 0) = true ∧ encLoop (s.ibuf.readBytes 0 s.ilen.toNat) s = .next t) := by
  unfold execSm2enc at h
  split at h
  · rename_i h0
    obtain ⟨_, hk⟩ := putOut_next _ _ _ _ h
    cases hk
    exact .inl ⟨h0, rfl⟩
  · rename_i h0
    split at h
    · cases h; exact .inr (.inl ⟨_, rfl⟩)
    · split at h
      · cases h; exact .inr (.inl ⟨_, rfl⟩)
      · rename_i hv
        exact .inr (.inr ⟨h0, by simpa using hv, withIn_next _ _ _ h⟩)

theorem execSm2dec_cases (s t : State) (h : execSm2dec s = .next t) : OutOrError s t .obuf := by
  unfold execSm2dec at h
  split at h
  · obtain ⟨hl, hk⟩ := putOut_next _ _ _ _ h
    cases hk
    exact .inr ⟨_, hl, rfl⟩
  · have h := withIn_next _ _ _ h
    split at h
    · cases h; exact .inl ⟨_, rfl⟩
    · obtain ⟨hl, hk⟩ := putOut_next _ _ _ _ h
      cases hk
      exact .inr ⟨_, hl, rfl⟩

end Sys2Proof.Machine
end

