-- ==== Sys2Proof/Laws/Order.lean ====
section
/-!
SUPPORT. The group of the curve has prime order `n` (42_point.md R144, R152; the spec marks it as general knowledge):
`n · G = O` by a ladder in Jacobian coordinates, no point has order 2 because the cubic has no root, and there are at most
`2p + 1 < 3n` points.
-/
namespace Sys2Proof.Machine
open WeierstrassCurve.Affine

variable [Fact curveP.Prime]

/-- A point in Jacobian coordinates: `(X / Z^2, Y / Z^3)`, or nothing known when `Z` is 0. -/
structure Jac where
  x : Nat
  y : Nat
  z : Nat
deriving DecidableEq, Repr

/-- A number whose residue is the negative of `a`. -/
def negP (a : Nat) : Nat := curveP - a % curveP

/-- The negative, in the field. -/
theorem negP_cast (a : Nat) : ((negP a : Nat) : Fp) = -(a : Fp) := by
  unfold negP
  rw [Nat.cast_sub (Nat.mod_lt _ curveP_pos).le]
  simp

/-- Doubling in Jacobian coordinates. -/
def Jac.dbl (q : Jac) : Jac :=
  let yy := q.y * q.y % curveP
  let s := 4 * q.x * yy % curveP
  let zz := q.z * q.z % curveP
  let m := (3 * q.x * q.x + curveA * zz * zz) % curveP
  let x3 := (m * m + negP (2 * s)) % curveP
  ⟨x3, (m * (s + negP x3) + negP (8 * yy * yy)) % curveP, 2 * q.y * q.z % curveP⟩

/-- Adding the point `(x2, y2)`. -/
def Jac.addAff (q : Jac) (x2 y2 : Nat) : Jac :=
  let zz := q.z * q.z % curveP
  let h := (x2 * zz + negP q.x) % curveP
  let r := (y2 * zz * q.z + negP q.y) % curveP
  let hh := h * h % curveP
  let x3 := (r * r + negP (hh * h) + negP (2 * q.x * hh)) % curveP
  ⟨x3, (r * (q.x * hh + negP x3) + negP (q.y * hh * h)) % curveP, q.z * h % curveP⟩

/-- Double-and-add in Jacobian coordinates. -/
def Jac.mulBits (x2 y2 k : Nat) : Nat → Jac → Jac
  | 0, q => q
  | i + 1, q => Jac.mulBits x2 y2 k i (if k.testBit i then q.dbl.addAff x2 y2 else q.dbl)

/-- The triple stands for the point, unless `Z` is 0. -/
def JRep (q : Jac) (P : curve.Point) : Prop :=
  (q.z : Fp) ≠ 0 → ∃ h, P = .some ((q.x : Fp) / (q.z : Fp) ^ 2) ((q.y : Fp) / (q.z : Fp) ^ 3) h

/-- Coordinates that fit a point make the triple stand for it. -/
theorem jrep_of_eq (q : Jac) (P : curve.Point) (x y : Fp) (h : curve.Nonsingular x y) (hP : P = .some x y h)
    (hx : (q.x : Fp) = x * (q.z : Fp) ^ 2) (hy : (q.y : Fp) = y * (q.z : Fp) ^ 3) : JRep q P := by
  intro hz
  have h1 : (q.x : Fp) / (q.z : Fp) ^ 2 = x := by rw [hx]; field_simp
  have h2 : (q.y : Fp) / (q.z : Fp) ^ 3 = y := by rw [hy]; field_simp
  rw [h1, h2]
  exact ⟨h, hP⟩

/-- Doubling in Jacobian coordinates is doubling. -/
theorem JRep.dbl {q : Jac} {P : curve.Point} (h : JRep q P) : JRep q.dbl (P + P) := by
  intro hz
  have hz3 : ((q.dbl.z : Nat) : Fp) = 2 * (q.y : Fp) * (q.z : Fp) := by
    unfold Jac.dbl; simp only [ZMod.natCast_mod, Nat.cast_mul, Nat.cast_ofNat]
  have hz0 : (q.z : Fp) ≠ 0 := by intro h0; apply hz; rw [hz3, h0, mul_zero]
  have hy0 : (q.y : Fp) ≠ 0 := by intro h0; apply hz; rw [hz3, h0]; ring
  obtain ⟨hn, rfl⟩ := h hz0
  set x := (q.x : Fp) / (q.z : Fp) ^ 2 with hx
  set y := (q.y : Fp) / (q.z : Fp) ^ 3 with hy
  have hqx : (q.x : Fp) = x * (q.z : Fp) ^ 2 := by rw [hx]; field_simp
  have hqy : (q.y : Fp) = y * (q.z : Fp) ^ 3 := by rw [hy]; field_simp
  have hyne : y ≠ 0 := by rw [hy]; exact div_ne_zero hy0 (pow_ne_zero _ hz0)
  have hyn : y ≠ curve.negY x y := by
    rw [curve_negY]
    intro he
    apply mul_ne_zero two_ne_zero_F hyne
    rw [two_mul]; nth_rw 1 [he]; exact neg_add_cancel _
  have hsl : curve.slope x x y y = (3 * x ^ 2 + (curveA : Fp)) / (2 * y) := by
    rw [slope_of_Y_ne rfl hyn, curve_negY, curve_a₁, curve_a₂, curve_a₄]
    exact congrArg₂ (· / ·) (by ring) (by ring)
  have hx3 : ((q.dbl.x : Nat) : Fp) = curve.addX x x (curve.slope x x y y) * (q.dbl.z : Fp) ^ 2 := by
    rw [hz3, hsl]
    unfold Jac.dbl
    simp only [ZMod.natCast_mod, negP_cast, Nat.cast_add, Nat.cast_mul, Nat.cast_ofNat]
    simp only [addX, curve_a₁, curve_a₂]
    rw [hqx, hqy]
    have h2 := two_ne_zero_F
    field_simp
    ring
  have hy3 : ((q.dbl.y : Nat) : Fp) = curve.addY x x y (curve.slope x x y y) * (q.dbl.z : Fp) ^ 3 := by
    have e : ((q.dbl.y : Nat) : Fp) = (3 * (q.x : Fp) ^ 2 + (curveA : Fp) * (q.z : Fp) ^ 4) *
        (4 * (q.x : Fp) * (q.y : Fp) ^ 2 - (q.dbl.x : Fp)) - 8 * (q.y : Fp) ^ 4 := by
      unfold Jac.dbl
      simp only [ZMod.natCast_mod, negP_cast, Nat.cast_add, Nat.cast_mul, Nat.cast_ofNat]
      ring
    rw [e, hx3, hz3, hsl]
    simp only [addY, negAddY, negY, addX, curve_a₁, curve_a₂, curve_a₃]
    rw [hqx, hqy]
    have h2 := two_ne_zero_F
    field_simp
    ring
  exact jrep_of_eq _ _ _ _ _ (Point.add_self_of_Y_ne hyn) hx3 hy3 hz

/-- Adding an affine point in Jacobian coordinates is addition. -/
theorem JRep.addAff {q : Jac} {P : curve.Point} (h : JRep q P) (x2 y2 : Nat) (hn2 : curve.Nonsingular (x2 : Fp) (y2 : Fp)) :
    JRep (q.addAff x2 y2) (P + .some _ _ hn2) := by
  intro hz
  have hz3 : ((q.addAff x2 y2).z : Fp) = (q.z : Fp) * ((x2 : Fp) * (q.z : Fp) ^ 2 - (q.x : Fp)) := by
    unfold Jac.addAff
    simp only [ZMod.natCast_mod, negP_cast, Nat.cast_add, Nat.cast_mul]
    ring
  have hz0 : (q.z : Fp) ≠ 0 := by intro h0; apply hz; rw [hz3, h0, zero_mul]
  obtain ⟨hn, rfl⟩ := h hz0
  set x := (q.x : Fp) / (q.z : Fp) ^ 2 with hx
  set y := (q.y : Fp) / (q.z : Fp) ^ 3 with hy
  have hqx : (q.x : Fp) = x * (q.z : Fp) ^ 2 := by rw [hx]; field_simp
  have hqy : (q.y : Fp) = y * (q.z : Fp) ^ 3 := by rw [hy]; field_simp
  have hxne : x ≠ (x2 : Fp) := by
    intro he
    apply hz
    rw [hz3, hqx, he]
    ring
  have hd : x - (x2 : Fp) ≠ 0 := sub_ne_zero.2 hxne
  have hsl : curve.slope x (x2 : Fp) y (y2 : Fp) = (y - (y2 : Fp)) / (x - (x2 : Fp)) := slope_of_X_ne hxne
  have hx3 : ((q.addAff x2 y2).x : Fp) =
      curve.addX x (x2 : Fp) (curve.slope x (x2 : Fp) y (y2 : Fp)) * ((q.addAff x2 y2).z : Fp) ^ 2 := by
    rw [hz3, hsl]
    unfold Jac.addAff
    simp only [ZMod.natCast_mod, negP_cast, Nat.cast_add, Nat.cast_mul, Nat.cast_ofNat]
    simp only [addX, curve_a₁, curve_a₂]
    rw [hqx, hqy]
    field_simp
    ring
  have hy3 : ((q.addAff x2 y2).y : Fp) =
      curve.addY x (x2 : Fp) y (curve.slope x (x2 : Fp) y (y2 : Fp)) * ((q.addAff x2 y2).z : Fp) ^ 3 := by
    have e : ((q.addAff x2 y2).y : Fp) = ((y2 : Fp) * (q.z : Fp) ^ 3 - (q.y : Fp)) *
        ((q.x : Fp) * ((x2 : Fp) * (q.z : Fp) ^ 2 - (q.x : Fp)) ^ 2 - ((q.addAff x2 y2).x : Fp)) -
        (q.y : Fp) * ((x2 : Fp) * (q.z : Fp) ^ 2 - (q.x : Fp)) ^ 3 := by
      unfold Jac.addAff
      simp only [ZMod.natCast_mod, negP_cast, Nat.cast_add, Nat.cast_mul, Nat.cast_ofNat]
      ring
    rw [e, hx3, hz3, hsl]
    simp only [addY, negAddY, negY, addX, curve_a₁, curve_a₂, curve_a₃]
    rw [hqx, hqy]
    field_simp
    ring
  exact jrep_of_eq _ _ _ _ _ (Point.add_of_X_ne hxne) hx3 hy3 hz

/-- The ladder computes the multiple. -/
theorem JRep.mulBits {q : Jac} {A : curve.Point} (ha : JRep q A) (x2 y2 : Nat)
    (hn2 : curve.Nonsingular (x2 : Fp) (y2 : Fp)) (k i : Nat) :
    JRep (Jac.mulBits x2 y2 k i q) (2 ^ i • A + (k % 2 ^ i) • (Point.some _ _ hn2 : curve.Point)) := by
  induction i generalizing q A with
  | zero => simpa [Jac.mulBits, Nat.mod_one] using ha
  | succ i ih =>
    unfold Jac.mulBits
    cases hb : k.testBit i with
    | false =>
      have e : 2 ^ (i + 1) • A + (k % 2 ^ (i + 1)) • (Point.some _ _ hn2 : curve.Point) =
          2 ^ i • (A + A) + (k % 2 ^ i) • (Point.some _ _ hn2 : curve.Point) := by
        rw [mod_two_pow_succ_testBit, hb, ← two_nsmul, ← mul_nsmul', pow_succ]
        simp
      rw [e]
      exact ih ha.dbl
    | true =>
      have e : 2 ^ (i + 1) • A + (k % 2 ^ (i + 1)) • (Point.some _ _ hn2 : curve.Point) =
          2 ^ i • (A + A + Point.some _ _ hn2) + (k % 2 ^ i) • (Point.some _ _ hn2 : curve.Point) := by
        rw [mod_two_pow_succ_testBit, hb, ← two_nsmul, pow_succ]
        simp only [if_true, add_nsmul, nsmul_add, mul_nsmul']
        abel
      rw [e]
      exact ih (ha.dbl.addAff x2 y2 hn2)

omit [Fact curveP.Prime] in
theorem baseG_valid : validPoint baseG = true := by decide +kernel

omit [Fact curveP.Prime] in
/-- What the ladder leaves for `n - 1` from the bit below the top: `-G`, with `Z` not 0. -/
theorem ladder_check :
    (let q := Jac.mulBits curveGx curveGy (curveN - 1 - 2 ^ 255) 255 ⟨curveGx, curveGy, 1⟩
     decide (q.z % curveP ≠ 0) && decide (q.x % curveP = curveGx * (q.z * q.z) % curveP) &&
     decide ((q.y + curveGy * (q.z * q.z * q.z)) % curveP = 0)) = true := by decide +kernel

theorem curveG_nonsingular : curve.Nonsingular (curveGx : Fp) (curveGy : Fp) :=
  ((validPoint_aff curveGx curveGy).1 baseG_valid).2.2

/-- The base point (R121) as a point of the curve. -/
def pointG : curve.Point := .some (curveGx : Fp) (curveGy : Fp) curveG_nonsingular

theorem rep_baseG : Rep baseG pointG := .aff _ _ (by decide +kernel) (by decide +kernel) curveG_nonsingular

theorem pointG_ne_zero : pointG ≠ 0 := Point.some_ne_zero _

/-- `n · G = O` (R121). -/
theorem curveN_nsmul_pointG : curveN • pointG = 0 := by
  have hrep : JRep ⟨curveGx, curveGy, 1⟩ pointG := by
    apply jrep_of_eq _ _ _ _ curveG_nonsingular rfl <;> simp
  have h := hrep.mulBits curveGx curveGy curveG_nonsingular (curveN - 1 - 2 ^ 255) 255
  have e : 2 ^ 255 • pointG + ((curveN - 1 - 2 ^ 255) % 2 ^ 255) • pointG = (curveN - 1) • pointG := by
    rw [← add_nsmul]
    exact congrArg (· • pointG) (by decide +kernel)
  have hc := ladder_check
  generalize Jac.mulBits curveGx curveGy (curveN - 1 - 2 ^ 255) 255 ⟨curveGx, curveGy, 1⟩ = q at h hc
  simp only [Bool.and_eq_true, decide_eq_true_eq] at hc
  obtain ⟨⟨hz, hx⟩, hy⟩ := hc
  have hzF : (q.z : Fp) ≠ 0 := (natCast_zmod_ne_zero _ _).2 hz
  have hxF : (q.x : Fp) = (curveGx : Fp) * (q.z : Fp) ^ 2 := by
    have := (ZMod.natCast_eq_natCast_iff' _ _ curveP).2 hx
    rw [this]
    push_cast
    ring
  have hyF : (q.y : Fp) = -(curveGy : Fp) * (q.z : Fp) ^ 3 := by
    have := (ZMod.natCast_eq_zero_iff _ curveP).2 (Nat.dvd_of_mod_eq_zero hy)
    push_cast at this
    linear_combination this
  obtain ⟨hn, hP⟩ := h hzF
  have h1 : (q.x : Fp) / (q.z : Fp) ^ 2 = (curveGx : Fp) := by rw [hxF]; field_simp
  have h2 : (q.y : Fp) / (q.z : Fp) ^ 3 = curve.negY (curveGx : Fp) (curveGy : Fp) := by
    rw [hyF, curve_negY]; field_simp
  have key : ∀ (X Y : Fp) (hn : curve.Nonsingular X Y), X = (curveGx : Fp) →
      Y = curve.negY (curveGx : Fp) (curveGy : Fp) → (Point.some X Y hn : curve.Point) = -pointG := by
    rintro X Y hn rfl rfl
    exact (Point.neg_some _).symm
  have hm : (curveN - 1) • pointG = -pointG := by
    rw [← e]
    exact hP.trans (key _ _ hn h1 h2)
  have h3 : curveN • pointG = (curveN - 1) • pointG + pointG := by
    rw [← succ_nsmul]
    exact congrArg (· • pointG) (Nat.succ_pred_eq_of_pos curveN_pos).symm
  rw [h3, hm, neg_add_cancel]

/-- `G` has order `n`. -/
theorem addOrderOf_pointG : addOrderOf pointG = curveN := by
  have := Fact.mk curveN_prime
  exact addOrderOf_eq_prime curveN_nsmul_pointG pointG_ne_zero

/-- A multiple of `G` is `O` exactly for the multiples of `n`. -/
theorem nsmul_pointG_eq_zero (k : Nat) : k • pointG = 0 ↔ k % curveN = 0 := by
  rw [← addOrderOf_dvd_iff_nsmul_eq_zero, addOrderOf_pointG, Nat.dvd_iff_mod_eq_zero]

/-- A quadratic polynomial, for the residues modulo `x^3 + a·x + b`. -/
structure Quad where
  c0 : Nat
  c1 : Nat
  c2 : Nat
deriving DecidableEq, Repr

/-- The product modulo `x^3 + a·x + b`, where `x^3 = -a·x - b`. -/
def Quad.mul (u v : Quad) : Quad :=
  let d3 := (u.c1 * v.c2 + u.c2 * v.c1) % curveP
  let d4 := u.c2 * v.c2 % curveP
  ⟨(u.c0 * v.c0 + negP curveB * d3) % curveP,
   (u.c0 * v.c1 + u.c1 * v.c0 + negP curveA * d3 + negP curveB * d4) % curveP,
   (u.c0 * v.c2 + u.c1 * v.c1 + u.c2 * v.c0 + negP curveA * d4) % curveP⟩

/-- `x^e` by the bits of `e` below `i`, most significant first. -/
def Quad.powBits (e : Nat) : Nat → Quad → Quad
  | 0, q => q
  | i + 1, q => Quad.powBits e i (if e.testBit i then (q.mul q).mul ⟨0, 1, 0⟩ else q.mul q)

/-- The value at `t`. -/
def Quad.eval (q : Quad) (t : Fp) : Fp := q.c0 + q.c1 * t + q.c2 * t ^ 2

/-- At a root of the cubic, the value of a product is the product of the values. -/
theorem Quad.eval_mul (u v : Quad) (t : Fp) (ht : t * t * t + (curveA : Fp) * t + (curveB : Fp) = 0) :
    (u.mul v).eval t = u.eval t * v.eval t := by
  unfold Quad.mul Quad.eval
  simp only [ZMod.natCast_mod, negP_cast, Nat.cast_add, Nat.cast_mul]
  have h3 : t ^ 3 = -((curveA : Fp) * t) - (curveB : Fp) := by linear_combination ht
  have h4 : t ^ 4 = -((curveA : Fp) * t ^ 2) - (curveB : Fp) * t := by linear_combination t * ht
  linear_combination (-((u.c1 : Fp) * v.c2 + (u.c2 : Fp) * v.c1)) * h3 - ((u.c2 : Fp) * v.c2) * h4

/-- At a root of the cubic, the value of a power of `x`. -/
theorem Quad.eval_powBits (e i : Nat) (q : Quad) (t : Fp) (ht : t * t * t + (curveA : Fp) * t + (curveB : Fp) = 0) :
    (Quad.powBits e i q).eval t = q.eval t ^ 2 ^ i * t ^ (e % 2 ^ i) := by
  induction i generalizing q with
  | zero => simp [Quad.powBits, Nat.mod_one]
  | succ i ih =>
    rw [Quad.powBits, ih, mod_two_pow_succ_testBit]
    have hx : (⟨0, 1, 0⟩ : Quad).eval t = t := by simp [Quad.eval]
    cases e.testBit i with
    | false =>
      simp only [Bool.false_eq_true, if_false, Nat.zero_add]
      rw [Quad.eval_mul _ _ _ ht, ← pow_two, ← pow_mul, pow_succ 2 i, Nat.mul_comm 2]
    | true =>
      simp only [if_true]
      rw [Quad.eval_mul _ _ _ ht, Quad.eval_mul _ _ _ ht, hx, ← pow_two, mul_pow, ← pow_mul, pow_succ 2 i, Nat.mul_comm 2,
        pow_add, mul_assoc]

/-- `x^p` modulo `x^3 + a·x + b`, computed. -/
def frobX : Quad where
  c0 := 0x359865aceb51b6bdbb593b2ef47adcfc3f45e863340cf767d4064d47e8c104f3
  c1 := 0x1a5d31e005823ce76ebd68c618616c3b124e72376ab0f34ef26c933456e8cc28
  c2 := 0x6533cd290a5724a12253626885c29181e05d0bcde5f9844c95fcd95c0b9f7d86

omit [Fact curveP.Prime] in
theorem frobX_check : Quad.powBits curveP 256 ⟨1, 0, 0⟩ = frobX := by decide +kernel

/-- `u · (x^3 + a·x + b) + v · (x^p - x) = 1`, coefficient by coefficient. -/
def bezU : Quad where
  c0 := 0x4917f432249badbcf54b21b41af8c280ab08cc7ea1b75ab3c9f9eb90fd77a6b4
  c1 := 0x3e9189e4cef372aefe3a81ad506c3f8352cf6d44b72776c828fa4557b6aefe5b
  c2 := 0

/-- The other cofactor. -/
def bezV : Quad where
  c0 := 0xeb9539fb12a69fa8a00429afc717f1319f0c8d5b6b742939772c4ea8ae886749
  c1 := 0xbbea3c6e4f9890bc31aef1ce9abbeaf4847d5c84bfa4437849cb29256264e8b1
  c2 := 0x4eacc0d01f9e2a10d4f0056c0628ef26e06a3759ce9c5557561509c6fc21376f

omit [Fact curveP.Prime] in
theorem bezout_check : bezV.mul ⟨frobX.c0, frobX.c1 + negP 1, frobX.c2⟩ = ⟨1, 0, 0⟩ := by decide +kernel

/-- No point of the curve has ordinate 0: `x^3 + a·x + b` has no root (R143). -/
theorem no_root (t : Fp) : t * t * t + (curveA : Fp) * t + (curveB : Fp) ≠ 0 := by
  intro ht
  have h1 := Quad.eval_powBits curveP 256 ⟨1, 0, 0⟩ t ht
  rw [frobX_check, Nat.mod_eq_of_lt (show curveP < 2 ^ 256 by decide +kernel), ZMod.pow_card] at h1
  have h1' : frobX.eval t = t := by
    rw [h1]
    simp [Quad.eval]
  have h2 := Quad.eval_mul bezV ⟨frobX.c0, frobX.c1 + negP 1, frobX.c2⟩ t ht
  rw [bezout_check] at h2
  have h3 : (⟨frobX.c0, frobX.c1 + negP 1, frobX.c2⟩ : Quad).eval t = frobX.eval t - t := by
    simp only [Quad.eval, Nat.cast_add, negP_cast, Nat.cast_one]
    ring
  rw [h3, h1', sub_self, mul_zero] at h2
  simp [Quad.eval] at h2

/-- A point of the curve as its abscissa and the parity of its ordinate. -/
def halve : curve.Point → Option (Fp × Bool)
  | .zero => none
  | .some x y _ => some (x, decide (y.val % 2 = 0))

/-- Abscissa and parity of the ordinate determine a point. -/
theorem halve_injective : Function.Injective halve := by
  intro P Q h
  cases P with
  | zero =>
    cases Q with
    | zero => rfl
    | some x y hn => simp [halve] at h
  | some x y hn =>
    cases Q with
    | zero => simp [halve] at h
    | some x' y' hn' =>
      simp only [halve, Option.some.injEq, Prod.mk.injEq, decide_eq_decide] at h
      obtain ⟨rfl, hp⟩ := h
      rcases Y_eq_of_X_eq hn.1 hn'.1 rfl with h | h
      · subst h; rfl
      · rw [curve_negY] at h
        subst h
        exfalso
        by_cases h0 : y' = 0
        · subst h0
          have he := (curve_equation x 0).1 hn'.1
          exact no_root x (by rw [← he]; ring)
        · have := Fact.mk h0
          have hv := ZMod.neg_val y'
          rw [if_neg h0] at hv
          rw [hv] at hp
          have hl := ZMod.val_lt y'
          have hodd := curveP_odd
          clear hn hn' this h0
          generalize ZMod.val y' = k at *
          generalize ZMod.val (-y') = k' at *
          generalize curveP = p at *
          omega

open Classical in
/-- Every point of the curve has order dividing `n`: the group has prime order and cofactor 1 (R144, R152). -/
theorem curveN_nsmul (P : curve.Point) : curveN • P = 0 := by
  have hfin : Finite curve.Point := Finite.of_injective halve halve_injective
  have hcard : Nat.card curve.Point ≤ 2 * curveP + 1 := by
    have h := Nat.card_le_card_of_injective halve halve_injective
    have h2 : Nat.card (Option (Fp × Bool)) = 2 * curveP + 1 := by
      rw [Nat.card_eq_fintype_card, Fintype.card_option, Fintype.card_prod, ZMod.card, Fintype.card_bool, Nat.mul_comm]
    rwa [h2] at h
  have hpos : 0 < Nat.card curve.Point := Nat.card_pos
  have hdvd : curveN ∣ Nat.card curve.Point := by
    have h := addOrderOf_dvd_natCard pointG
    rwa [addOrderOf_pointG] at h
  obtain ⟨m, hm⟩ := hdvd
  have hm3 : m < 3 := by
    by_contra hge
    have h1 : curveN * 3 ≤ curveN * m := Nat.mul_le_mul_left _ (by omega)
    have h2 : 2 * curveP + 1 < curveN * 3 := by decide +kernel
    exact absurd (h1.trans (hm ▸ hcard)) (not_le.2 h2)
  have hm2 : m ≠ 2 := by
    rintro rfl
    have hf2 : Fact (Nat.Prime 2) := ⟨Nat.prime_two⟩
    obtain ⟨Q, hQ⟩ := exists_prime_addOrderOf_dvd_card' (G := curve.Point) 2 (hm ▸ Dvd.intro_left _ rfl)
    have h2 : Q + Q = 0 := by
      rw [← two_nsmul, ← hQ]
      exact addOrderOf_nsmul_eq_zero Q
    cases Q with
    | zero =>
      have : addOrderOf (0 : curve.Point) = 2 := hQ
      rw [addOrderOf_zero] at this
      omega
    | some x y hn =>
      have hneg := eq_neg_of_add_eq_zero_left h2
      rw [Point.neg_some] at hneg
      injection hneg with h3 h4
      rw [curve_negY] at h4
      have h0 : y = 0 := by
        have : (2 : Fp) * y = 0 := by rw [two_mul]; nth_rw 1 [h4]; exact neg_add_cancel _
        exact (mul_eq_zero.1 this).resolve_left two_ne_zero_F
      subst h0
      have he := (curve_equation x 0).1 hn.1
      exact no_root x (by rw [← he]; ring)
  have hm1 : m = 1 := by
    have : m ≠ 0 := by rintro rfl; rw [Nat.mul_zero] at hm; omega
    omega
  rw [hm1, Nat.mul_one] at hm
  rw [← hm]
  exact card_nsmul_eq_zero'

end Sys2Proof.Machine
end

