-- ==== Sys2Proof/Laws/PerInstr.lean ====
section
/-!
SUPPORT. Laws stated for each command as syntax: bits 31:24 of its word are its opcode (30_encoding.md R90, R94).
-/
namespace Sys2Proof.Laws.Opcode
open Sys2Proof

/-- The opcode column of R94. -/
def number : Instr → Nat
  | .modadd _ _ _ _ => 0x10
  | .modsub _ _ _ _ => 0x11
  | .modmul _ _ _ _ => 0x12
  | .modinv _ _ _ => 0x13
  | .montmul _ _ _ _ => 0x14
  | .ldc _ _ => 0x15
  | .padd _ _ _ => 0x20
  | .pdbl _ _ => 0x21
  | .pmul _ _ _ => 0x22
  | .pchk _ => 0x23
  | .pldg _ => 0x24
  | .penc _ => 0x25
  | .pdec _ => 0x26
  | .sm3init => 0x30
  | .sm3blk => 0x31
  | .sm3hash => 0x32
  | .kdfgen _ => 0x40
  | .kdfxor => 0x41
  | .derenc _ _ => 0x50
  | .derdec _ _ => 0x51
  | .sm2key => 0x60
  | .sm2z => 0x61
  | .sm2sign => 0x62
  | .sm2vfy => 0x63
  | .sm2enc => 0x64
  | .sm2dec => 0x65

/-- The opcode field of the command's word is the command's opcode. -/
def Statement (i : Instr) : Prop := opcodeField (encode i) = number i

/-- The opcode field of a word of format R. -/
theorem opcode_wordR (op f1 f2 f3 f4 m : Nat) (h0 : op < 256) (h1 : f1 < 16) (h2 : f2 < 16) (h3 : f3 < 16) (h4 : f4 < 16)
    (h5 : m < 2) : opcodeField (wordR op f1 f2 f3 f4 m) = op := by
  rw [opcodeField, wordField_def, wordR_toNat op f1 f2 f3 f4 m h0 h1 h2 h3 h4 h5]
  omega

/-- The opcode field of a word of format I. -/
theorem opcode_wordI (op imm : Nat) (h0 : op < 256) (h1 : imm < 65536) : opcodeField (wordI op imm) = op := by
  rw [opcodeField, wordField_def, wordI_toNat op imm h0 h1]
  omega

theorem modadd (rd ra rb : Reg) (m : Modulus) : Statement (.modadd rd ra rb m) :=
  opcode_wordR _ _ _ _ _ _ (by decide) rd.isLt ra.isLt rb.isLt (by decide) (modBit_lt m)

theorem modsub (rd ra rb : Reg) (m : Modulus) : Statement (.modsub rd ra rb m) :=
  opcode_wordR _ _ _ _ _ _ (by decide) rd.isLt ra.isLt rb.isLt (by decide) (modBit_lt m)

theorem modmul (rd ra rb : Reg) (m : Modulus) : Statement (.modmul rd ra rb m) :=
  opcode_wordR _ _ _ _ _ _ (by decide) rd.isLt ra.isLt rb.isLt (by decide) (modBit_lt m)

theorem modinv (rd ra : Reg) (m : Modulus) : Statement (.modinv rd ra m) :=
  opcode_wordR _ _ _ _ _ _ (by decide) rd.isLt ra.isLt (by decide) (by decide) (modBit_lt m)

theorem montmul (rd ra rb : Reg) (m : Modulus) : Statement (.montmul rd ra rb m) :=
  opcode_wordR _ _ _ _ _ _ (by decide) rd.isLt ra.isLt rb.isLt (by decide) (modBit_lt m)

theorem ldc (rd : Reg) (c : Const) : Statement (.ldc rd c) :=
  opcode_wordR _ _ _ _ _ _ (by decide) rd.isLt (by decide) (by decide) (by have := constIndex_lt c; omega) (by decide)

theorem padd (pd pa pb : PReg) : Statement (.padd pd pa pb) :=
  opcode_wordR _ _ _ _ _ _ (by decide) (by have := pd.isLt; omega) (by have := pa.isLt; omega) (by have := pb.isLt; omega) (by decide) (by decide)

theorem pdbl (pd pa : PReg) : Statement (.pdbl pd pa) :=
  opcode_wordR _ _ _ _ _ _ (by decide) (by have := pd.isLt; omega) (by have := pa.isLt; omega) (by decide) (by decide) (by decide)

theorem pmul (pd pa : PReg) (rk : Reg) : Statement (.pmul pd pa rk) :=
  opcode_wordR _ _ _ _ _ _ (by decide) (by have := pd.isLt; omega) (by have := pa.isLt; omega) (by decide) rk.isLt (by decide)

theorem pchk (pa : PReg) : Statement (.pchk pa) :=
  opcode_wordR _ _ _ _ _ _ (by decide) (by decide) (by have := pa.isLt; omega) (by decide) (by decide) (by decide)

theorem pldg (pd : PReg) : Statement (.pldg pd) :=
  opcode_wordR _ _ _ _ _ _ (by decide) (by have := pd.isLt; omega) (by decide) (by decide) (by decide) (by decide)

theorem penc (pa : PReg) : Statement (.penc pa) :=
  opcode_wordR _ _ _ _ _ _ (by decide) (by decide) (by have := pa.isLt; omega) (by decide) (by decide) (by decide)

theorem pdec (pd : PReg) : Statement (.pdec pd) :=
  opcode_wordR _ _ _ _ _ _ (by decide) (by have := pd.isLt; omega) (by decide) (by decide) (by decide) (by decide)

theorem sm3init : Statement .sm3init :=
  rfl

theorem sm3blk : Statement .sm3blk :=
  rfl

theorem sm3hash : Statement .sm3hash :=
  rfl

theorem kdfgen (l : BitVec 16) : Statement (.kdfgen l) :=
  opcode_wordI _ _ (by decide) l.isLt

theorem kdfxor : Statement .kdfxor :=
  rfl

theorem derenc (ra rb : Reg) : Statement (.derenc ra rb) :=
  opcode_wordR _ _ _ _ _ _ (by decide) (by decide) ra.isLt rb.isLt (by decide) (by decide)

theorem derdec (rd re : Reg) : Statement (.derdec rd re) :=
  opcode_wordR _ _ _ _ _ _ (by decide) rd.isLt re.isLt (by decide) (by decide) (by decide)

theorem sm2key : Statement .sm2key :=
  rfl

theorem sm2z : Statement .sm2z :=
  rfl

theorem sm2sign : Statement .sm2sign :=
  rfl

theorem sm2vfy : Statement .sm2vfy :=
  rfl

theorem sm2enc : Statement .sm2enc :=
  rfl

theorem sm2dec : Statement .sm2dec :=
  rfl

end Sys2Proof.Laws.Opcode
end

