-- ==== Sys2Proof/Laws/Sm2.lean ====
section
/-!
SUPPORT. Laws of the SM2 engine (46_sm2.md): what one attempt, one verification and one decryption give, in terms of the
points they compute.
-/
namespace Sys2Proof.Machine

/-- An attempt of SM2SIGN whose multiple of G is known (R222). -/
theorem attemptSign_eq (d e k x1 y1 : Nat) (h : scalarMul baseG k = .aff x1 y1) :
    attemptSign d e k =
      if (e + x1) % curveN = 0 ∨ (e + x1) % curveN + k = curveN then none
      else if modInv curveN (1 + d) * imod ((k : Int) - ((e + x1) % curveN : Nat) * d) curveN % curveN = 0 then none
      else some ((e + x1) % curveN,
        modInv curveN (1 + d) * imod ((k : Int) - ((e + x1) % curveN : Nat) * d) curveN % curveN) := by
  unfold attemptSign
  rw [h]

/-- An attempt of SM2ENC whose two multiples are known (R236). -/
theorem attemptEnc_eq (order nopfx : Bool) (q : AffinePoint) (msg : Bytes) (k x1 y1 x2 y2 : Nat)
    (hg : scalarMul baseG k = .aff x1 y1) (hq : scalarMul q k = .aff x2 y2) :
    attemptEnc order nopfx q msg k =
      if allZero (kdf (be 32 x2 ++ be 32 y2) msg.length) then none
      else some (joinCipher order (encodePoint nopfx x1 y1) (sm3 (be 32 x2 ++ msg ++ be 32 y2))
        (xorBytes msg (kdf (be 32 x2 ++ be 32 y2) msg.length))) := by
  unfold attemptEnc
  rw [hg, hq]

/-- `Verify()` past its parse, range, identity and point tests, its two multiples summed (R228). -/
theorem verify_eq (sig : Bytes) (r sg xq yq x1 y1 : Nat) (ident msg : Bytes) (hp : derParse sig = some (r, sg))
    (hr : 1 ≤ r ∧ r ≤ curveN - 1) (hs : 1 ≤ sg ∧ sg ≤ curveN - 1) (hi : ident.length ≤ 8191)
    (hv : validPoint (.aff xq yq) = true) (ht : (r + sg) % curveN ≠ 0)
    (ha : ptAdd (scalarMul baseG sg) (scalarMul (.aff xq yq) ((r + sg) % curveN)) = .aff x1 y1) :
    verify sig (.aff xq yq) ident msg = decide ((digestE ident xq yq msg + x1) % curveN = r) := by
  unfold verify
  rw [hp]
  have hid : Config.idMax = 8191 := rfl
  simp only [hv, ha, hid]
  rw [if_neg (by omega), if_neg (by omega), if_neg (by omega), if_neg (by decide), if_neg ht]

/-- The tests of SM2DEC passed and its multiple known, what decides is C3 (R242). -/
theorem decryptBytes_eq (order nopfx : Bool) (d : Nat) (c : Bytes) (xc yc x2 y2 : Nat) (hd : validScalar d = true)
    (hl : c1Length nopfx + 32 ≤ c.length) (hc : c1Point nopfx c = some (xc, yc)) (hv : validPoint (.aff xc yc) = true)
    (hm : scalarMul (.aff xc yc) d = .aff x2 y2) :
    decryptBytes order nopfx d c =
      if sm3 (be 32 x2 ++ xorBytes (splitCipher order nopfx c).2
          (kdf (be 32 x2 ++ be 32 y2) (splitCipher order nopfx c).2.length) ++ be 32 y2) ≠ (splitCipher order nopfx c).1
      then .error .decryptionIntegrity
      else .ok (xorBytes (splitCipher order nopfx c).2
        (kdf (be 32 x2 ++ be 32 y2) (splitCipher order nopfx c).2.length)) := by
  unfold decryptBytes
  rw [if_neg (by rw [hd]; decide), if_neg (by omega), hc]
  simp only [hv, hm]
  rw [if_neg (by decide)]

end Sys2Proof.Machine
end

