-- ==== Sys2Proof/Laws/Sm3.lean ====
section
/-!
SUPPORT. Laws of SM3 and of the KDF (43_sm3.md, 44_kdf.md): lengths, the blocks of a padded message, the blocks of a
keystream.
-/
namespace Sys2Proof.Machine

/-- Eight words are 32 bytes. -/
@[simp] theorem chainBytes_length (v : Vector Word 8) : (chainBytes v).length = 32 := by
  unfold chainBytes
  rw [List.length_flatMap]
  simp

/-- A digest has 32 bytes (R170). -/
@[simp] theorem sm3_length (msg : Bytes) : (sm3 msg).length = 32 := chainBytes_length _

/-- The padding in numbers (R175). -/
theorem sm3Pad_length (msg : Bytes) :
    (sm3Pad msg).length = msg.length + 9 + imod (55 - (msg.length : Int)) 64 := by
  unfold sm3Pad
  simp
  omega

/-- A padded message is whole blocks (R175). -/
theorem sm3Pad_dvd (msg : Bytes) : 64 ∣ (sm3Pad msg).length := by
  rw [sm3Pad_length]
  have h := imod_cast (55 - (msg.length : Int)) 64 (by norm_num)
  omega

/-- The blocks of a message from block `k` on, one more. -/
theorem sm3Blocks_succ (k : Nat) (pm : Bytes) (v : Vector Word 8) :
    sm3Blocks (k + 1) pm v = sm3CF (sm3Blocks k pm v) ((pm.drop (64 * k)).take 64) := by
  induction k generalizing pm v with
  | zero => simp [sm3Blocks]
  | succ k ih =>
    have h := ih (pm.drop 64) (sm3CF v (pm.take 64))
    rw [List.drop_drop, show 64 + 64 * k = 64 * (k + 1) by omega] at h
    exact h

/-- A count of 32 bits is hashed as its four bytes (R190). -/
theorem kdfCounter_of_lt (ct : Nat) (h : ct < 2 ^ 32) : kdfCounter ct = be 4 ct := if_pos h

/-- The untruncated keystream is whole digests (R190). -/
@[simp] theorem kdfBlocks_length (z : Bytes) (k ct : Nat) : (kdfBlocks z k ct).length = 32 * k := by
  induction k generalizing ct with
  | zero => rfl
  | succ k ih =>
    unfold kdfBlocks
    rw [List.length_append, sm3_length, ih]
    omega

/-- A keystream has the length asked for (R190). -/
@[simp] theorem kdf_length (z : Bytes) (l : Nat) : (kdf z l).length = l := by
  unfold kdf
  rw [List.length_take, kdfBlocks_length]
  omega

/-- More blocks of a keystream start with the fewer (R193). -/
theorem kdfBlocks_add (z : Bytes) (j k ct : Nat) :
    kdfBlocks z (j + k) ct = kdfBlocks z j ct ++ kdfBlocks z k (ct + j) := by
  induction j generalizing ct with
  | zero => simp [kdfBlocks]
  | succ j ih =>
    have h : ∀ n, kdfBlocks z (n + 1) ct = sm3 (z ++ kdfCounter ct) ++ kdfBlocks z n (ct + 1) := fun _ => rfl
    rw [Nat.add_right_comm, h, h, ih, List.append_assoc, show ct + 1 + j = ct + (j + 1) by omega]

end Sys2Proof.Machine
end

