-- ==== Sys2Proof/Laws/Window.lean ====
section
/-!
SUPPORT. Laws of the register window (20_memory.md R61 to R74): bytes of 256-bit registers, places of offsets, addresses,
what a write does in and out of the BUSY interval.
-/
namespace Sys2Proof.Machine

/-- Out of the BUSY interval a host write has its effect. -/
theorem writeUnlessBusy_of_idle (s t : State) (h : s.busy = false) : writeUnlessBusy s t = t.respond .ack := by
  simp [writeUnlessBusy, h]

/-- In the BUSY interval a host write is ignored (R297). -/
theorem writeUnlessBusy_of_busy (s t : State) (h : s.busy = true) : writeUnlessBusy s t = s.respond .ack := by
  simp [writeUnlessBusy, h]

/-- Byte `j` of a register is byte `j` of `be_32(value)` (R61). -/
theorem getByte_eq_be (v : Big) (j : Nat) (hj : j < 32) : getByte v j = (be 32 v.toNat).getD j 0 := by
  rw [be_getD 32 v.toNat j hj]
  have h : 248 - 8 * j = 8 * (32 - 1 - j) := by omega
  unfold getByte
  rw [h, Nat.pow_mul]

/-- Bit `i` of byte `j` of a register (R61: bits `255-8j` down to `248-8j`). -/
theorem getLsbD_getByte (v : Big) (j i : Nat) :
    (getByte v j).getLsbD i = (decide (i < 8) && v.getLsbD (248 - 8 * j + i)) := by
  unfold getByte
  rw [BitVec.getLsbD_ofNat, Nat.testBit_div_two_pow, BitVec.getLsbD, Nat.add_comm i]

/-- Bit `i` of a register whose byte `j` was replaced. -/
theorem getLsbD_setByte (v : Big) (j : Nat) (b : Byte) (i : Nat) (hi : i < 256) :
    (setByte v j b).getLsbD i =
      if 248 - 8 * j ≤ i ∧ i < 248 - 8 * j + 8 then b.getLsbD (i - (248 - 8 * j)) else v.getLsbD i := by
  have hff : ∀ k, (0xFF#256).getLsbD k = decide (k < 8) := by
    intro k
    rw [show (0xFF#256 : BitVec 256) = BitVec.ofNat 256 (2 ^ 8 - 1) from rfl, BitVec.getLsbD_ofNat, Nat.testBit_two_pow_sub_one]
    by_cases hk : k < 8
    · simp [hk, show k < 256 by omega]
    · simp [hk]
  unfold setByte
  rw [BitVec.getLsbD_or, BitVec.getLsbD_and, BitVec.getLsbD_not, BitVec.getLsbD_shiftLeft, BitVec.getLsbD_shiftLeft,
    BitVec.getLsbD_setWidth, hff]
  by_cases h1 : i < 248 - 8 * j
  · simp [h1, hi, show ¬(248 - 8 * j ≤ i) by omega]
  · by_cases h2 : i - (248 - 8 * j) < 8
    · simp [h1, h2, hi, show 248 - 8 * j ≤ i by omega, show i < 248 - 8 * j + 8 by omega,
        show i - (248 - 8 * j) < 256 by omega]
    · have h3 : b.getLsbD (i - (248 - 8 * j)) = false := BitVec.getLsbD_of_ge _ _ (by omega)
      simp [h1, h2, hi, h3, show ¬(i < 248 - 8 * j + 8) by omega]

/-- A byte stored is read back. -/
theorem getByte_setByte_same (v : Big) (j : Nat) (b : Byte) (hj : j < 32) : getByte (setByte v j b) j = b := by
  apply BitVec.eq_of_getLsbD_eq
  intro i hi
  rw [getLsbD_getByte, getLsbD_setByte _ _ _ _ (by omega), if_pos (by omega)]
  simp [hi]

/-- A byte stored leaves the others. -/
theorem getByte_setByte_of_ne (v : Big) (j k : Nat) (b : Byte) (hj : j < 32) (hk : k < 32) (h : j ≠ k) :
    getByte (setByte v j b) k = getByte v k := by
  apply BitVec.eq_of_getLsbD_eq
  intro i hi
  rw [getLsbD_getByte, getLsbD_getByte, getLsbD_setByte _ _ _ _ (by omega), if_neg (by omega)]

/-- A register is its 32 bytes. -/
theorem big_ext_bytes (v w : Big) (h : ∀ j, j < 32 → getByte v j = getByte w j) : v = w := by
  apply BitVec.eq_of_getLsbD_eq
  intro i hi
  have h1 := congrArg (fun b => b.getLsbD (i % 8)) (h (31 - i / 8) (by omega))
  simp only [getLsbD_getByte] at h1
  rwa [show 248 - 8 * (31 - i / 8) + i % 8 = i by omega, show decide (i % 8 < 8) = true from decide_eq_true (by omega),
    Bool.true_and, Bool.true_and] at h1

/-- An offset of the window seen from the bus (R72). -/
theorem offsetOf_base_add (off : Nat) (h : off < Config.windowSize) : offsetOf (Config.base + off) = some off := by
  unfold offsetOf
  refine (if_pos ⟨by omega, by omega⟩).trans (congrArg some ?_)
  omega

/-- A stride of the buffers is at least 0x1000 (R72). -/
theorem bstride_ge : 0x1000 ≤ Config.bstride := by
  unfold Config.bstride
  exact le_max_left _ _

/-- The window has at least 0x4000 bytes (R72). -/
theorem windowSize_ge : 0x4000 ≤ Config.windowSize := by
  have h := bstride_ge
  unfold Config.windowSize
  omega

/-- The offsets of the big-number registers (R72). -/
theorem placeOf_reg (k : Reg) (j : Nat) (hj : j < 0x20) : placeOf (0x400 + 0x20 * k + j) = .reg k j := by
  have hk := k.isLt
  unfold placeOf
  refine (if_neg (by omega)).trans ?_
  refine (if_neg (by omega)).trans ?_
  refine (if_neg (by omega)).trans ?_
  refine (if_neg (by omega)).trans ?_
  refine (if_neg (by omega)).trans ?_
  refine (if_pos (by omega)).trans ?_
  exact congrArg₂ Place.reg (Fin.ext (by simp only [Fin.val_ofNat]; omega)) (by omega)

/-- The offsets of the fields X of the point registers (R72). -/
theorem placeOf_pointX (k : PReg) (j : Nat) (hj : j < 0x20) : placeOf (0x100 + 0x60 * k + j) = .pointX k j := by
  have hk := k.isLt
  unfold placeOf
  refine (if_neg (by omega)).trans ?_
  refine (if_neg (by omega)).trans ?_
  refine (if_neg (by omega)).trans ?_
  refine (if_pos (by omega)).trans ?_
  unfold placePoint
  refine (if_pos (by omega)).trans ?_
  exact congrArg₂ Place.pointX (Fin.ext (by simp only [Fin.val_ofNat]; omega)) (by omega)

/-- The offsets of the fields Y of the point registers (R72). -/
theorem placeOf_pointY (k : PReg) (j : Nat) (hj : j < 0x20) : placeOf (0x120 + 0x60 * k + j) = .pointY k j := by
  have hk := k.isLt
  unfold placeOf
  refine (if_neg (by omega)).trans ?_
  refine (if_neg (by omega)).trans ?_
  refine (if_neg (by omega)).trans ?_
  refine (if_pos (by omega)).trans ?_
  unfold placePoint
  refine (if_neg (by omega)).trans ?_
  refine (if_pos (by omega)).trans ?_
  exact congrArg₂ Place.pointY (Fin.ext (by simp only [Fin.val_ofNat]; omega)) (by omega)

/-- Every offset below 0x4000 is in the window. -/
theorem lt_windowSize (off : Nat) (h : off < 0x4000) : off < Config.windowSize := lt_of_lt_of_le h windowSize_ge

/-- The offsets of the SM3 chaining words (R72). -/
theorem placeOf_chain (i : Fin 8) : placeOf (0x020 + 4 * i) = .chain i := by
  have hi := i.isLt
  unfold placeOf
  refine (if_pos (by omega)).trans ?_
  unfold placeControl
  iterate 8 refine (if_neg (by omega)).trans ?_
  exact congrArg Place.chain (Fin.ext (by simp only [Fin.val_ofNat]; omega))

/-- The offsets of the INF words (R72). -/
theorem placeOf_pointInf (k : PReg) (j : Nat) (hj : j < 4) : placeOf (0x140 + 0x60 * k + j) = .pointInf k := by
  have hk := k.isLt
  unfold placeOf
  refine (if_neg (by omega)).trans ?_
  refine (if_neg (by omega)).trans ?_
  refine (if_neg (by omega)).trans ?_
  refine (if_pos (by omega)).trans ?_
  unfold placePoint
  refine (if_neg (by omega)).trans ?_
  refine (if_neg (by omega)).trans ?_
  refine (if_pos (by omega)).trans ?_
  exact congrArg Place.pointInf (Fin.ext (by simp only [Fin.val_ofNat]; omega))

/-- The stride of the buffers is a multiple of 4 (R72). -/
theorem four_dvd_bstride : 4 ∣ Config.bstride := by
  have h : 2 ≤ Nat.clog 2 Config.bufBytes := by
    have h1 := bufBytes_ge
    have h2 : Nat.clog 2 256 ≤ Nat.clog 2 Config.bufBytes := Nat.clog_mono_right 2 h1
    have h3 : Nat.clog 2 256 = 8 := by rw [show (256 : Nat) = 2 ^ 8 from rfl, Nat.clog_pow 2 8 (by norm_num)]
    omega
  have h4 : 2 ^ 2 ∣ 2 ^ Nat.clog 2 Config.bufBytes := pow_dvd_pow 2 h
  unfold Config.bstride
  rcases max_choice 0x1000 (2 ^ Nat.clog 2 Config.bufBytes) with h5 | h5
  · rw [h5]; norm_num
  · rw [h5]; exact h4

/-- No buffer exceeds the stride of the buffers (R72). -/
theorem bufBytes_le_bstride : Config.bufBytes ≤ Config.bstride := by
  unfold Config.bstride
  exact (Nat.le_pow_clog (by norm_num) _).trans (le_max_right _ _)

/-- The place at an offset of one of the strides (R72). -/
theorem placeOf_stride (q j : Nat) (hq : 1 ≤ q) (hj : j < Config.bstride) :
    placeOf (q * Config.bstride + j) = placeStride q j := by
  have hb := bstride_ge
  have hle : Config.bstride ≤ q * Config.bstride := Nat.le_mul_of_pos_left _ hq
  have h1 : (q * Config.bstride + j) % Config.bstride = j := by
    rw [Nat.mul_comm, Nat.mul_add_mod, Nat.mod_eq_of_lt hj]
  have h2 : (q * Config.bstride + j) / Config.bstride = q := by
    rw [Nat.mul_comm, Nat.mul_add_div (by omega), Nat.div_eq_of_lt hj, Nat.add_zero]
  unfold placeOf
  refine (if_neg (by omega)).trans ?_
  refine (if_neg (by omega)).trans ?_
  refine (if_neg (by omega)).trans ?_
  refine (if_neg (by omega)).trans ?_
  refine (if_neg (by omega)).trans ?_
  refine (if_neg (by omega)).trans ?_
  refine (if_neg (by omega)).trans ?_
  exact congrArg₂ placeStride h2 h1

/-- The offsets of IBUF, OBUF and ABUF (R72). -/
theorem placeOf_ibuf (j : Nat) (h : j < Config.bufBytes) : placeOf (1 * Config.bstride + j) = .buf .ibuf j :=
  (placeOf_stride 1 j (by norm_num) (h.trans_le bufBytes_le_bstride)).trans (if_neg (by omega))

theorem placeOf_obuf (j : Nat) (h : j < Config.bufBytes) : placeOf (2 * Config.bstride + j) = .buf .obuf j :=
  (placeOf_stride 2 j (by norm_num) (h.trans_le bufBytes_le_bstride)).trans (if_neg (by omega))

theorem placeOf_abuf (j : Nat) (h : j < Config.bufBytes) : placeOf (3 * Config.bstride + j) = .buf .abuf j :=
  (placeOf_stride 3 j (by norm_num) (h.trans_le bufBytes_le_bstride)).trans (if_neg (by omega))

/-- The offsets of SIGBUF (R72). -/
theorem placeOf_sigbuf (j : Nat) (hj : j < 72) : placeOf (0x040 + j) = .buf .sigbuf j := by
  unfold placeOf
  refine (if_neg (by omega)).trans ?_
  refine (if_pos (by omega)).trans ?_
  exact congrArg₂ Place.buf rfl (by omega)

/-- A bus access at an address of the window is the access at its offset (R72). -/
theorem busAccess_of_addr (a : BusAccess) (off : Nat) (s : State) (ha : a.addr = Config.base + off)
    (h : off < Config.windowSize) : busAccess a s = .next (accessAt off a s) := by
  unfold busAccess
  rw [ha, offsetOf_base_add off h]

/-- When a bus access goes on, its address is in the window and it is the access at its offset. -/
theorem busAccess_next (a : BusAccess) (s t : State) (h : busAccess a s = .next t) :
    ∃ off, a.addr = Config.base + off ∧ off < Config.windowSize ∧ t = accessAt off a s := by
  unfold busAccess at h
  cases ho : offsetOf a.addr with
  | none => rw [ho] at h; exact absurd h (by simp)
  | some off =>
    rw [ho] at h
    have ht : t = accessAt off a s := (Host.Outcome.next.inj h).symm
    unfold offsetOf at ho
    by_cases hc : Config.base ≤ a.addr ∧ a.addr < Config.base + Config.windowSize
    · have ho' : some (a.addr - Config.base) = some off := (if_pos hc).symm.trans ho
      have := Option.some.inj ho'
      exact ⟨off, by omega, by omega, ht⟩
    · have ho' : (none : Option Nat) = some off := (if_neg hc).symm.trans ho
      cases ho'

/-- A byte read at a place of a byte-addressable region or at a reserved offset (R61, R74). -/
theorem readByte_place (off : Nat) (s : State) (p : Place) (h : off < Config.windowSize) (hp : placeOf off = p)
    (hw : p.wordOnly = false) :
    busAccess (.readByte (Config.base + off)) s = .next (s.respond (.byte (loadPlace s p))) := by
  refine (busAccess_of_addr _ off s rfl h).trans (congrArg _ ?_)
  unfold accessAt readByteAt
  rw [hp, hw]
  rfl

/-- A byte write at a place of a byte-addressable region or at a reserved offset. -/
theorem writeByte_place (off : Nat) (v : Byte) (s : State) (p : Place) (h : off < Config.windowSize)
    (hp : placeOf off = p) (hw : p.wordOnly = false) :
    busAccess (.writeByte (Config.base + off) v) s = .next (writeUnlessBusy s (storePlace s v p)) := by
  refine (busAccess_of_addr _ off s rfl h).trans (congrArg _ ?_)
  unfold accessAt writeByteAt
  rw [hp, hw]
  rfl

/-- An aligned word read. -/
theorem readWord_place (off : Nat) (s : State) (p : Place) (h : off < Config.windowSize) (h4 : off % 4 = 0)
    (hp : placeOf off = p) : busAccess (.readWord (Config.base + off)) s = .next (readWordPlace off s p) := by
  refine (busAccess_of_addr _ off s rfl h).trans (congrArg _ ?_)
  unfold accessAt readWordAt
  rw [hp]
  exact if_neg (not_not.2 h4)

/-- An aligned word write. -/
theorem writeWord_place (off : Nat) (v : Word) (s : State) (p : Place) (h : off < Config.windowSize) (h4 : off % 4 = 0)
    (hp : placeOf off = p) : busAccess (.writeWord (Config.base + off) v) s = .next (writeWordPlace off v s p) := by
  refine (busAccess_of_addr _ off s rfl h).trans (congrArg _ ?_)
  unfold accessAt writeWordAt
  rw [hp]
  exact if_neg (not_not.2 h4)

/-- One access, then the others. -/
theorem busAll_cons (a : BusAccess) (rest : List BusAccess) (s : State) :
    busAll (a :: rest) s = thenDo (busAccess a s) (busAll rest) := rfl

theorem thenDo_next (t : State) (k : State → Result) : thenDo (.next t) k = k t := rfl

theorem busAll_nil (s : State) : busAll [] s = .next s := rfl

/-- Which values a host write of ILEN or ALEN takes (R35, R37). -/
theorem lenWritable_ibuf (w : Word) : lenWritable .ibuf w = true ↔ w.toNat ≤ Config.bufBytes := decide_eq_true_iff

theorem lenWritable_abuf (w : Word) : lenWritable .abuf w = true ↔ w.toNat ≤ Config.bufBytes := decide_eq_true_iff

/-- Which values a host write of SIGLEN takes (R38). -/
theorem lenWritable_sigbuf (w : Word) : lenWritable .sigbuf w = true ↔ w.toNat ≤ 72 := decide_eq_true_iff

/-- Which bytes of SIGBUF the host writes (R39). -/
theorem byteWritable_sigbuf (off : Nat) : byteWritable .sigbuf off = true ↔ off < 72 := decide_eq_true_iff

/-- Every reserved offset is a reserved place (R72, R74). -/
theorem placeOf_reserved (A : Nat) (h : IsReserved A) : placeOf A = .reserved := by
  have hb := bstride_ge
  rcases h with ⟨h1, h2⟩ | ⟨k, h1, h2⟩ | ⟨h1, h2⟩ | ⟨h1, h2⟩ | ⟨q, h1, h2, h3, h4⟩
  · unfold placeOf
    refine (if_neg (by omega)).trans ?_
    refine (if_neg (by omega)).trans ?_
    exact if_pos (by omega)
  · have hk := k.isLt
    unfold placeOf
    refine (if_neg (by omega)).trans ?_
    refine (if_neg (by omega)).trans ?_
    refine (if_neg (by omega)).trans ?_
    refine (if_pos (by omega)).trans ?_
    unfold placePoint
    refine (if_neg (by omega)).trans ?_
    refine (if_neg (by omega)).trans ?_
    exact if_neg (by omega)
  · unfold placeOf
    refine (if_neg (by omega)).trans ?_
    refine (if_neg (by omega)).trans ?_
    refine (if_neg (by omega)).trans ?_
    refine (if_neg (by omega)).trans ?_
    exact if_pos (by omega)
  · unfold placeOf
    refine (if_neg (by omega)).trans ?_
    refine (if_neg (by omega)).trans ?_
    refine (if_neg (by omega)).trans ?_
    refine (if_neg (by omega)).trans ?_
    refine (if_neg (by omega)).trans ?_
    refine (if_neg (by omega)).trans ?_
    exact if_pos (by omega)
  · rw [Nat.add_mul, Nat.one_mul] at h4
    obtain ⟨j, rfl⟩ : ∃ j, A = q * Config.bstride + j := ⟨A - q * Config.bstride, by omega⟩
    exact (placeOf_stride q j h1 (by omega)).trans (if_pos (by omega))

/-- Every reserved offset is in the window. -/
theorem lt_windowSize_of_reserved (A : Nat) (h : IsReserved A) : A < Config.windowSize := by
  have hb := bstride_ge
  unfold Config.windowSize
  rcases h with ⟨h1, h2⟩ | ⟨k, h1, h2⟩ | ⟨h1, h2⟩ | ⟨h1, h2⟩ | ⟨q, h1, h2, h3, h4⟩
  · omega
  · have hk := k.isLt
    omega
  · omega
  · omega
  · exact h4.trans_le (Nat.mul_le_mul_right _ (by omega))

/-- An aligned word at a reserved offset is reserved whole (R72). -/
theorem IsReserved.word {A : Nat} (h : IsReserved A) (h4 : A % 4 = 0) (i : Nat) (hi : i < 4) : IsReserved (A + i) := by
  obtain ⟨c, hc⟩ := four_dvd_bstride
  rcases h with ⟨h1, h2⟩ | ⟨k, h1, h2⟩ | ⟨h1, h2⟩ | ⟨h1, h2⟩ | ⟨q, h1, h2, h3, h5⟩
  · exact .inl (by omega)
  · exact .inr (.inl ⟨k, by omega, by omega⟩)
  · exact .inr (.inr (.inl (by omega)))
  · exact .inr (.inr (.inr (.inl (by omega))))
  · refine .inr (.inr (.inr (.inr ⟨q, h1, h2, by omega, ?_⟩)))
    have : (q + 1) * Config.bstride = 4 * ((q + 1) * c) := by rw [hc]; ring
    omega

/-- Which bytes of IBUF, ABUF and SIGBUF the host writes (R39, R42). -/
theorem byteWritable_iff (b : Buf) (hb : b ≠ .obuf) (j : Nat) : byteWritable b j = true ↔ j < capacity b := by
  cases b
  · exact decide_eq_true_iff
  · exact absurd rfl hb
  · exact decide_eq_true_iff
  · exact decide_eq_true_iff

/-- A host write of a buffer byte within the capacity (R39, R42). -/
theorem storeByte_of_lt (s : State) (b : Buf) (hb : b ≠ .obuf) (j : Nat) (x : Byte) (hj : j < capacity b) :
    storeByte s b j x = s.setMem b ((s.mem b).write j x) := if_pos ((byteWritable_iff b hb j).2 hj)

/-- Bytes stored from an offset on at which index `j` of a buffer is found, reserved places beyond the capacity: exactly
the bytes within the capacity are stored (R39, R61, R74). -/
theorem storeBytes_buf (b : Buf) (hb : b ≠ .obuf) (s : State) (hs : ∀ b, (s.mem b).wf) (off j : Nat) (v : Bytes)
    (hp : ∀ i, i < v.length → (j + i < capacity b → placeOf (off + i) = .buf b (j + i)) ∧
      (capacity b ≤ j + i → placeOf (off + i) = .reserved)) :
    ∃ m : Memory, m.wf ∧ storeBytes s off v = s.setMem b m ∧ ∀ i, m.read i =
      if j ≤ i ∧ i < j + v.length ∧ i < capacity b then v.getD (i - j) 0 else (s.mem b).read i := by
  induction v generalizing s off j with
  | nil =>
    refine ⟨s.mem b, hs b, by cases b <;> rfl, ?_⟩
    intro i
    rw [if_neg (by simp only [List.length_nil]; omega)]
  | cons x t ih =>
    have h0 := hp 0 (by simp)
    rw [Nat.add_zero, Nat.add_zero] at h0
    have hp' : ∀ i, i < t.length → (j + 1 + i < capacity b → placeOf (off + 1 + i) = .buf b (j + 1 + i)) ∧
        (capacity b ≤ j + 1 + i → placeOf (off + 1 + i) = .reserved) := by
      intro i hi
      have := hp (i + 1) (by simpa using hi)
      rwa [show off + (i + 1) = off + 1 + i by omega, show j + (i + 1) = j + 1 + i by omega] at this
    unfold storeBytes
    by_cases hc : j < capacity b
    · have e : storePlace s x (placeOf off) = s.setMem b ((s.mem b).write j x) := by
        rw [h0.1 hc]
        exact storeByte_of_lt s b hb j x hc
      have hw : ∀ c, ((s.setMem b ((s.mem b).write j x)).mem c).wf := by
        intro c
        rw [State.mem_setMem]
        split
        · exact (s.mem b).wf_write (hs b) j x
        · exact hs c
      rw [e]
      obtain ⟨m, h1, h2, h3⟩ := ih _ hw (off + 1) (j + 1) hp'
      refine ⟨m, h1, ?_, ?_⟩
      · rw [h2]
        cases b <;> rfl
      · intro i
        rw [h3, State.mem_setMem, if_pos rfl, Memory.read_write _ (hs b)]
        simp only [List.length_cons]
        by_cases hij : i = j
        · subst hij
          rw [if_neg (by omega), if_pos rfl, if_pos (by omega)]
          simp
        · rw [if_neg (Ne.symm hij)]
          by_cases hh : j + 1 ≤ i ∧ i < j + 1 + t.length ∧ i < capacity b
          · rw [if_pos hh, if_pos (by omega), show i - j = (i - (j + 1)) + 1 by omega]
            rfl
          · rw [if_neg hh, if_neg (by omega)]
    · have e : storePlace s x (placeOf off) = s := by
        rw [h0.2 (by omega)]
        rfl
      rw [e]
      obtain ⟨m, h1, h2, h3⟩ := ih s hs (off + 1) (j + 1) hp'
      refine ⟨m, h1, h2, ?_⟩
      intro i
      rw [h3, if_neg (by omega), if_neg (by omega)]

/-- Bytes stored at reserved places or in OBUF change nothing (R42, R74). -/
theorem storeBytes_ignored (s : State) (off : Nat) (v : Bytes)
    (hp : ∀ i, i < v.length → placeOf (off + i) = .reserved ∨ ∃ j, placeOf (off + i) = .buf .obuf j) :
    storeBytes s off v = s := by
  induction v generalizing off with
  | nil => rfl
  | cons x t ih =>
    have h0 := hp 0 (by simp)
    rw [Nat.add_zero] at h0
    have e : storePlace s x (placeOf off) = s := by
      rcases h0 with h0 | ⟨j, h0⟩ <;> rw [h0] <;> rfl
    unfold storeBytes
    rw [e]
    refine ih (off + 1) fun i hi => ?_
    have := hp (i + 1) (by simpa using hi)
    rwa [show off + (i + 1) = off + 1 + i by omega] at this

/-- A 256-bit value with its bytes from byte `j` on replaced by those of a string (R61). -/
def setBytes (v : Big) (j : Nat) : Bytes → Big
  | [] => v
  | b :: t => setBytes (setByte v j b) (j + 1) t

/-- The bytes of the mixture of an old value and the bytes stored over it (R61, R65). -/
theorem setBytes_getD (v : Big) (j : Nat) (l : Bytes) (h : j + l.length ≤ 32) (i : Nat) (hi : i < 32) :
    (be 32 (setBytes v j l).toNat).getD i 0 =
      if j ≤ i ∧ i < j + l.length then l.getD (i - j) 0 else (be 32 v.toNat).getD i 0 := by
  rw [← getByte_eq_be _ _ hi, ← getByte_eq_be _ _ hi]
  induction l generalizing v j with
  | nil =>
    rw [if_neg (by simp only [List.length_nil]; omega)]
    rfl
  | cons b t ih =>
    simp only [List.length_cons] at h ⊢
    rw [setBytes, ih _ _ (by omega)]
    by_cases hij : i = j
    · subst hij
      rw [if_neg (by omega), if_pos (by omega), getByte_setByte_same _ _ _ hi]
      simp
    · rw [getByte_setByte_of_ne _ _ _ _ (by omega) hi (by omega)]
      by_cases hh : j + 1 ≤ i ∧ i < j + 1 + t.length
      · rw [if_pos hh, if_pos (by omega), show i - j = (i - (j + 1)) + 1 by omega]
        rfl
      · rw [if_neg hh, if_neg (by omega)]

/-- Bytes stored at the place of a big-number register, from its byte `j` on (R61). -/
theorem storeBytes_reg (s : State) (k : Reg) (off j : Nat) (l : Bytes)
    (hp : ∀ i, i < l.length → placeOf (off + i) = .reg k (j + i)) :
    storeBytes s off l = s.setReg k (setBytes (s.reg k) j l) := by
  induction l generalizing s off j with
  | nil =>
    show s = { s with r := s.r.set k s.r[k] }
    simp
  | cons b t ih =>
    have h0 := hp 0 (by simp)
    have ht : ∀ i, i < t.length → placeOf (off + 1 + i) = .reg k (j + 1 + i) := by
      intro i hi
      have h := hp (i + 1) (by simpa using hi)
      rwa [show off + (i + 1) = off + 1 + i by omega, show j + (i + 1) = j + 1 + i by omega] at h
    rw [Nat.add_zero, Nat.add_zero] at h0
    unfold storeBytes
    rw [h0, ih _ _ (j + 1) ht]
    simp [storePlace, setBytes, State.setReg, State.reg]

/-- Bytes stored at the place of the field X of a point register, from its byte `j` on (R61). -/
theorem storeBytes_pointX (s : State) (k : PReg) (off j : Nat) (l : Bytes)
    (hp : ∀ i, i < l.length → placeOf (off + i) = .pointX k (j + i)) :
    storeBytes s off l = storeX s k (setBytes (s.preg k).x j l) := by
  induction l generalizing s off j with
  | nil =>
    show s = { s with p := s.p.set k s.p[k] }
    simp
  | cons b t ih =>
    have h0 := hp 0 (by simp)
    have ht : ∀ i, i < t.length → placeOf (off + 1 + i) = .pointX k (j + 1 + i) := by
      intro i hi
      have h := hp (i + 1) (by simpa using hi)
      rwa [show off + (i + 1) = off + 1 + i by omega, show j + (i + 1) = j + 1 + i by omega] at h
    rw [Nat.add_zero, Nat.add_zero] at h0
    unfold storeBytes
    rw [h0, ih _ _ (j + 1) ht]
    simp [storePlace, setBytes, storeX, State.setPreg, State.preg]

/-- Bytes stored at the place of the field Y of a point register, from its byte `j` on (R61). -/
theorem storeBytes_pointY (s : State) (k : PReg) (off j : Nat) (l : Bytes)
    (hp : ∀ i, i < l.length → placeOf (off + i) = .pointY k (j + i)) :
    storeBytes s off l = storeY s k (setBytes (s.preg k).y j l) := by
  induction l generalizing s off j with
  | nil =>
    show s = { s with p := s.p.set k s.p[k] }
    simp
  | cons b t ih =>
    have h0 := hp 0 (by simp)
    have ht : ∀ i, i < t.length → placeOf (off + 1 + i) = .pointY k (j + 1 + i) := by
      intro i hi
      have h := hp (i + 1) (by simpa using hi)
      rwa [show off + (i + 1) = off + 1 + i by omega, show j + (i + 1) = j + 1 + i by omega] at h
    rw [Nat.add_zero, Nat.add_zero] at h0
    unfold storeBytes
    rw [h0, ih _ _ (j + 1) ht]
    simp [storePlace, setBytes, storeY, State.setPreg, State.preg]

end Sys2Proof.Machine
end

