-- ==== Sys2Proof/Machine/Asm.lean ====
section
/-!
DEFINITION. Programs as 30_encoding.md R100 writes them down: the text of a command, the lines of a program (commands and
the directives for host actions), and what a program places in the machine: the host's schedule and the answers of the
random source. A command line is the driver sequence of 70_reset_and_hazards.md R294.
-/
namespace Sys2Proof.Machine

/-- `r0` to `r15` (R100). -/
def asmReg (k : Reg) : String := "r" ++ toString k.val

/-- `p0` to `p3` (R100). -/
def asmPReg (k : PReg) : String := "p" ++ toString k.val

/-- The modulus, `p` or `n` (R100). -/
def asmModulus : Modulus → String
  | .p => "p"
  | .n => "n"

/-- The name of an LDC constant (R100). -/
def asmConst : Const → String
  | .P => "P"
  | .A => "A"
  | .B => "B"
  | .N => "N"
  | .GX => "GX"
  | .GY => "GY"

/-- The operands of a command in the order destination, sources, modulus (R100). -/
def asmOperands : Instr → List String
  | .modadd rd ra rb m => [asmReg rd, asmReg ra, asmReg rb, asmModulus m]
  | .modsub rd ra rb m => [asmReg rd, asmReg ra, asmReg rb, asmModulus m]
  | .modmul rd ra rb m => [asmReg rd, asmReg ra, asmReg rb, asmModulus m]
  | .modinv rd ra m => [asmReg rd, asmReg ra, asmModulus m]
  | .montmul rd ra rb m => [asmReg rd, asmReg ra, asmReg rb, asmModulus m]
  | .ldc rd c => [asmReg rd, asmConst c]
  | .padd pd pa pb => [asmPReg pd, asmPReg pa, asmPReg pb]
  | .pdbl pd pa => [asmPReg pd, asmPReg pa]
  | .pmul pd pa rk => [asmPReg pd, asmPReg pa, asmReg rk]
  | .pchk pa => [asmPReg pa]
  | .pldg pd => [asmPReg pd]
  | .penc pa => [asmPReg pa]
  | .pdec pd => [asmPReg pd]
  | .sm3init => []
  | .sm3blk => []
  | .sm3hash => []
  | .kdfgen l => [toString l.toNat]
  | .kdfxor => []
  | .derenc ra rb => [asmReg ra, asmReg rb]
  | .derdec rd re => [asmReg rd, asmReg re]
  | .sm2key => []
  | .sm2z => []
  | .sm2sign => []
  | .sm2vfy => []
  | .sm2enc => []
  | .sm2dec => []

/-- The line of a command (R100). -/
def asmLine (i : Instr) : String :=
  match asmOperands i with
  | [] => mnemonic i
  | ops => mnemonic i ++ " " ++ String.intercalate ", " ops

/-- The fields of CFG a `.cfg` directive names (R33, R100). -/
inductive CfgField where
  | order
  | nopfx
  | idset
  | blankq
deriving DecidableEq, Repr

/-- A line of a program (R100). -/
inductive AsmLine where
  /-- A command. -/
  | command (i : Instr)
  /-- `.reg rK = v`. -/
  | reg (k : Reg) (v : Big)
  /-- `.point pK = (x, y)`. -/
  | point (k : PReg) (x y : Big)
  /-- `.point pK = O`. -/
  | pointInf (k : PReg)
  /-- `.buf S = bytes`: sets the bytes and the length register. -/
  | buf (b : Buf) (v : Bytes)
  /-- `.cfg` with the whole register as it becomes. -/
  | cfg (w : Word)
  /-- `.cap v`. -/
  | cap (v : Word)
  /-- `.rng v, ...`: the answers of the random source, in order. -/
  | rng (vs : List Big)
  /-- `.clear`. -/
  | clear
  /-- The host action `(reset)`. -/
  | reset
deriving DecidableEq, Repr

/-- The CFG word with one field given the value `v`, the others kept: what a `.cfg NAME = v` line writes when CFG reads
`w` (R33, R100). -/
def cfgWith (w : Word) (f : CfgField) (v : Bool) : Word :=
  let c := cfgOfWord w
  match f with
  | .order => cfgWord { c with order := v }
  | .nopfx => cfgWord { c with nopfx := v }
  | .idset => cfgWord { c with idset := v }
  | .blankq => cfgWord { c with blankq := v }

/-- The host's actions for one line (R100, R294). -/
def lineEvents : AsmLine → List HostEvent
  | .command i => hostRun (encode i)
  | .reg k v => [.op (.writeReg k v)]
  | .point k x y => [.op (.writePointX k x), .op (.writePointY k y), .op (.writePointInf k false)]
  | .pointInf k => [.op (.writePointX k 0), .op (.writePointY k 0), .op (.writePointInf k true)]
  | .buf b v => hostLoad b v
  | .cfg w => [.op (.writeCfg w)]
  | .cap v => [.op (.writeCap v)]
  | .rng _ => []
  | .clear => [.op .clearStatus]
  | .reset => [.op .reset]

/-- The answers of the random source one line adds (R46, R100). -/
def lineAnswers : AsmLine → List Big
  | .command _ => []
  | .reg _ _ => []
  | .point _ _ _ => []
  | .pointInf _ => []
  | .buf _ _ => []
  | .cfg _ => []
  | .cap _ => []
  | .rng vs => vs
  | .clear => []
  | .reset => []

/-- The state with a program placed in it: its actions after those already scheduled, its answers after those already
there. The core's own state is untouched; log entry 4. -/
def State.place (s : State) (prog : List AsmLine) : State :=
  { s with
    host := s.host ++ prog.flatMap lineEvents
    rng := s.rng ++ prog.flatMap lineAnswers }

end Sys2Proof.Machine
end

