-- ==== Sys2Proof/Tests/Slice0.lean ====
section
/-!
SUPPORT. Tests. Their expected values are those of spec/95_test_vectors.md (T1 to T79) and of the worked examples in the
rules, never the model's own. One step each, on a small state. Then a witness for the hypotheses of every statement.
-/
-- Kernel evaluations one after another: each parallel one takes a thread with a stack of its own.
set_option Elab.async false

namespace Sys2Proof.Tests
open Sys2Proof Sys2Proof.Machine

/-! ### Helpers -/

/-- Does the step answer a next state of which the check holds? -/
def after (r : Result) (check : State → Bool) : Bool :=
  match r with
  | .next t => check t
  | .fault _ => false
  | .refused _ => false

/-- The bytes the host can read in OBUF. -/
def out (t : State) : Bytes := t.obuf.readBytes 0 t.olen.toNat

/-- The bytes the host can read in SIGBUF. -/
def sig (t : State) : Bytes := t.sigbuf.readBytes 0 t.siglen.toNat

/-! ### WellFormed: the one check, refused by an ill-formed term (R98 (e)) -/

theorem test_wellformed_derdec_same : (Instr.derdec 1 1).wellFormed = false := by decide

theorem test_wellformed_derdec : (Instr.derdec 1 2).wellFormed = true := by decide

/-! ### Decoding: one word of each command, from R94 and the encodings the rules print -/

theorem test_decode_modadd : decode 0x10312000#32 = .ok (.modadd 3 1 2 .p) := by decide +kernel

theorem test_decode_modsub : decode 0x11111001#32 = .ok (.modsub 1 1 1 .n) := by decide +kernel

theorem test_decode_modmul : decode 0x12312001#32 = .ok (.modmul 3 1 2 .n) := by decide +kernel

theorem test_decode_modinv : decode 0x13540000#32 = .ok (.modinv 5 4 .p) := by decide +kernel

theorem test_decode_montmul : decode 0x14345001#32 = .ok (.montmul 3 4 5 .n) := by decide +kernel

theorem test_decode_ldc : decode 0x15700300#32 = .ok (.ldc 7 .N) := by decide +kernel

theorem test_decode_padd : decode 0x20210000#32 = .ok (.padd 2 1 0) := by decide +kernel

theorem test_decode_pdbl : decode 0x21100000#32 = .ok (.pdbl 1 0) := by decide +kernel

theorem test_decode_pmul : decode 0x22100400#32 = .ok (.pmul 1 0 4) := by decide +kernel

theorem test_decode_pchk : decode 0x23030000#32 = .ok (.pchk 3) := by decide +kernel

theorem test_decode_pldg : decode 0x24100000#32 = .ok (.pldg 1) := by decide +kernel

theorem test_decode_penc : decode 0x25020000#32 = .ok (.penc 2) := by decide +kernel

theorem test_decode_pdec : decode 0x26200000#32 = .ok (.pdec 2) := by decide +kernel

theorem test_decode_sm3init : decode 0x30000000#32 = .ok (.sm3init) := by decide +kernel

theorem test_decode_sm3blk : decode 0x31000000#32 = .ok (.sm3blk) := by decide +kernel

theorem test_decode_sm3hash : decode 0x32000000#32 = .ok (.sm3hash) := by decide +kernel

theorem test_decode_kdfgen : decode 0x40000030#32 = .ok (.kdfgen 48) := by decide +kernel

theorem test_decode_kdfxor : decode 0x41000000#32 = .ok (.kdfxor) := by decide +kernel

theorem test_decode_derenc : decode 0x50043000#32 = .ok (.derenc 4 3) := by decide +kernel

theorem test_decode_derdec : decode 0x51340000#32 = .ok (.derdec 3 4) := by decide +kernel

theorem test_decode_sm2key : decode 0x60000000#32 = .ok (.sm2key) := by decide +kernel

theorem test_decode_sm2z : decode 0x61000000#32 = .ok (.sm2z) := by decide +kernel

theorem test_decode_sm2sign : decode 0x62000000#32 = .ok (.sm2sign) := by decide +kernel

theorem test_decode_sm2vfy : decode 0x63000000#32 = .ok (.sm2vfy) := by decide +kernel

theorem test_decode_sm2enc : decode 0x64000000#32 = .ok (.sm2enc) := by decide +kernel

theorem test_decode_sm2dec : decode 0x65000000#32 = .ok (.sm2dec) := by decide +kernel

/-- T19, T29, T39, T44, T54 and R98: illegal words. -/
theorem test_decode_illegal :
    [0x12312003#32, 0x13541000#32, 0x12312100#32, 0x16000000#32, 0x20410000#32, 0x21101000#32, 0x22100401#32, 0x24010000#32,
      0x30000001#32, 0x32000100#32, 0x40010000#32, 0x51110000#32, 0x15700600#32, 0x00000000#32].all
      (fun w => (decode w).toOption == none) = true := by decide +kernel

/-- R100: the text of a command, from the programs of section 8. -/
theorem test_asm : asmLine (.modmul 3 1 2 .p) = "MODMUL r3, r1, r2, p" ∧ asmLine (.ldc 1 .GX) = "LDC r1, GX" ∧
    asmLine (.kdfgen 48) = "KDFGEN 48" ∧ asmLine .sm2sign = "SM2SIGN" := by decide +kernel

/-! ### One step of each command -/

/-- T2: `max + max` mod n. -/
theorem test_modadd :
    after (step (State.withFetchWord (State.setReg State.reset 1 0xFFFFFFFFFFFFFFFFFFFFFFFFFFFFFFFFFFFFFFFFFFFFFFFFFFFFFFFFFFFFFFFF#256)
        32 0x10311001))
      (fun t => t.err == none && t.done && !t.busy &&
        t.reg 3 == 0x000000020000000000000000000000011BF84129BC73F5A9588817ED8C557DB8#256) = true := by
  decide +kernel

/-- T2: `(p - 1) + 1 = 0`. -/
theorem test_modadd_wraps :
    after (step (State.withFetchWord (State.setReg (State.setReg (State.setReg State.reset 1 0xfffffffeffffffffffffffffffffffffffffffff00000000fffffffffffffffe#256) 2 1#256) 3 7#256)
        32 0x10312000))
      (fun t => t.err == none && t.done && !t.busy &&
        t.reg 3 == 0) = true := by
  decide +kernel

/-- T3: `0 - max` mod p. -/
theorem test_modsub :
    after (step (State.withFetchWord (State.setReg State.reset 2 0xFFFFFFFFFFFFFFFFFFFFFFFFFFFFFFFFFFFFFFFFFFFFFFFFFFFFFFFFFFFFFFFF#256)
        32 0x11312000))
      (fun t => t.err == none && t.done && !t.busy &&
        t.reg 3 == 0xFFFFFFFDFFFFFFFFFFFFFFFFFFFFFFFFFFFFFFFE00000001FFFFFFFFFFFFFFFF#256) = true := by
  decide +kernel

/-- T9: `r1 = Gx`, `MODSUB r1, r1, r1, n` leaves 0. -/
theorem test_modsub_alias :
    after (step (State.withFetchWord (State.setReg State.reset 1 0x32C4AE2C1F1981195F9904466A39C9948FE30BBFF2660BE1715A4589334C74C7#256)
        32 0x11111001))
      (fun t => t.err == none && t.done && !t.busy &&
        t.reg 1 == 0) = true := by
  decide +kernel

/-- T4: `Gx · Gy` mod p. -/
theorem test_modmul :
    after (step (State.withFetchWord (State.setReg (State.setReg State.reset 1 0x32C4AE2C1F1981195F9904466A39C9948FE30BBFF2660BE1715A4589334C74C7#256) 2 0xBC3736A2F4F6779C59BDCEE36B692153D0A9877CC62A474002DF32E52139F0A0#256)
        32 0x12312000))
      (fun t => t.err == none && t.done && !t.busy &&
        t.reg 3 == 0xEDD7E745BDC4630CCFA1DA1057033A525346DBF202F082F3C431349991ACE76A#256) = true := by
  decide +kernel

/-- T4: `max · max` mod n, the destination also a source (T9). -/
theorem test_modmul_unreduced :
    after (step (State.withFetchWord (State.setReg State.reset 1 0xFFFFFFFFFFFFFFFFFFFFFFFFFFFFFFFFFFFFFFFFFFFFFFFFFFFFFFFFFFFFFFFF#256)
        32 0x12111001))
      (fun t => t.err == none && t.done && !t.busy &&
        t.reg 1 == 0x1EB5E410A22B3D3B620FC84C3AFFE0D3186C0F2121FBAD5137897AC1EFBBD167#256) = true := by
  decide +kernel

/-- Program 5: `2^-1` mod n. -/
theorem test_modinv :
    after (step (State.withFetchWord (State.setReg State.reset 4 2#256)
        32 0x13540001))
      (fun t => t.err == none && t.done && !t.busy &&
        t.reg 5 == 0x7FFFFFFF7FFFFFFFFFFFFFFFFFFFFFFFB901EFB590E30295A9DDFA049CEAA092#256) = true := by
  decide +kernel

/-- T7: `r4 = p`, modulus p: ERR = 7 and `r5` unchanged. -/
theorem test_modinv_error :
    after (step (State.withFetchWord (State.setReg (State.setReg State.reset 4 0xFFFFFFFEFFFFFFFFFFFFFFFFFFFFFFFFFFFFFFFF00000000FFFFFFFFFFFFFFFF#256) 5 9#256)
        32 0x13540000))
      (fun t => statusWord t == 0x00000072#32 &&
        t.reg 5 == 9) = true := by
  decide +kernel

/-- T10: Gx, Gy, modulus p. -/
theorem test_montmul :
    after (step (State.withFetchWord (State.setReg (State.setReg State.reset 1 0x32C4AE2C1F1981195F9904466A39C9948FE30BBFF2660BE1715A4589334C74C7#256) 2 0xBC3736A2F4F6779C59BDCEE36B692153D0A9877CC62A474002DF32E52139F0A0#256)
        32 0x14312000))
      (fun t => t.err == none && t.done && !t.busy &&
        t.reg 3 == 0xF58B289869DD81686166EED2669FD7425E5BB90A194718A3C5B648D36C14C3FE#256) = true := by
  decide +kernel

/-- T11: max, max, modulus n. -/
theorem test_montmul_max :
    after (step (State.withFetchWord (State.setReg State.reset 1 0xFFFFFFFFFFFFFFFFFFFFFFFFFFFFFFFFFFFFFFFFFFFFFFFFFFFFFFFFFFFFFFFF#256)
        32 0x14311001))
      (fun t => t.err == none && t.done && !t.busy &&
        t.reg 3 == 0x6F39133013ABB48CA81BA1178588D9017EE1720D1DCFF4E6C02D47FC2DE3F4C5#256) = true := by
  decide +kernel

/-- T13: `LDC r7, B`. -/
theorem test_ldc :
    after (step (State.withFetchWord State.reset
        32 0x15700200))
      (fun t => t.err == none && t.done && !t.busy &&
        t.reg 7 == 0x28E9FA9E9D9F5E344D5A9E4BCF6509A7F39789F515AB8F92DDBCBD414D940E93#256) = true := by
  decide +kernel

/-- T13: 0x15700600: ERR = 8, `r7` unchanged. -/
theorem test_ldc_illegal :
    after (step (State.withFetchWord (State.setReg State.reset 7 5#256)
        32 0x15700600))
      (fun t => statusWord t == 0x00000082#32 &&
        t.reg 7 == 5) = true := by
  decide +kernel

/-- T21: `2G + G = 3G`. -/
theorem test_padd :
    after (step (State.withFetchWord (State.setPoint (State.setPoint State.reset 1 (.aff 0x56CEFD60D7C87C000D58EF57FA73BA4D9C0DFA08C08A7331495C2E1DA3F2BD52 0x31B7E7E6CC8189F668535CE0F8EAF1BD6DE84C182F6C8E716F780D3A970A23C3)) 0 (.aff 0x32C4AE2C1F1981195F9904466A39C9948FE30BBFF2660BE1715A4589334C74C7 0xBC3736A2F4F6779C59BDCEE36B692153D0A9877CC62A474002DF32E52139F0A0))
        32 0x20210000))
      (fun t => t.err == none && t.done && !t.busy && t.point 2 == (.aff 0xA97F7CD4B3C993B4BE2DAA8CDB41E24CA13F6BD945302244E26918F1D0509EBF 0x530B5DD88C688EF5CCC5CEC08A72150F7C400EE5CD045292AAACDD037458F6E6)) = true := by
  decide +kernel

/-- T28: `(1, 2) + (1, 3) = O`; the register then holds INF = 1, X = Y = 0 (R24). -/
theorem test_padd_off_curve :
    after (step (State.withFetchWord (State.setPoint (State.setPoint State.reset 0 (.aff 1 2)) 1 (.aff 1 3))
        32 0x20001000))
      (fun t => t.err == none && t.done && !t.busy && t.preg 0 == PointReg.infinity) = true := by
  decide +kernel

/-- T20: `2G`. -/
theorem test_pdbl :
    after (step (State.withFetchWord (State.setPoint State.reset 0 (.aff 0x32C4AE2C1F1981195F9904466A39C9948FE30BBFF2660BE1715A4589334C74C7 0xBC3736A2F4F6779C59BDCEE36B692153D0A9877CC62A474002DF32E52139F0A0))
        32 0x21100000))
      (fun t => t.err == none && t.done && !t.busy && t.point 1 == (.aff 0x56CEFD60D7C87C000D58EF57FA73BA4D9C0DFA08C08A7331495C2E1DA3F2BD52 0x31B7E7E6CC8189F668535CE0F8EAF1BD6DE84C182F6C8E716F780D3A970A23C3)) = true := by
  decide +kernel

/-- T29: `PDBL` of `(p + 1, p + 2)` gives `(p - 2, p - 2)`. -/
theorem test_pdbl_unreduced :
    after (step (State.withFetchWord (State.setPoint State.reset 0 (.aff 0xfffffffeffffffffffffffffffffffffffffffff000000010000000000000000 0xfffffffeffffffffffffffffffffffffffffffff000000010000000000000001))
        32 0x21100000))
      (fun t => t.err == none && t.done && !t.busy && t.point 1 == (.aff 0xfffffffeffffffffffffffffffffffffffffffff00000000fffffffffffffffd 0xfffffffeffffffffffffffffffffffffffffffff00000000fffffffffffffffd)) = true := by
  decide +kernel

/-- T21: `5·G`, the destination also the source. -/
theorem test_pmul :
    after (step (State.withFetchWord (State.setReg (State.setPoint State.reset 0 (.aff 0x32C4AE2C1F1981195F9904466A39C9948FE30BBFF2660BE1715A4589334C74C7 0xBC3736A2F4F6779C59BDCEE36B692153D0A9877CC62A474002DF32E52139F0A0)) 4 5)
        32 0x22000400))
      (fun t => t.err == none && t.done && !t.busy && t.point 0 == (.aff 0xC749061668652E26040E008FDD5EB77A344A417B7FCE19DBA575DA57CC372A9E 0xF2DF5DB2D144E9454504C622B51CF38F5006206EB579FF7DA6976EFF5FBE6480)) = true := by
  decide +kernel

/-- T22: `0·G = O`. -/
theorem test_pmul_zero :
    after (step (State.withFetchWord (State.setPoint (State.setPoint State.reset 0 (.aff 0x32C4AE2C1F1981195F9904466A39C9948FE30BBFF2660BE1715A4589334C74C7 0xBC3736A2F4F6779C59BDCEE36B692153D0A9877CC62A474002DF32E52139F0A0)) 1 (.aff 3 4))
        32 0x22100400))
      (fun t => t.err == none && t.done && !t.busy && t.point 1 == .inf) = true := by
  decide +kernel

/-- T26: `(0, y0)` gives RESULT = 1. -/
theorem test_pchk :
    after (step (State.withFetchWord (State.setPoint State.reset 0 (.aff 0 0xFD4511E81736A60F07E88A83D6CF5A167FAE6D1A9C9330E76E232E00F5CDC154))
        32 0x23000000))
      (fun t => statusWord t == 0x00000006#32) = true := by
  decide +kernel

/-- T26: `(p, y0)` gives RESULT = 0. -/
theorem test_pchk_range :
    after (step (State.withFetchWord (State.setPoint State.reset 0 (.aff 0xFFFFFFFEFFFFFFFFFFFFFFFFFFFFFFFFFFFFFFFF00000000FFFFFFFFFFFFFFFF 0xFD4511E81736A60F07E88A83D6CF5A167FAE6D1A9C9330E76E232E00F5CDC154))
        32 0x23000000))
      (fun t => statusWord t == 0x00000002#32) = true := by
  decide +kernel

/-- Program 4: `p1 = G`. -/
theorem test_pldg :
    after (step (State.withFetchWord State.reset
        32 0x24100000))
      (fun t => t.err == none && t.done && !t.busy && t.point 1 == (.aff 0x32C4AE2C1F1981195F9904466A39C9948FE30BBFF2660BE1715A4589334C74C7 0xBC3736A2F4F6779C59BDCEE36B692153D0A9877CC62A474002DF32E52139F0A0)) = true := by
  decide +kernel

/-- T27: the 65 bytes of G. -/
theorem test_penc :
    after (step (State.withFetchWord (State.setPoint State.reset 0 (.aff 0x32C4AE2C1F1981195F9904466A39C9948FE30BBFF2660BE1715A4589334C74C7 0xBC3736A2F4F6779C59BDCEE36B692153D0A9877CC62A474002DF32E52139F0A0))
        32 0x25000000))
      (fun t => t.err == none && t.done && !t.busy && 
        out t == (be 65 0x0432c4ae2c1f1981195f9904466a39c9948fe30bbff2660be1715a4589334c74c7bc3736a2f4f6779c59bdcee36b692153d0a9877cc62a474002df32e52139f0a0)) = true := by
  decide +kernel

/-- T27: `p0 = O`: ERR = 6, OLEN = 0. -/
theorem test_penc_infinity :
    after (step (State.withFetchWord { State.reset with olen := 5 }
        32 0x25000000))
      (fun t => statusWord t == 0x00000062#32 && t.olen == 0) = true := by
  decide +kernel

/-- T27: the 64-byte string gives `p2 = G` although NOPFX is 0. -/
theorem test_pdec :
    after (step (State.withFetchWord (State.put State.reset .ibuf (be 64 0x32c4ae2c1f1981195f9904466a39c9948fe30bbff2660be1715a4589334c74c7bc3736a2f4f6779c59bdcee36b692153d0a9877cc62a474002df32e52139f0a0))
        32 0x26200000))
      (fun t => t.err == none && t.done && !t.busy && t.point 2 == (.aff 0x32C4AE2C1F1981195F9904466A39C9948FE30BBFF2660BE1715A4589334C74C7 0xBC3736A2F4F6779C59BDCEE36B692153D0A9877CC62A474002DF32E52139F0A0)) = true := by
  decide +kernel

/-- T27: last byte `a1`: ERR = 6, `p2` unchanged. -/
theorem test_pdec_off_curve :
    after (step (State.withFetchWord (State.put State.reset .ibuf (be 65 0x0432c4ae2c1f1981195f9904466a39c9948fe30bbff2660be1715a4589334c74c7bc3736a2f4f6779c59bdcee36b692153d0a9877cc62a474002df32e52139f0a1))
        32 0x26200000))
      (fun t => statusWord t == 0x00000062#32 && t.point 2 == .inf) = true := by
  decide +kernel

/-- T38. -/
theorem test_sm3init :
    after (step (State.withFetchWord State.reset
        32 0x30000000))
      (fun t => t.err == none && t.done && !t.busy && t.v == #v[0x7380166f#32, 0x4914b2b9#32, 0x172442d7#32, 0xda8a0600#32, 0xa96f30bc#32, 0x163138aa#32, 0xe38dee4d#32, 0xb0fb0e4e#32]) = true := by
  decide +kernel

/-- T36: the zero state and the zero block. -/
theorem test_sm3blk :
    after (step (State.withFetchWord (State.put State.reset .ibuf (List.replicate 64 0))
        32 0x31000000))
      (fun t => t.err == none && t.done && !t.busy && t.v == #v[0x2762550f#32, 0x18134933#32, 0xba35ce4e#32, 0x0a757e65#32, 0x8c0e7205#32, 0xfe9e4ff6#32, 0x5ac5c88b#32, 0xa3649ac2#32]) = true := by
  decide +kernel

/-- T39: ILEN = 63: ERR = 1, `V0..V7` unchanged. -/
theorem test_sm3blk_error :
    after (step (State.withFetchWord { State.put State.reset .ibuf (List.replicate 63 0) with v := Vector.replicate 8 3 }
        32 0x31000000))
      (fun t => statusWord t == 0x00000012#32 && t.v == Vector.replicate 8 3) = true := by
  decide +kernel

/-- T30: "abc". -/
theorem test_sm3hash :
    after (step (State.withFetchWord (State.put State.reset .ibuf (be 3 0x616263))
        32 0x32000000))
      (fun t => t.err == none && t.done && !t.busy && 
        out t == (be 32 0x66c7f0f462eeedd9d1f2d46bdc10e4e24167c4875cf2f7a2297da02b8f4ba8e0) && t.v == #v[0x66c7f0f4#32, 0x62eeedd9#32, 0xd1f2d46b#32, 0xdc10e4e2#32, 0x4167c487#32, 0x5cf2f7a2#32, 0x297da02b#32, 0x8f4ba8e0#32]) = true := by
  decide +kernel

/-- T37: BLANKQ = 1, ILEN = 0: OLEN = 0, `V0..V7` unchanged, whatever IS_WS is. -/
theorem test_sm3hash_blank :
    after (step (State.withFetchWord { State.reset with cfg := cfgOfWord 8#32, olen := 9, v := Vector.replicate 8 3 }
        32 0x32000000))
      (fun t => t.err == none && t.done && !t.busy && t.olen == 0 && t.v == Vector.replicate 8 3) = true := by
  decide +kernel

/-- T41: L = 33, two blocks. -/
theorem test_kdfgen :
    after (step (State.withFetchWord (State.put State.reset .abuf (be 4 0x00010203))
        32 0x40000021))
      (fun t => t.err == none && t.done && !t.busy && 
        out t == (be 33 0xa583b701e60e280293e7ffb0ce3d8adb9957ca33aa1af3f6d8dd172e5789791bac)) = true := by
  decide +kernel

/-- T40: ALEN = 0, L = 32. -/
theorem test_kdfgen_empty_secret :
    after (step (State.withFetchWord State.reset
        32 0x40000020))
      (fun t => t.err == none && t.done && !t.busy && 
        out t == (be 32 0x88c0cffa4c713446a03f1fff1630aa6353bdb53e2a9272146be7a82fde06afa3)) = true := by
  decide +kernel

/-- T43. -/
theorem test_kdfxor :
    after (step (State.withFetchWord (State.put (State.put State.reset .abuf (be 4 0x00010203)) .ibuf (be 5 0x68656c6c6f))
        32 0x41000000))
      (fun t => t.err == none && t.done && !t.busy && 
        out t == (be 5 0xcde6db6d89)) = true := by
  decide +kernel

/-- T43: ILEN = 0: OLEN = 0. -/
theorem test_kdfxor_empty :
    after (step (State.withFetchWord { State.reset with olen := 7 }
        32 0x41000000))
      (fun t => t.err == none && t.done && !t.busy && t.olen == 0) = true := by
  decide +kernel

/-- T45: `(0x7f, 0x80)`. -/
theorem test_derenc :
    after (step (State.withFetchWord (State.setReg (State.setReg State.reset 1 0x7f#256) 2 0x80#256)
        32 0x50012000))
      (fun t => t.err == none && t.done && !t.busy && sig t == (be 9 0x300702017f02020080)) = true := by
  decide +kernel

/-- T47: `(max, max)` takes 72 bytes. -/
theorem test_derenc_max :
    after (step (State.withFetchWord (State.setReg State.reset 1 0xFFFFFFFFFFFFFFFFFFFFFFFFFFFFFFFFFFFFFFFFFFFFFFFFFFFFFFFFFFFFFFFF#256)
        32 0x50011000))
      (fun t => t.err == none && t.done && !t.busy && sig t == (be 72 0x3046022100ffffffffffffffffffffffffffffffffffffffffffffffffffffffffffffffff022100ffffffffffffffffffffffffffffffffffffffffffffffffffffffffffffffff)) = true := by
  decide +kernel

/-- T50: `(128, 1)`. -/
theorem test_derdec :
    after (step (State.withFetchWord (State.put State.reset .sigbuf (be 9 0x300702020080020101))
        32 0x51340000))
      (fun t => t.err == none && t.done && !t.busy &&
        t.reg 3 == 128 &&
        t.reg 4 == 1) = true := by
  decide +kernel

/-- T52: a redundant leading 00: ERR = 4, registers unchanged. -/
theorem test_derdec_error :
    after (step (State.withFetchWord (State.put (State.setReg (State.setReg State.reset 3 8#256) 4 9#256) .sigbuf (be 9 0x300702020001020101))
        32 0x51340000))
      (fun t => statusWord t == 0x00000042#32 &&
        t.reg 3 == 8 &&
        t.reg 4 == 9) = true := by
  decide +kernel

/-- T68: `r0 = 1` gives `Q = G`. -/
theorem test_sm2key :
    after (step (State.withFetchWord (State.setReg State.reset 0 1#256)
        32 0x60000000))
      (fun t => t.err == none && t.done && !t.busy && t.point 0 == (.aff 0x32C4AE2C1F1981195F9904466A39C9948FE30BBFF2660BE1715A4589334C74C7 0xBC3736A2F4F6779C59BDCEE36B692153D0A9877CC62A474002DF32E52139F0A0)) = true := by
  decide +kernel

/-- T69: `r0 = n - 1`: ERR = 1, `p0` unchanged. -/
theorem test_sm2key_range :
    after (step (State.withFetchWord (State.setReg State.reset 0 0xfffffffeffffffffffffffffffffffff7203df6b21c6052b53bbf40939d54122#256)
        32 0x60000000))
      (fun t => statusWord t == 0x00000012#32 && t.point 0 == .inf) = true := by
  decide +kernel

/-- T60: the Z-value of Q and the default identity. -/
theorem test_sm2z :
    after (step (State.withFetchWord (State.setPoint State.reset 0 (.aff 0x09F9DF311E5421A150DD7D161E4BC5C672179FAD1833FC076BB08FF356F35020 0xCCEA490CE26775A52DC6EA718CC1AA600AED05FBF35E084A6632F6072DA9AD13))
        32 0x61000000))
      (fun t => t.err == none && t.done && !t.busy && 
        out t == (be 32 0xb2e14c5c79c6df5b85f4fe7ed8db7a262b9da7e07ccb0ea9f4747b8ccda8a4f3)) = true := by
  decide +kernel

/-- R293: after reset `p0 = O`: ERR = 6, OLEN = 0. -/
theorem test_sm2z_invalid :
    after (step (State.withFetchWord { State.reset with olen := 3 }
        32 0x61000000))
      (fun t => statusWord t == 0x00000062#32 && t.olen == 0) = true := by
  decide +kernel

/-- T68: `r0 = 1`, "abc", after a draw of 0 (T64) the draw 2. -/
theorem test_sm2sign :
    after (step (State.withFetchWord { State.put (State.setReg State.reset 0 1#256) .ibuf (be 3 0x616263) with rng := [0, 2, 7] }
        32 0x62000000))
      (fun t => statusWord t == 0x00000202#32 && t.rng == [7] &&
      t.reg 1 == 0x39321BD8A700D06AB427FF128C18439E168A10FA1BA00BA61A0452111BA3F7C4#256 &&
      t.reg 2 == 0xE366F212AC7F97CAA5EC0076B9F3DE3066BED6EE13F5FF5846B9CB00AC034542#256 &&
      sig t == (be 71 0x3045022039321bd8a700d06ab427ff128c18439e168a10fa1ba00ba61a0452111ba3f7c4022100e366f212ac7f97caa5ec0076b9f3de3066bed6ee13f5ff5846b9cb00ac034542)) = true := by
  decide +kernel

/-- T64: RETRY_CAP = 2, draws 0, 0: ERR = 2, ATT = 2, SIGLEN = 0, `r1` unchanged. -/
theorem test_sm2sign_exhausted :
    after (step (State.withFetchWord { (State.setReg (State.setReg State.reset 0 1#256) 1 6#256) with rng := [0, 0], cap := 2, siglen := 9 }
        32 0x62000000))
      (fun t => statusWord t == 0x00000222#32 && t.siglen == 0 &&
        t.reg 1 == 6 && t.rng == []) = true := by
  decide +kernel

/-- T63: SIGLEN = 0: RESULT = 0, ERR = 0. -/
theorem test_sm2vfy_malformed :
    after (step (State.withFetchWord (State.setPoint State.reset 0 (.aff 0x32C4AE2C1F1981195F9904466A39C9948FE30BBFF2660BE1715A4589334C74C7 0xBC3736A2F4F6779C59BDCEE36B692153D0A9877CC62A474002DF32E52139F0A0))
        32 0x63000000))
      (fun t => statusWord t == 0x00000002#32) = true := by
  decide +kernel

/-- T61: `Verify()` accepts the signature of T60, given that `s·G + t·Q = k·G` with the `t` and the `k·G` T61 prints. -/
theorem test_sm2vfy_accepts
    (h : ptAdd (scalarMul baseG 0xB1B6AA29DF212FD8763182BC0D421CA1BB9038FD1F7F42D4840B69C485BBC1AA)
      (scalarMul (.aff 0x09F9DF311E5421A150DD7D161E4BC5C672179FAD1833FC076BB08FF356F35020 0xCCEA490CE26775A52DC6EA718CC1AA600AED05FBF35E084A6632F6072DA9AD13)
        0xA756E53127F3F43B851C47CFEEFD9E43A2D133CA258EF4EA73FBF4683ACDA13A) =
      (.aff 0x04EBFC718E8D1798620432268E77FEB6415E2EDE0E073C0F4F640ECD2E149A73 0xE858F9D81E5430A57B36DAAB8F950A3C64E6EE6A63094D99283AFF767E124DF0)) :
    verify (der 0xF5A03B0648D2C4630EEAC513E1BB81A15944DA3827D5B74143AC7EACEEE720B3
        0xB1B6AA29DF212FD8763182BC0D421CA1BB9038FD1F7F42D4840B69C485BBC1AA)
      (.aff 0x09F9DF311E5421A150DD7D161E4BC5C672179FAD1833FC076BB08FF356F35020 0xCCEA490CE26775A52DC6EA718CC1AA600AED05FBF35E084A6632F6072DA9AD13)
      defaultId (be 14 0x6d65737361676520646967657374) = true := by
  have ht : (0xF5A03B0648D2C4630EEAC513E1BB81A15944DA3827D5B74143AC7EACEEE720B3 +
      0xB1B6AA29DF212FD8763182BC0D421CA1BB9038FD1F7F42D4840B69C485BBC1AA) % curveN =
      0xA756E53127F3F43B851C47CFEEFD9E43A2D133CA258EF4EA73FBF4683ACDA13A := by decide +kernel
  refine (verify_eq _ 0xF5A03B0648D2C4630EEAC513E1BB81A15944DA3827D5B74143AC7EACEEE720B3
    0xB1B6AA29DF212FD8763182BC0D421CA1BB9038FD1F7F42D4840B69C485BBC1AA
    _ _ _ _ _ _ (by decide +kernel) (by decide +kernel) (by decide +kernel) (by decide +kernel) (by decide +kernel)
    (by decide +kernel) (ht ▸ h)).trans (by decide +kernel)

/-- T78: draws `n, max, 0, 0, 0`: ERR = 3, ATT = 5, OLEN = 0. -/
theorem test_sm2enc_exhausted :
    after (step (State.withFetchWord { State.put (State.setPoint State.reset 0 (.aff 0x09F9DF311E5421A150DD7D161E4BC5C672179FAD1833FC076BB08FF356F35020 0xCCEA490CE26775A52DC6EA718CC1AA600AED05FBF35E084A6632F6072DA9AD13)) .ibuf (be 19 0x656e6372797074696f6e207374616e64617264) with rng := [0xFFFFFFFEFFFFFFFFFFFFFFFFFFFFFFFF7203DF6B21C6052B53BBF40939D54123#256, 0xFFFFFFFFFFFFFFFFFFFFFFFFFFFFFFFFFFFFFFFFFFFFFFFFFFFFFFFFFFFFFFFF#256, 0, 0, 0] }
        32 0x64000000))
      (fun t => statusWord t == 0x00000532#32 && t.olen == 0 && t.rng == []) = true := by
  decide +kernel

/-- T70: the keystream of `k·Q` for 19 bytes. -/
theorem keystream_T70 :
    kdf (be 32 0x335E18D751E51F040E27D468138B7AB1DC86AD7F981D7D416222FD6AB3ED230D ++
    be 32 0xAB743EBCFB22D64F7B6AB791F70658F25B48FA93E54064FDBFBED3F0BD847AC9) 19 = (be 19 0x44e60fdbf0bae81437665374bef26749046c9e) := by
  decide +kernel

/-- T70: C3, the digest of `X2`, `M2` and `Y2`. -/
theorem digest_T70 :
    sm3 (be 32 0x335E18D751E51F040E27D468138B7AB1DC86AD7F981D7D416222FD6AB3ED230D ++ (be 19 0x656e6372797074696f6e207374616e64617264) ++
      be 32 0xAB743EBCFB22D64F7B6AB791F70658F25B48FA93E54064FDBFBED3F0BD847AC9) =
      (be 32 0x59983c18f809e262923c53aec295d30383b54e39d609d160afcb1908d0bd8766) := by
  decide +kernel

/-- T70 and T71: the ciphertext of `M2` for Q and the draw `k` in two of the four configurations, given the `k·G` and
`k·Q` the spec prints. -/
theorem test_sm2enc_layout
    (hg : scalarMul baseG 0x59276E27D506861A16680F3AD9C02DCCEF3CC1FA3CDBE4CE6D54B80DEAC1BC21 =
      (.aff 0x04EBFC718E8D1798620432268E77FEB6415E2EDE0E073C0F4F640ECD2E149A73 0xE858F9D81E5430A57B36DAAB8F950A3C64E6EE6A63094D99283AFF767E124DF0))
    (hq : scalarMul (.aff 0x09F9DF311E5421A150DD7D161E4BC5C672179FAD1833FC076BB08FF356F35020 0xCCEA490CE26775A52DC6EA718CC1AA600AED05FBF35E084A6632F6072DA9AD13)
        0x59276E27D506861A16680F3AD9C02DCCEF3CC1FA3CDBE4CE6D54B80DEAC1BC21 =
      (.aff 0x335E18D751E51F040E27D468138B7AB1DC86AD7F981D7D416222FD6AB3ED230D 0xAB743EBCFB22D64F7B6AB791F70658F25B48FA93E54064FDBFBED3F0BD847AC9)) :
    attemptEnc false false (.aff 0x09F9DF311E5421A150DD7D161E4BC5C672179FAD1833FC076BB08FF356F35020 0xCCEA490CE26775A52DC6EA718CC1AA600AED05FBF35E084A6632F6072DA9AD13)
        (be 19 0x656e6372797074696f6e207374616e64617264) 0x59276E27D506861A16680F3AD9C02DCCEF3CC1FA3CDBE4CE6D54B80DEAC1BC21 = some
      ((be 65 0x0404ebfc718e8d1798620432268e77feb6415e2ede0e073c0f4f640ecd2e149a73e858f9d81e5430a57b36daab8f950a3c64e6ee6a63094d99283aff767e124df0) ++
        (be 32 0x59983c18f809e262923c53aec295d30383b54e39d609d160afcb1908d0bd8766) ++ (be 19 0x21886ca989ca9c7d58087307ca93092d651efa)) ∧
    attemptEnc true true (.aff 0x09F9DF311E5421A150DD7D161E4BC5C672179FAD1833FC076BB08FF356F35020 0xCCEA490CE26775A52DC6EA718CC1AA600AED05FBF35E084A6632F6072DA9AD13)
        (be 19 0x656e6372797074696f6e207374616e64617264) 0x59276E27D506861A16680F3AD9C02DCCEF3CC1FA3CDBE4CE6D54B80DEAC1BC21 = some
      ((be 64 0x04ebfc718e8d1798620432268e77feb6415e2ede0e073c0f4f640ecd2e149a73e858f9d81e5430a57b36daab8f950a3c64e6ee6a63094d99283aff767e124df0) ++
        (be 19 0x21886ca989ca9c7d58087307ca93092d651efa) ++ (be 32 0x59983c18f809e262923c53aec295d30383b54e39d609d160afcb1908d0bd8766)) := by
  have hl : (be 19 0x656e6372797074696f6e207374616e64617264).length = 19 := by decide +kernel
  constructor <;>
  · rw [attemptEnc_eq _ _ _ _ _ _ _ _ _ hg hq, hl, keystream_T70, digest_T70]
    decide +kernel

/-- T77: byte 0 changed to `03`: ERR = 1. -/
theorem test_sm2dec_prefix :
    after (step (State.withFetchWord (State.put (State.setReg State.reset 0 0x3945208F7B2144B13F36E38AC6D39F95889393692860B51A42FB81EF4DF7C5B8#256) .ibuf ((be 65 0x0304ebfc718e8d1798620432268e77feb6415e2ede0e073c0f4f640ecd2e149a73e858f9d81e5430a57b36daab8f950a3c64e6ee6a63094d99283aff767e124df0) ++ (be 32 0x59983c18f809e262923c53aec295d30383b54e39d609d160afcb1908d0bd8766) ++ (be 19 0x21886ca989ca9c7d58087307ca93092d651efa)))
        32 0x65000000))
      (fun t => statusWord t == 0x00000012#32 && t.olen == 0) = true := by
  decide +kernel

/-- T72, T75: the ciphertext of T70 decrypts to `M2`, and with bit 0 of byte 65 (in C3) flipped the integrity check fails;
given the `d·C1 = k·Q` the spec prints. -/
theorem test_sm2dec
    (h : scalarMul (.aff 0x04EBFC718E8D1798620432268E77FEB6415E2EDE0E073C0F4F640ECD2E149A73 0xE858F9D81E5430A57B36DAAB8F950A3C64E6EE6A63094D99283AFF767E124DF0)
        0x3945208F7B2144B13F36E38AC6D39F95889393692860B51A42FB81EF4DF7C5B8 =
      (.aff 0x335E18D751E51F040E27D468138B7AB1DC86AD7F981D7D416222FD6AB3ED230D 0xAB743EBCFB22D64F7B6AB791F70658F25B48FA93E54064FDBFBED3F0BD847AC9)) :
    decryptBytes false false 0x3945208F7B2144B13F36E38AC6D39F95889393692860B51A42FB81EF4DF7C5B8
        ((be 65 0x0404ebfc718e8d1798620432268e77feb6415e2ede0e073c0f4f640ecd2e149a73e858f9d81e5430a57b36daab8f950a3c64e6ee6a63094d99283aff767e124df0) ++ (be 32 0x59983c18f809e262923c53aec295d30383b54e39d609d160afcb1908d0bd8766) ++ (be 19 0x21886ca989ca9c7d58087307ca93092d651efa)) =
      .ok (be 19 0x656e6372797074696f6e207374616e64617264) ∧
    decryptBytes false false 0x3945208F7B2144B13F36E38AC6D39F95889393692860B51A42FB81EF4DF7C5B8
        ((be 65 0x0404ebfc718e8d1798620432268e77feb6415e2ede0e073c0f4f640ecd2e149a73e858f9d81e5430a57b36daab8f950a3c64e6ee6a63094d99283aff767e124df0) ++ (be 32 0x58983c18f809e262923c53aec295d30383b54e39d609d160afcb1908d0bd8766) ++ (be 19 0x21886ca989ca9c7d58087307ca93092d651efa)) =
      .error .decryptionIntegrity := by
  have run : ∀ c c3 : Bytes, c1Length false + 32 ≤ c.length → c1Point false c = some (0x04EBFC718E8D1798620432268E77FEB6415E2EDE0E073C0F4F640ECD2E149A73,
      0xE858F9D81E5430A57B36DAAB8F950A3C64E6EE6A63094D99283AFF767E124DF0) →
      splitCipher false false c = (c3, (be 19 0x21886ca989ca9c7d58087307ca93092d651efa)) →
      decryptBytes false false 0x3945208F7B2144B13F36E38AC6D39F95889393692860B51A42FB81EF4DF7C5B8 c =
        if (be 32 0x59983c18f809e262923c53aec295d30383b54e39d609d160afcb1908d0bd8766) ≠ c3 then .error .decryptionIntegrity
        else .ok (be 19 0x656e6372797074696f6e207374616e64617264) := by
    intro c c3 h1 h2 h3
    have hx : xorBytes (be 19 0x21886ca989ca9c7d58087307ca93092d651efa) (be 19 0x44e60fdbf0bae81437665374bef26749046c9e) = (be 19 0x656e6372797074696f6e207374616e64617264) := by decide +kernel
    have hl : (be 19 0x21886ca989ca9c7d58087307ca93092d651efa).length = 19 := by decide +kernel
    rw [decryptBytes_eq _ _ _ c _ _ _ _ (by decide +kernel) h1 h2 (by decide +kernel) h, h3]
    simp only [hl, keystream_T70, hx, digest_T70]
  constructor
  · exact (run _ (be 32 0x59983c18f809e262923c53aec295d30383b54e39d609d160afcb1908d0bd8766) (by decide +kernel) (by decide +kernel) (by decide +kernel)).trans (if_neg (fun hne => hne rfl))
  · exact (run _ (be 32 0x58983c18f809e262923c53aec295d30383b54e39d609d160afcb1908d0bd8766) (by decide +kernel) (by decide +kernel) (by decide +kernel)).trans (if_pos (by decide +kernel))

/-! ### Witnesses: states and operands that meet the hypotheses of the statements -/

/-- The invariant, for a state with empty buffers and a clear STATUS. -/
theorem inv_of_empty (s : State) (hm : ∀ b, s.mem b = []) (hl : ∀ b, s.len b = 0) (hd : s.done = false)
    (hr : s.result = false) (he : s.err = none) (ha : s.att = 0) (ht : s.tries = 0) : s.Inv := by
  refine ⟨fun b => ?_, fun b => ?_, fun b => ?_, fun h => ?_, fun _ => ⟨hr, he, ha⟩, fun h => absurd he h, ?_, fun _ => ht⟩
  · rw [hm]; exact ⟨List.Pairwise.nil, fun c hc => absurd hc List.not_mem_nil⟩
  · rw [hm]; exact fun c hc => absurd hc List.not_mem_nil
  · rw [hl]; exact Nat.zero_le _
  · exact hd
  · rw [ht]; exact Nat.zero_le _

/-- A state in which the host is about to act. -/
def scheduled (l : List HostEvent) : State := { State.reset with host := l }

theorem inv_scheduled (l : List HostEvent) : (scheduled l).Inv :=
  inv_of_empty _ (fun b => by cases b <;> rfl) (fun b => by cases b <;> rfl) rfl rfl rfl rfl rfl

/-- A state with a word in flight and the answers `l` of the random source. -/
def flying (w : Word) (l : List Big) : State := { State.reset with inflight := some w, rng := l }

theorem inv_flying (w : Word) (l : List Big) : (flying w l).Inv := by
  have h := inv_scheduled []
  exact ⟨h.memWf, h.memBound, h.lenBound, fun _ => rfl, h.notDoneClear, h.errNoResult, h.triesBound, fun _ => rfl⟩

/-- A state with bytes in IBUF, `r0 = d`, `p0 = q`, a command in flight and answers of the random source. -/
def loaded (msg : Bytes) (d : Big) (q : AffinePoint) (l : List Big) : State :=
  (((flying 0 l).setReg 0 d).setPoint 0 q).put .ibuf msg

theorem inv_loaded (msg : Bytes) (d : Big) (q : AffinePoint) (l : List Big) (h : msg.length ≤ 256) :
    (loaded msg d q l).Inv :=
  (((inv_flying 0 l).setReg 0 d).setPoint 0 q).put .ibuf msg (h.trans bufBytes_ge)

theorem test_witness_DecodeOfEncode : (Instr.derdec 1 2).wellFormed = true ∧ (Instr.ldc 15 .GY).wellFormed = true := by decide

theorem test_witness_EncodeOfDecode : decode 0x51340000#32 = .ok (.derdec 3 4) := by decide +kernel

/-- A word of each branch, and a state for the illegal one. -/
theorem test_witness_DecodeIsOpcodeMap :
    (∃ row ∈ opcodeRows, selects row 0x15700500#32 = true) ∧
    (∀ row ∈ opcodeRows, selects row 0x15700600#32 = false) ∧
    (flying 0x15700600#32 []).host = [] ∧ (flying 0x15700600#32 []).inflight = some 0x15700600#32 := by
  decide +kernel

/-- A word that decodes and one that does not, in flight, on the core's move and after a pass; the idle core; an abstract
operation and a bus access of the schedule. -/
theorem test_witness_StepRunsDecoded :
    decode 0x24100000#32 = .ok (.pldg 1) ∧ (flying 0x24100000#32 []).inflight = some 0x24100000#32 ∧
    (flying 0x24100000#32 []).host = [] ∧
    ({ flying 0x24100000#32 [] with host := [.pass] } : State).host = .pass :: [] ∧
    decode 0x15700600#32 = .error .constantIndex ∧ (flying 0x15700600#32 []).inflight = some 0x15700600#32 ∧
    (flying 0x15700600#32 []).host = [] ∧
    ({ flying 0x15700600#32 [] with host := [.pass] } : State).host = .pass :: [] ∧
    (State.reset.inflight = none ∧ State.reset.host = []) ∧
    ((scheduled [.pass]).inflight = none ∧ (scheduled [.pass]).host = .pass :: []) ∧
    (scheduled [.op (.writeCfg 1), .pass]).host = .op (.writeCfg 1) :: [.pass] ∧
    (scheduled [.bus (.readWord 0)]).host = .bus (.readWord 0) :: [] := by
  decide +kernel

/-- For IssueRule, StatusClear, StickyError and BusyInterval: a state that is idle, one that is busy, one with an error. -/
theorem test_witness_IssueRule_StatusClear_StickyError_BusyInterval :
    (State.reset.busy = false ∧ State.reset.err = none) ∧ (flying 0 []).busy = true ∧ (flying 0 []).Inv ∧
    ({ State.reset with done := true, err := some .validation } : State).err ≠ none ∧
    ({ State.reset with done := true, err := some .validation } : State).busy = false ∧
    HostOp.readStatus ≠ .reset ∧
    ∃ t, busAccess (.readHalf Config.base) (flying 0 []) = .next t :=
  ⟨by decide, by decide, inv_flying 0 [], by decide, by decide, by decide,
    ⟨_, busAccess_of_addr (.readHalf Config.base) 0 (flying 0 []) (Nat.add_zero _).symm (lt_windowSize 0 (by decide))⟩⟩

theorem test_witness_ResetState : ∃ t, t = hostOp .reset (flying 5 [9]) := ⟨_, rfl⟩

theorem test_witness_InvKept :
    ∃ s t : State, s.Inv ∧ step s = .next t ∧ t.cfg.order = true :=
  ⟨scheduled [.op (.writeCfg 1)], hostOp (.writeCfg 1) (scheduled []), inv_scheduled _, rfl, by decide⟩

/-- A bus access at the last byte of the window. -/
theorem test_witness_NoStop :
    ∃ s : State, s.Inv ∧ s.AccessMapped ∧ s.host ≠ [] := by
  refine ⟨scheduled [.bus (.readByte (Config.base + (Config.windowSize - 1)))], inv_scheduled _, ?_, by decide +kernel⟩
  intro a rest h
  have ha := (HostEvent.bus.inj (List.cons.inj h).1).symm
  have hw := windowSize_ge
  have hlt : Config.windowSize - 1 < Config.windowSize := by omega
  rw [ha]
  exact (congrArg Option.isSome (offsetOf_base_add (Config.windowSize - 1) hlt)).trans rfl

/-- For Termination: SM2SIGN with as many answers as the cap allows attempts, a command that draws nothing, and SM2SIGN
that waits after two draws of 0 (`r0 = 1`), which are used up and counted. -/
theorem test_witness_Termination :
    (flying 0x62000000#32 [1, 2, 3, 4, 5]).Inv ∧
    (flying 0x62000000#32 [1, 2, 3, 4, 5]).cap.toNat ≤
      (flying 0x62000000#32 [1, 2, 3, 4, 5]).tries + (flying 0x62000000#32 [1, 2, 3, 4, 5]).rng.length ∧
    (∀ i, decode 0x63000000#32 = .ok i → draws i = false) ∧
    ∃ t, step ((flying 0x62000000#32 [0, 0]).setReg 0 1) = .next t ∧ t.inflight ≠ none ∧ t.rng = [] ∧ t.tries = 2 := by
  refine ⟨inv_flying _ _, by decide, ?_, ?_⟩
  · have h : decode 0x63000000#32 = .ok .sm2vfy := by decide +kernel
    intro i hi
    rw [h] at hi
    rw [← Except.ok.inj hi]
    decide
  · have h : after (step ((flying 0x62000000#32 [0, 0]).setReg 0 1))
        (fun t => t.inflight.isSome && (t.rng == [] && t.tries == 2)) = true := by decide +kernel
    unfold after at h
    split at h
    · rename_i t ht
      have h2 := Bool.and_eq_true_iff.mp h
      have h3 := Bool.and_eq_true_iff.mp h2.2
      exact ⟨t, ht, Option.isSome_iff_ne_none.1 h2.1, eq_of_beq h3.1, eq_of_beq h3.2⟩
    · exact absurd h (by decide)
    · exact absurd h (by decide)

/-- MODINV of 0 after reset raises. -/
theorem modinv_reset : exec (.modinv 5 4 .p) State.reset = .next (State.reset.complete false 0 (some .notInvertible)) := by
  show execModinv 5 4 .p State.reset = _
  unfold execModinv
  exact if_pos (by decide +kernel)

theorem test_witness_ErrorsArePrecise :
    ∃ (i : Instr) (s t : State) (e : CmdError), s.Inv ∧ s.err = none ∧ exec i s = .next t ∧ t.err = some e ∧ i.wellFormed = true :=
  ⟨.modinv 5 4 .p, State.reset, _, .notInvertible, inv_scheduled [], rfl, modinv_reset, rfl, rfl⟩

theorem test_witness_WriteSet : ∃ (i : Instr) (s t : State), s.Inv ∧ exec i s = .next t :=
  ⟨.pldg 1, scheduled [], _, inv_scheduled [], execPldg_eq 1 _⟩

theorem test_witness_Noninterference :
    (∃ t, exec (.pldg 1) State.reset = .next t) ∧ (3 : Reg) ∉ srcRegs (.pldg 1) ∧ (3 : Reg) ∉ destRegs (.pldg 1) ∧
    (2 : PReg) ∉ srcPoints (.pldg 1) ∧ destPoint (.pldg 1) ≠ some 2 ∧ draws (.pldg 1) = false ∧
    writesChain (.pldg 1) = false :=
  ⟨⟨_, execPldg_eq 1 _⟩, by decide, by decide, by decide, by decide, by decide, by decide⟩

/-- A step that changes V0: SM3INIT after reset. -/
theorem test_witness_ChainChangedOnlyBy :
    ∃ s t : State, step s = .next t ∧ t.v ≠ s.v := by
  refine ⟨flying 0x30000000#32 [], State.complete { flying 0x30000000#32 [] with v := sm3IV } false 0 none, ?_, by decide⟩
  have h : decode 0x30000000#32 = .ok .sm3init := by decide +kernel
  show (match decode 0x30000000#32 with
    | .ok i => exec i (flying 0x30000000#32 [])
    | .error _ => raise .illegalCommand 0 (flying 0x30000000#32 [])) = _
  rw [h]
  rfl

/-- The boundary operands: 0, the modulus, 1 and the largest. -/
theorem test_witness_ModularInverse :
    State.reset.regNat 4 = 0 ∧ (State.reset.setReg 4 (BitVec.ofNat 256 curveN)).regNat 4 = modulus .n ∧
    ((State.reset.setReg 4 1).regNat 4 ≠ 0 ∧ (State.reset.setReg 4 1).regNat 4 ≠ modulus .p) ∧
    (State.reset.setReg 4 (BitVec.ofNat 256 (2 ^ 256 - 1))).regNat 4 ≠ modulus .p := by
  decide +kernel

theorem test_witness_MontgomeryLaws : (0 : Nat) < 2 ^ 256 ∧ 2 ^ 256 - 1 < 2 ^ 256 := by decide +kernel

theorem test_witness_PseudoInstructions :
    pseudoModred 0 15 .n = some [.modsub 0 15 15 .n, .modadd 0 15 0 .n] ∧ (15 : Reg) ≠ 0 ∧ (1 : PReg) ≠ 0 := by
  decide +kernel

theorem test_witness_PointEncode :
    (State.reset.preg 0).inf = true ∧ ((State.reset.setPoint 0 baseG).preg 0).inf = false := by
  decide +kernel

/-- For PointDecode: 63 bytes; 65 bytes with the prefix, a valid point; 64 bytes, not a point. -/
theorem test_witness_PointDecode :
    ((loaded (List.replicate 63 0) 0 .inf []).ilen.toNat ≤ Config.bufBytes ∧
      (loaded (List.replicate 63 0) 0 .inf []).ilen.toNat ≠ 64 ∧ (loaded (List.replicate 63 0) 0 .inf []).ilen.toNat ≠ 65) ∧
    ((loaded (encodePoint false curveGx curveGy) 0 .inf []).ilen.toNat = 65 ∧
      (loaded (encodePoint false curveGx curveGy) 0 .inf []).ibuf.read 0 = 0x04#8 ∧
      validPoint (.aff (int ((loaded (encodePoint false curveGx curveGy) 0 .inf []).ibuf.readBytes 1 32))
        (int ((loaded (encodePoint false curveGx curveGy) 0 .inf []).ibuf.readBytes 33 32))) = true) ∧
    ((loaded (List.replicate 64 1) 0 .inf []).ilen.toNat = 64 ∧
      validPoint (.aff (int ((loaded (List.replicate 64 1) 0 .inf []).ibuf.readBytes 0 32))
        (int ((loaded (List.replicate 64 1) 0 .inf []).ibuf.readBytes 32 32))) = false) := by
  decide +kernel

/-- For PointCodecRoundTrip and GroupLaws: G is a valid point, in a state that meets the invariant. -/
theorem test_witness_PointCodecRoundTrip_GroupLaws :
    (loaded [] 0 baseG []).Inv ∧ ((loaded [] 0 baseG []).preg 0).inf = false ∧
    validPoint ((loaded [] 0 baseG []).point 0) = true ∧ validPoint baseG = true :=
  ⟨inv_loaded _ _ _ _ (by decide), by decide +kernel, by decide +kernel, by decide +kernel⟩

theorem test_witness_Sm3Block :
    (loaded (List.replicate 64 0) 0 .inf []).ilen.toNat = 64 ∧ (loaded (List.replicate 63 0) 0 .inf []).ilen.toNat ≠ 64 := by
  decide +kernel

/-- The empty message is blank whatever IS_WS is; with BLANKQ = 0 no message is. -/
theorem test_witness_Sm3Hash :
    (({ State.reset with cfg := cfgOfWord 8#32 } : State).cfg.blankq = true ∧
      ∀ b ∈ ({ State.reset with cfg := cfgOfWord 8#32 } : State).ibuf.readBytes 0 0, Config.isWs b = true) ∧
    ¬(State.reset.cfg.blankq = true) ∧ State.reset.ilen.toNat ≤ Config.bufBytes :=
  ⟨⟨by decide, fun b hb => absurd hb List.not_mem_nil⟩, by decide, Nat.zero_le _⟩

/-- For TwoHashPathsAgree, KdfMask and VerifyAnswers: the state after reset, a message of 64 bytes. -/
theorem test_witness_TwoHashPathsAgree_KdfMask_VerifyAnswers :
    (scheduled []).Inv ∧ (List.replicate 64 (1#8)).length ≤ Config.bufBytes ∧ (scheduled []).cfg.blankq = false ∧
    (scheduled []).siglen.toNat ≤ 72 ∧ (scheduled []).alen.toNat ≤ Config.bufBytes ∧
    (scheduled []).ilen.toNat ≤ Config.bufBytes :=
  ⟨inv_scheduled [], by decide +kernel, rfl, by decide, Nat.zero_le _, Nat.zero_le _⟩

theorem test_witness_KdfFunction :
    (0 : Nat) ≤ 33 ∧ (∃ t, exec .kdfxor State.reset = .next t) ∧ ∃ t, exec .sm2enc State.reset = .next t := by
  refine ⟨by decide, ?_, ?_⟩
  · show ∃ t, execKdfxor State.reset = .next t
    unfold execKdfxor
    rw [withAux_ok _ _ (Nat.zero_le _), withIn_ok _ _ (Nat.zero_le _), putOut_ok _ _ _ (Nat.zero_le _)]
    exact ⟨_, rfl⟩
  · show ∃ t, execSm2enc State.reset = .next t
    unfold execSm2enc
    rw [if_pos (by decide +kernel), putOut_ok _ _ _ (Nat.zero_le _)]
    exact ⟨_, rfl⟩

/-- The longest output that every machine takes; and one that a machine with BUF_BYTES = 4096 does not (T44). -/
theorem test_witness_KdfGenerate :
    State.reset.alen.toNat ≤ Config.bufBytes ∧ (256#16).toNat ≤ Config.bufBytes ∧
    (Config.bufBytes = 4096 → Config.bufBytes < (4097#16).toNat) :=
  ⟨Nat.zero_le _, bufBytes_ge, fun h => by rw [h]; decide⟩

/-- For DerRoundTrip and DerSize: the smallest and the largest pair, and the strings of T50. -/
theorem test_witness_DerRoundTrip_DerSize :
    (0 : Nat) < 0x80 ∧ (0x7F : Nat) < 0x80 ∧ 2 ^ 255 ≤ 2 ^ 256 - 1 ∧ 2 ^ 256 - 1 < 2 ^ 256 ∧
    derParse (be 9 0x300702020080020101) = some (128, 1) := by
  decide +kernel

/-- For DerCommands: an encoding, and a string that is none, since it is too short. -/
theorem test_witness_DerCommands :
    (3 : Reg) ≠ 4 ∧ (State.reset.put .sigbuf (der 0x7f 0x80)).siglen.toNat ≤ 72 ∧
    (State.reset.put .sigbuf (der 0x7f 0x80)).sigbuf.readBytes 0
      (State.reset.put .sigbuf (der 0x7f 0x80)).siglen.toNat = der (0x7f#256).toNat (0x80#256).toNat ∧
    ∀ v1 v2 : Big, State.reset.sigbuf.readBytes 0 State.reset.siglen.toNat ≠ der v1.toNat v2.toNat :=
  ⟨by decide, by decide +kernel, by decide +kernel, fun v1 v2 h => by
    have h2 : ([] : Bytes) = der v1.toNat v2.toNat := h
    exact absurd h2 (by unfold der; exact (List.cons_ne_nil _ _).symm)⟩

/-- The ends of the range of private scalars, and the values beside it. -/
theorem test_witness_KeyDerivation :
    (1 ≤ (State.reset.setReg 0 1).regNat 0 ∧ (State.reset.setReg 0 1).regNat 0 ≤ curveN - 2) ∧
    (State.reset.setReg 0 (BitVec.ofNat 256 (curveN - 2))).regNat 0 ≤ curveN - 2 ∧
    ¬1 ≤ State.reset.regNat 0 ∧ ¬(State.reset.setReg 0 (BitVec.ofNat 256 (curveN - 1))).regNat 0 ≤ curveN - 2 := by
  decide +kernel

/-- A state whose identity is 8192 bytes long, one byte too long, on a machine with room for it. -/
def longIdent : State := { State.reset with alen := 8192#32, cfg := cfgOfWord 4#32, r := Vector.replicate 16 1 }

theorem identOf_longIdent : identOf longIdent = longIdent.abuf.readBytes 0 longIdent.alen.toNat :=
  if_pos (by decide +kernel)

theorem alen_longIdent : longIdent.alen.toNat = 8192 := by decide +kernel

theorem long_identity (h : 8192 ≤ Config.bufBytes) :
    ∃ s : State, s.Inv ∧ s.alen.toNat ≤ Config.bufBytes ∧ 8191 < (identOf s).length ∧ s.regNat 0 = 1 := by
  have hl : ∀ (m : Memory) (n : Nat), (m.readBytes 0 n).length = n := fun m n => by simp [Memory.readBytes]
  have ha : longIdent.alen.toNat ≤ Config.bufBytes := by rw [alen_longIdent]; exact h
  have h0 := inv_scheduled []
  refine ⟨longIdent, ⟨fun b => ?_, fun b => ?_, fun b => ?_, h0.busyNotDone, h0.notDoneClear, h0.errNoResult,
    h0.triesBound, h0.idleNoTries⟩, ha, ?_,
    by decide +kernel⟩
  · have hb := h0.memWf b
    cases b <;> exact hb
  · have hb := h0.memBound b
    cases b <;> exact hb
  · cases b
    · exact h0.lenBound .ibuf
    · exact h0.lenBound .obuf
    · exact ha
    · exact h0.lenBound .sigbuf
  · rw [identOf_longIdent, hl, alen_longIdent]
    decide

/-- For ZValueCommand: an identity too long where BUF_BYTES allows one, an invalid point, a valid point. -/
theorem test_witness_ZValueCommand :
    (8192 ≤ Config.bufBytes → ∃ s : State, s.alen.toNat ≤ Config.bufBytes ∧ 8191 < (identOf s).length) ∧
    ((loaded [] 1 .inf []).alen.toNat ≤ Config.bufBytes ∧ (identOf (loaded [] 1 .inf [])).length ≤ 8191 ∧
      validPoint ((loaded [] 1 .inf []).point 0) = false) ∧
    (identOf (loaded [] 1 baseG [])).length ≤ 8191 ∧ validPoint ((loaded [] 1 baseG []).point 0) = true :=
  ⟨fun h => (long_identity h).imp fun _ hs => ⟨hs.2.1, hs.2.2.1⟩, ⟨Nat.zero_le _, by decide +kernel, by decide +kernel⟩,
    by decide +kernel, by decide +kernel⟩

/-- `e` of T68: `r0 = 1`, the default identity, "abc". -/
theorem digest_T68 : int (sm3 (zValue defaultId curveGx curveGy ++ be 3 0x616263)) % curveN =
    0xE2631E76CF38546AA6CF0FBA91A4894FEC7FF65C7CDB9DA0246417FCB1867B95 := by
  decide +kernel

/-- `2·G` of T20. -/
theorem twoG : scalarMul baseG 2 =
    .aff 0x56CEFD60D7C87C000D58EF57FA73BA4D9C0DFA08C08A7331495C2E1DA3F2BD52
      0x31B7E7E6CC8189F668535CE0F8EAF1BD6DE84C182F6C8E716F780D3A970A23C3 := by
  decide +kernel

theorem oneG : scalarMul baseG 1 = .aff curveGx curveGy := by decide +kernel

/-- The draw 2 of T68 is not degenerate. -/
theorem draw2_good :
    ¬SignDegenerate 1 0xE2631E76CF38546AA6CF0FBA91A4894FEC7FF65C7CDB9DA0246417FCB1867B95 2 := by
  unfold SignDegenerate
  rw [twoG]
  decide +kernel

/-- For SignSucceeds: T68 after a draw of 0 (T64), with one attempt more left. -/
theorem test_witness_SignSucceeds :
    ∃ (s : State) (bad : List Big) (k : Big) (rest : List Big) (xq yq : Nat), s.Inv ∧ 1 ≤ s.regNat 0 ∧
      s.regNat 0 ≤ curveN - 2 ∧ (identOf s).length ≤ 8191 ∧ scalarMul baseG (s.regNat 0) = .aff xq yq ∧
      s.rng = bad ++ k :: rest ∧ s.tries + bad.length + 1 ≤ s.cap.toNat ∧ bad ≠ [] ∧
      let e := int (sm3 (zValue (identOf s) xq yq ++ s.ibuf.readBytes 0 s.ilen.toNat)) % curveN
      (∀ x ∈ bad, SignDegenerate (s.regNat 0) e x.toNat) ∧ ¬SignDegenerate (s.regNat 0) e k.toNat := by
  have hd : (loaded (be 3 0x616263) 1 .inf [0, 2, 7]).regNat 0 = 1 := by decide +kernel
  have hm : (loaded (be 3 0x616263) 1 .inf [0, 2, 7]).ibuf.readBytes 0
      (loaded (be 3 0x616263) 1 .inf [0, 2, 7]).ilen.toNat = be 3 0x616263 := by decide +kernel
  have hi : identOf (loaded (be 3 0x616263) 1 .inf [0, 2, 7]) = defaultId := by decide +kernel
  refine ⟨loaded (be 3 0x616263) 1 .inf [0, 2, 7], [0], 2, [7], curveGx, curveGy, inv_loaded _ _ _ _ (by decide +kernel),
    ?_, ?_, ?_, ?_, rfl, by decide +kernel, by decide, ?_, ?_⟩
  · rw [hd]
  · rw [hd]; decide +kernel
  · rw [hi]; decide +kernel
  · rw [hd]; exact oneG
  · rintro x hx
    rw [List.mem_singleton.mp hx]
    exact .inl (by decide)
  · rw [hd, hm, hi, digest_T68]
    exact draw2_good

/-- For SignFails: `r0 = 0`; an identity too long where BUF_BYTES allows one; draws of 0 up to the cap, and fewer. -/
theorem test_witness_SignFails :
    ¬1 ≤ (scheduled []).regNat 0 ∧ (scheduled []).Inv ∧
    (8192 ≤ Config.bufBytes → ∃ s : State, s.Inv ∧ 1 ≤ s.regNat 0 ∧ s.regNat 0 ≤ curveN - 2 ∧ 8191 < (identOf s).length) ∧
    ((loaded [] 1 .inf [0, 0, 0, 0, 0]).Inv ∧ (loaded [] 1 .inf [0, 0, 0, 0, 0]).regNat 0 = 1 ∧
      (loaded [] 1 .inf [0, 0, 0, 0, 0]).rng = [0, 0, 0, 0, 0] ++ [] ∧
      (loaded [] 1 .inf [0, 0, 0, 0, 0]).tries + [0, 0, 0, 0, (0 : Big)].length = (loaded [] 1 .inf [0, 0, 0, 0, 0]).cap.toNat ∧
      ∀ e, ∀ x ∈ [0, 0, 0, 0, (0 : Big)], SignDegenerate 1 e x.toNat) ∧
    (loaded [] 1 .inf [0, 0, 0, 0]).tries + (loaded [] 1 .inf [0, 0, 0, 0]).rng.length <
      (loaded [] 1 .inf [0, 0, 0, 0]).cap.toNat := by
  refine ⟨by decide, inv_scheduled [], fun h => (long_identity h).imp fun s hs => ⟨hs.1, ?_, ?_, hs.2.2.1⟩,
    ⟨inv_loaded _ _ _ _ (by decide), by decide +kernel, rfl, by decide +kernel, ?_⟩, by decide +kernel⟩
  · rw [hs.2.2.2]
  · rw [hs.2.2.2]; decide +kernel
  · intro e x hx
    have h0 : x = 0 := by simpa using hx
    rw [h0]
    exact .inl (by decide)

/-- For SignThenVerify and EncryptThenDecrypt: a successful SM2SIGN (T68), and a successful SM2ENC of the empty plaintext
(T78) and of `M2` are of these forms; the premises on the state before. -/
theorem test_witness_SignThenVerify :
    ∃ s t : State, s.Inv ∧ s.inflight ≠ none ∧ exec .sm2sign s = .next t ∧ t.inflight = none ∧ t.err = none := by
  have h : after (exec .sm2sign (loaded (be 3 0x616263) 1 .inf [2])) (fun t => t.inflight == none && t.err == none) = true := by
    decide +kernel
  unfold after at h
  split at h
  · rename_i t ht
    have h2 := Bool.and_eq_true_iff.mp h
    exact ⟨_, t, inv_loaded _ _ _ _ (by decide +kernel), by decide, ht, eq_of_beq h2.1, eq_of_beq h2.2⟩
  · exact absurd h (by decide)
  · exact absurd h (by decide)

/-- The keystream of `2·G` (`Q = G`, draw 2) starts with a byte that is not 0, so the draw is good for every length. -/
theorem draw2_good_enc : ¬EncDegenerate baseG 3 2 := by
  unfold EncDegenerate
  rw [twoG]
  decide +kernel

/-- For EncryptSucceeds and EncryptThenDecrypt: `Q = G`, "abc", a draw of 0 and then 2. -/
theorem test_witness_EncryptSucceeds :
    ∃ (s : State) (bad : List Big) (k : Big) (rest : List Big), s.Inv ∧ s.ilen.toNat ≠ 0 ∧
      65 - s.cfg.nopfx.toNat + 32 + s.ilen.toNat ≤ Config.bufBytes ∧ validPoint (s.point 0) = true ∧
      s.rng = bad ++ k :: rest ∧ s.tries + bad.length + 1 ≤ s.cap.toNat ∧ bad ≠ [] ∧
      (∀ x ∈ bad, EncDegenerate (s.point 0) s.ilen.toNat x.toNat) ∧ ¬EncDegenerate (s.point 0) s.ilen.toNat k.toNat := by
  have hp : (loaded (be 3 0x616263) 1 baseG [0, 2, 7]).point 0 = baseG := by decide +kernel
  have hl : (loaded (be 3 0x616263) 1 baseG [0, 2, 7]).ilen.toNat = 3 := by decide +kernel
  refine ⟨loaded (be 3 0x616263) 1 baseG [0, 2, 7], [0], 2, [7], inv_loaded _ _ _ _ (by decide +kernel), ?_, ?_, ?_, rfl,
    by decide +kernel, by decide, ?_, ?_⟩
  · rw [hl]; decide
  · rw [hl]; exact le_trans (by decide +kernel) bufBytes_ge
  · rw [hp]; decide +kernel
  · rintro x hx
    rw [List.mem_singleton.mp hx]
    exact .inl (by decide)
  · rw [hp, hl]
    exact draw2_good_enc

theorem test_witness_EncryptThenDecrypt :
    ∃ s t : State, s.Inv ∧ s.inflight ≠ none ∧ 1 ≤ s.regNat 0 ∧ s.regNat 0 ≤ curveN - 2 ∧
      s.point 0 = scalarMul baseG (s.regNat 0) ∧ exec .sm2enc s = .next t ∧ t.inflight = none ∧ t.err = none ∧
      t.olen = 100 := by
  have h : after (exec .sm2enc (loaded (be 3 0x616263) 1 baseG [2]))
      (fun t => t.inflight == none && (t.err == none && t.olen == 100)) = true := by
    decide +kernel
  have hd : (loaded (be 3 0x616263) 1 baseG [2]).regNat 0 = 1 := by decide +kernel
  have hp : (loaded (be 3 0x616263) 1 baseG [2]).point 0 = baseG := by decide +kernel
  unfold after at h
  split at h
  · rename_i t ht
    have h2 := Bool.and_eq_true_iff.mp h
    have h3 := Bool.and_eq_true_iff.mp h2.2
    refine ⟨_, t, inv_loaded _ _ _ _ (by decide +kernel), by decide, ?_, ?_, ?_, ht, eq_of_beq h2.1, eq_of_beq h3.1,
      eq_of_beq h3.2⟩
    · rw [hd]
    · rw [hd]; decide +kernel
    · rw [hd, hp, oneG]; rfl
  · exact absurd h (by decide)
  · exact absurd h (by decide)

/-- For EncryptFails: a plaintext of BUF_BYTES bytes never fits; `p0 = O`; draws of 0 up to the cap, and fewer. -/
theorem test_witness_EncryptFails :
    (∃ s : State, s.Inv ∧ s.ilen.toNat ≠ 0 ∧ Config.bufBytes < 65 - s.cfg.nopfx.toNat + 32 + s.ilen.toNat) ∧
    (65 - (loaded [1] 1 .inf []).cfg.nopfx.toNat + 32 + (loaded [1] 1 .inf []).ilen.toNat ≤ Config.bufBytes ∧
      validPoint ((loaded [1] 1 .inf []).point 0) = false) ∧
    (validPoint ((loaded [1] 1 baseG [0, 0, 0, 0, 0]).point 0) = true ∧
      (loaded [1] 1 baseG [0, 0, 0, 0, 0]).rng = [0, 0, 0, 0, 0] ++ [] ∧
      (loaded [1] 1 baseG [0, 0, 0, 0, 0]).tries + [0, 0, 0, 0, (0 : Big)].length =
        (loaded [1] 1 baseG [0, 0, 0, 0, 0]).cap.toNat ∧
      ∀ q l, ∀ x ∈ [0, 0, 0, 0, (0 : Big)], EncDegenerate q l x.toNat) ∧
    (loaded [1] 1 baseG [0, 0, 0, 0]).tries + (loaded [1] 1 baseG [0, 0, 0, 0]).rng.length <
      (loaded [1] 1 baseG [0, 0, 0, 0]).cap.toNat := by
  have hb := bufBytes_lt
  have hg := bufBytes_ge
  have hw : (BitVec.ofNat 32 Config.bufBytes).toNat = Config.bufBytes := by
    rw [BitVec.toNat_ofNat]
    exact Nat.mod_eq_of_lt (by omega)
  have hn : ((scheduled []).setLen .ibuf (BitVec.ofNat 32 Config.bufBytes)).cfg.nopfx = false := rfl
  have hi : ((scheduled []).setLen .ibuf (BitVec.ofNat 32 Config.bufBytes)).ilen.toNat = Config.bufBytes := hw
  refine ⟨⟨(scheduled []).setLen .ibuf (BitVec.ofNat 32 Config.bufBytes), (inv_scheduled []).setLen .ibuf _ hw.le, ?_, ?_⟩,
    ⟨?_, by decide +kernel⟩, ⟨by decide +kernel, rfl, by decide +kernel, ?_⟩, by decide +kernel⟩
  · rw [hi]; omega
  · rw [hi, hn, Bool.toNat_false]; omega
  · exact le_trans (by decide +kernel) bufBytes_ge
  · intro q l x hx
    have h0 : x = 0 := by simpa using hx
    rw [h0]
    exact .inl (by decide)

/-- For DecryptOutcome: each of its clauses, in the order of the tests. The last is a ciphertext of "abc" for `G` and the
draw 2, where the private scalar 1 gives `1·C1 = 2·G`. -/
theorem test_witness_DecryptOutcome :
    ((loaded [4] 0 .inf []).ilen.toNat ≠ 0 ∧ ¬1 ≤ (loaded [4] 0 .inf []).regNat 0) ∧
    ((loaded [4] 1 .inf []).regNat 0 = 1 ∧ (loaded [4] 1 .inf []).ilen.toNat < 65 + 32) ∧
    (65 + 32 ≤ (loaded (List.replicate 97 3) 1 .inf []).ilen.toNat ∧
      (loaded (List.replicate 97 3) 1 .inf []).ilen.toNat ≤ Config.bufBytes ∧
      (loaded (List.replicate 97 3) 1 .inf []).cfg.nopfx = false ∧
      (loaded (List.replicate 97 3) 1 .inf []).ibuf.read 0 ≠ 0x04#8) ∧
    ((loaded (List.replicate 97 4) 1 .inf []).ibuf.read 0 = 0x04#8 ∧
      validPoint (.aff (int ((loaded (List.replicate 97 4) 1 .inf []).ibuf.readBytes 1 32))
        (int ((loaded (List.replicate 97 4) 1 .inf []).ibuf.readBytes 33 32))) = false) ∧
    ((loaded (encodePoint false curveGx curveGy ++ List.replicate 32 0) 1 .inf []).ilen.toNat = 97 ∧
      validPoint (.aff
        (int ((loaded (encodePoint false curveGx curveGy ++ List.replicate 32 0) 1 .inf []).ibuf.readBytes 1 32))
        (int ((loaded (encodePoint false curveGx curveGy ++ List.replicate 32 0) 1 .inf []).ibuf.readBytes 33 32))) = true ∧
      sm3 (be 32 curveGx ++ be 32 curveGy) ≠ List.replicate 32 0) ∧
    after (exec .sm2dec (loaded (encodePoint false curveGx curveGy ++ sm3 (be 32 curveGx ++ be 32 curveGy)) 1 .inf []))
      (fun t => t.err == none && t.olen == 0) = true := by
  decide +kernel

theorem test_witness_EmptyPlaintext : State.reset.ilen = 0 := rfl

theorem test_witness_LengthWrites : State.reset.busy = false := rfl

/-- For RegisterThroughWindow and ReadsChangeNothing: the last byte of SIGBUF, a byte and an aligned word of IBUF and ABUF,
the last byte and the last word of a register, OBUF, and a place of each kind of reserved offset, its ends where the spec numbers them. -/
theorem test_witness_RegisterThroughWindow_ReadsChangeNothing :
    (scheduled []).Inv ∧ (scheduled []).busy = false ∧ 71 < capacity .sigbuf ∧ 71 < (72#32).toNat ∧
    (255 < capacity .ibuf ∧ 252 % 4 = 0 ∧ 252 < capacity .abuf) ∧ ((31 : Nat) < 32 ∧ 28 % 4 = 0) ∧ 255 < Config.bufBytes ∧
    (2 * Config.bstride ≤ 2 * Config.bstride ∧ 2 * Config.bstride < 2 * Config.bstride + Config.bufBytes) ∧
    (IsReserved 0x088 ∧ IsReserved 0x0FF) ∧ (IsReserved 0x144 ∧ IsReserved 0x27F) ∧ (IsReserved 0x280 ∧ IsReserved 0x3FF) ∧
    (IsReserved 0x600 ∧ IsReserved (Config.bstride - 1)) ∧
    (Config.bufBytes < Config.bstride → IsReserved (3 * Config.bstride + Config.bufBytes)) := by
  have hb := bufBytes_ge
  have hs := bstride_ge
  refine ⟨inv_scheduled [], rfl, by decide, by decide, ⟨hb.trans_lt' (by decide), by decide, hb.trans_lt' (by decide)⟩,
    by decide, by omega, ⟨by omega, by omega⟩, ⟨.inl ⟨by decide, by decide⟩, .inl ⟨by decide, by decide⟩⟩,
    ⟨.inr (.inl ⟨0, by decide, by decide⟩), .inr (.inl ⟨3, by decide, by decide⟩)⟩,
    ⟨.inr (.inr (.inl ⟨by decide, by decide⟩)), .inr (.inr (.inl ⟨by decide, by decide⟩))⟩,
    ⟨.inr (.inr (.inr (.inl ⟨by omega, by omega⟩))), .inr (.inr (.inr (.inl ⟨by omega, by omega⟩)))⟩, fun h => ?_⟩
  exact .inr (.inr (.inr (.inr ⟨3, by omega, by omega, by omega, by omega⟩)))

/-- For BytesOfAWord: the first word of `r0`, of the reserved places before it and of IBUF. -/
theorem test_witness_BytesOfAWord :
    (0x400 % 4 = 0 ∧ 0x400 < Config.windowSize ∧ (placeOf 0x400).wordOnly = false) ∧
    (0x3FC % 4 = 0 ∧ 0x3FC < Config.windowSize ∧ (placeOf 0x3FC).wordOnly = false) :=
  ⟨⟨by decide, lt_windowSize _ (by decide), by decide +kernel⟩, ⟨by decide, lt_windowSize _ (by decide), by decide +kernel⟩⟩

/-- For ReadBeyondLength: indices at the length, and the last byte of SIGBUF with SIGLEN raised to 72. -/
theorem test_witness_ReadBeyondLength :
    State.reset.olen.toNat ≤ 0 ∧ State.reset.siglen.toNat ≤ 0 ∧ (scheduled []).Inv ∧ (scheduled []).busy = false ∧
    (71 : Nat) < 72 ∧ 71 < (72#32).toNat ∧ (72#32).toNat ≤ 72 :=
  ⟨by decide, by decide, inv_scheduled [], rfl, by decide, by decide, by decide⟩

/-- For RefusedAccess: the last offset of the window, a misaligned one, the ends of the control block and of an INF word. -/
theorem test_witness_RefusedAccess :
    Config.windowSize - 1 < Config.windowSize ∧ 0x401 < Config.windowSize ∧ 0x401 % 4 ≠ 0 ∧ 0x03F < 0x40 ∧
    0x263 < Config.windowSize ∧ 0x140 + 0x60 * (3 : PReg).val ≤ 0x263 ∧ 0x263 < 0x144 + 0x60 * (3 : PReg).val := by
  have h := windowSize_ge
  refine ⟨by omega, by omega, by decide, by decide, by omega, by decide, by decide⟩

theorem test_witness_ReadsChangeNothing : ∃ t, busAccess (.readHalf Config.base) State.reset = .next t :=
  ⟨_, busAccess_of_addr (.readHalf Config.base) 0 State.reset (Nat.add_zero _).symm (lt_windowSize 0 (by decide))⟩

end Sys2Proof.Tests
end

/-!
What a command can end in, once for all 26 commands: the writes of its write set, an error that empties its destination,
or the wait for an answer of the random source. The statements about `step` and `exec` follow from it.
-/
namespace Sys2Proof.Machine

/-- `u` differs from `s` only in the registers, points and chaining words the command may write (R41). -/
structure Writes (i : Instr) (s u : State) : Prop where
  rest : u = { s with r := u.r, p := u.p, v := u.v }
  reg : ∀ k, k ∉ destRegs i → u.reg k = s.reg k
  preg : ∀ k, destPoint i ≠ some k → u.preg k = s.preg k
  chain : writesChain i = false → u.v = s.v

theorem Writes.refl (i : Instr) (s : State) : Writes i s s := ⟨rfl, fun _ _ => rfl, fun _ _ => rfl, fun _ => rfl⟩

theorem Writes.setRegNat {i : Instr} {s u : State} (h : Writes i s u) {k : Reg} (hk : k ∈ destRegs i) (x : Nat) :
    Writes i s (u.setRegNat k x) where
  rest := congrArg (State.setRegNat · k x) h.rest
  reg j hj := by
    rw [State.reg_setRegNat, if_neg (ne_of_mem_of_not_mem hk hj)]
    exact h.reg j hj
  preg := h.preg
  chain := h.chain

theorem Writes.setPoint {i : Instr} {s u : State} (h : Writes i s u) {k : PReg} (hk : destPoint i = some k)
    (q : AffinePoint) : Writes i s (u.setPoint k q) where
  rest := congrArg (State.setPoint · k q) h.rest
  reg := h.reg
  preg j hj := by
    rw [State.preg_setPoint, if_neg fun e : k = j => hj (e ▸ hk)]
    exact h.preg j hj
  chain := h.chain

theorem Writes.setChain {i : Instr} (s : State) (hi : writesChain i = true) (x : Vector Word 8) :
    Writes i s { s with v := x } where
  rest := rfl
  reg _ _ := rfl
  preg _ _ := rfl
  chain hc := absurd (hi.symm.trans hc) (by decide)

/-- `att` attempts are counted and `rng` is left of the answers (R46, R221): none is made, or those of an earlier wait and
the ones whose answers are used now, within the cap. -/
def Drawn (i : Instr) (s : State) (att : Nat) (rng : List Big) : Prop :=
  (att = 0 ∧ rng = s.rng) ∨
    (draws i = true ∧ ∃ used, s.rng = used ++ rng ∧ att = s.tries + used.length ∧
      (s.tries ≤ s.cap.toNat → att ≤ s.cap.toNat))

/-- The error write of a command: the length of its destination buffer, if it has one, becomes 0 (R41, R262). -/
def emptyDest (i : Instr) (s : State) : State :=
  match destBuf i with
  | some b => s.emptied b
  | none => s

/-- What a command answers with. -/
inductive Ended (i : Instr) (s : State) : State → Prop
  /-- Registers, a point or the chaining words written, or an answer in RESULT. -/
  | done (u : State) (answer : Bool) (hw : Writes i s u) (ha : answer = true → i = .sm2vfy ∨ ∃ pa, i = .pchk pa) :
      Ended i s (u.complete answer 0 none)
  /-- A byte string in the destination buffer, and registers written. -/
  | stored (u : State) (b : Buf) (v : Bytes) (att : Nat) (rng : List Big) (hd : Drawn i s att rng)
      (hw : Writes i (s.drew rng) u) (hb : destBuf i = some b) (hv : v.length ≤ capacity b) :
      Ended i s ((u.put b v).complete false att none)
  /-- An error of those the command's rule names. -/
  | failed (e : CmdError) (att : Nat) (rng : List Big) (hd : Drawn i s att rng)
      (he : i.wellFormed = true → e ∈ mayRaise i) :
      Ended i s ((emptyDest i (s.drew rng)).complete false att (some e))
  /-- Every answer used up below the cap. -/
  | waiting (hi : draws i = true) (hc : s.tries + s.rng.length < s.cap.toNat) :
      Ended i s (s.awaitDraw (s.tries + s.rng.length))

/-- A register written, without a draw. -/
theorem Ended.reg {i : Instr} (s : State) {k : Reg} (hk : k ∈ destRegs i) (x : Nat) :
    Ended i s ((s.setRegNat k x).complete false 0 none) := .done _ _ ((Writes.refl i s).setRegNat hk x) (by simp)

/-- A point register written, without a draw. -/
theorem Ended.point {i : Instr} (s : State) {k : PReg} (hk : destPoint i = some k) (q : AffinePoint) :
    Ended i s ((s.setPoint k q).complete false 0 none) := .done _ _ ((Writes.refl i s).setPoint hk q) (by simp)

/-- A string stored, without a draw. -/
theorem Ended.put {i : Instr} (s : State) {b : Buf} (hb : destBuf i = some b) {v : Bytes} (hv : v.length ≤ capacity b) :
    Ended i s ((s.put b v).complete false 0 none) := .stored s b v 0 s.rng (.inl ⟨rfl, rfl⟩) (.refl i _) hb hv

/-- An error, without a draw. -/
theorem Ended.raise {i : Instr} (s : State) {e : CmdError} (he : i.wellFormed = true → e ∈ mayRaise i) :
    Ended i s ((emptyDest i s).complete false 0 (some e)) := .failed e 0 s.rng (.inl ⟨rfl, rfl⟩) he

theorem execPenc_ended (pa : PReg) (s t : State) (h : execPenc pa s = .next t) : Ended (.penc pa) s t := by
  unfold execPenc at h
  split at h
  · cases h
    exact .raise s (by simp [mayRaise])
  · obtain ⟨hl, hk⟩ := putOut_next _ _ _ _ h
    cases hk
    exact .put s rfl hl

theorem execPdec_ended (pd : PReg) (s t : State) (h : execPdec pd s = .next t) : Ended (.pdec pd) s t := by
  have h := withIn_next _ _ _ h
  split at h
  · cases h
    exact .raise s (by simp [mayRaise])
  · split at h
    · cases h
      exact .point s rfl _
    · cases h
      exact .raise s (by simp [mayRaise])

theorem execSm3hash_ended (s t : State) (h : execSm3hash s = .next t) : Ended .sm3hash s t := by
  have h := withIn_next _ _ _ h
  split at h
  · obtain ⟨hl, hk⟩ := putOut_next _ _ _ _ h
    cases hk
    exact .put s rfl hl
  · obtain ⟨hl, hk⟩ := putOut_next _ _ _ _ h
    cases hk
    exact .stored _ .obuf _ 0 s.rng (.inl ⟨rfl, rfl⟩) (Writes.setChain s rfl _) rfl hl

theorem execKdfgen_ended (l : BitVec 16) (s t : State) (h : execKdfgen l s = .next t) : Ended (.kdfgen l) s t := by
  unfold execKdfgen at h
  split at h
  · cases h
    exact .raise s (by simp [mayRaise])
  · obtain ⟨hl, hk⟩ := putOut_next _ _ _ _ (withAux_next _ _ _ h)
    cases hk
    exact .put s rfl hl

theorem execDerdec_ended (rd re : Reg) (s t : State) (h : execDerdec rd re s = .next t) : Ended (.derdec rd re) s t := by
  unfold execDerdec at h
  split at h
  · rename_i hr
    cases h
    exact .raise s fun hw => absurd hr (of_decide_eq_true hw)
  · have h := withSig_next _ _ _ h
    split at h
    · cases h
      exact .raise s (by simp [mayRaise])
    · cases h
      exact .done _ _ (((Writes.refl _ s).setRegNat (by simp [destRegs]) _).setRegNat (by simp [destRegs]) _) (by simp)

theorem execSm2z_ended (s t : State) (h : execSm2z s = .next t) : Ended .sm2z s t := by
  have h := withIdent_next _ _ _ h
  split at h
  · cases h
    exact .raise s (by simp [mayRaise])
  · split at h
    · split at h
      · obtain ⟨hl, hk⟩ := putOut_next _ _ _ _ h
        cases hk
        exact .put s rfl hl
      · cases h
        exact .raise s (by simp [mayRaise])
    · cases h
      exact .raise s (by simp [mayRaise])

/-- The attempts of a loop that succeeds. -/
theorem drawn_of_success {α : Type} {attempt : Nat → Option α} {i : Instr} {s : State} {a : α} {att : Nat}
    {rng : List Big} (hi : draws i = true) (h : runLoop attempt s = .success a att rng) : Drawn i s att rng := by
  obtain ⟨bad, k, hr, -, -, -, -, hatt, hcap⟩ := runLoop_success attempt s a att rng h
  exact .inr ⟨hi, bad ++ [k], by simp [hr], by simp [hatt, Nat.add_assoc], fun _ => hcap⟩

/-- The attempts of a loop that reaches the cap. -/
theorem drawn_of_exhausted {α : Type} {attempt : Nat → Option α} {i : Instr} {s : State} {att : Nat} {rng : List Big}
    (hi : draws i = true) (h : runLoop attempt s = .exhausted att rng) : Drawn i s att rng := by
  obtain ⟨bad, hr, -, hlen, hatt⟩ := retryLoop_exhausted attempt _ _ _ att rng h
  exact .inr ⟨hi, bad, hr, by omega, by omega⟩

theorem execSm2sign_ended (s t : State) (h : execSm2sign s = .next t) : Ended .sm2sign s t := by
  rcases execSm2sign_cases s t h with rfl | ⟨xq, yq, -, -, -, h⟩
  · exact .raise s (by simp [mayRaise])
  · rcases signLoop_cases _ _ _ _ h with ⟨att, hr, rfl⟩ | ⟨att, rng, hr, rfl⟩ | ⟨r, sg, att, rng, hr, hl, rfl⟩
    · obtain ⟨-, rfl, hc⟩ := runLoop_waiting _ _ _ hr
      exact .waiting rfl hc
    · exact .failed _ att rng (drawn_of_exhausted rfl hr) (by simp [mayRaise])
    · exact .stored _ .sigbuf _ att rng (drawn_of_success rfl hr)
        (((Writes.refl _ _).setRegNat (by simp [destRegs]) _).setRegNat (by simp [destRegs]) _) rfl hl

theorem encLoop_ended (msg : Bytes) (s t : State) (h : encLoop msg s = .next t) : Ended .sm2enc s t := by
  rcases encLoop_cases msg s t h with ⟨att, hr, rfl⟩ | ⟨att, rng, hr, rfl⟩ | ⟨c, att, rng, hr, hl, rfl⟩
  · obtain ⟨-, rfl, hc⟩ := runLoop_waiting _ _ _ hr
    exact .waiting rfl hc
  · exact .failed _ att rng (drawn_of_exhausted rfl hr) (by simp [mayRaise])
  · exact .stored _ .obuf _ att rng (drawn_of_success rfl hr) (.refl _ _) rfl hl

theorem execSm2enc_ended (s t : State) (h : execSm2enc s = .next t) : Ended .sm2enc s t := by
  unfold execSm2enc at h
  split at h
  · obtain ⟨hl, hk⟩ := putOut_next _ _ _ _ h
    cases hk
    exact .put s rfl hl
  · split at h
    · cases h
      exact .raise s (by simp [mayRaise])
    · split at h
      · cases h
        exact .raise s (by simp [mayRaise])
      · exact encLoop_ended _ s t (withIn_next _ _ _ h)

/-- SM2DEC gives one of its errors, or a plaintext no longer than the ciphertext (R242). -/
theorem decryptBytes_cases (order nopfx : Bool) (d : Nat) (c : Bytes) :
    (∃ e ∈ mayRaise .sm2dec, decryptBytes order nopfx d c = .error e) ∨
      ∃ msg, msg.length ≤ c.length ∧ decryptBytes order nopfx d c = .ok msg := by
  unfold decryptBytes
  dsimp only
  split
  · exact .inl ⟨.validation, by simp [mayRaise], rfl⟩
  split
  · exact .inl ⟨.validation, by simp [mayRaise], rfl⟩
  split
  · exact .inl ⟨.validation, by simp [mayRaise], rfl⟩
  split
  · exact .inl ⟨.invalidPoint, by simp [mayRaise], rfl⟩
  split
  · exact .inl ⟨.invalidPoint, by simp [mayRaise], rfl⟩
  split
  · exact .inl ⟨.decryptionIntegrity, by simp [mayRaise], rfl⟩
  · exact .inr ⟨_, by cases order <;> simp [splitCipher], rfl⟩

theorem execSm2dec_ended (s t : State) (h : execSm2dec s = .next t) : Ended .sm2dec s t := by
  unfold execSm2dec at h
  split at h
  · obtain ⟨hl, hk⟩ := putOut_next _ _ _ _ h
    cases hk
    exact .put s rfl hl
  · have h := withIn_next _ _ _ h
    rcases decryptBytes_cases s.cfg.order s.cfg.nopfx (s.regNat 0) (s.ibuf.readBytes 0 s.ilen.toNat) with
      ⟨e, hm, he⟩ | ⟨msg, -, he⟩
    · rw [he] at h
      cases h
      exact .raise s fun _ => hm
    · rw [he] at h
      obtain ⟨hl, hk⟩ := putOut_next _ _ _ _ h
      cases hk
      exact .put s rfl hl

/-- Every command that answers a next state ends in one of the ways of `Ended`. -/
theorem exec_ended (i : Instr) (s t : State) (h : exec i s = .next t) : Ended i s t := by
  cases i with
  | modadd rd ra rb m => cases h; exact .reg s (by simp [destRegs]) _
  | modsub rd ra rb m => cases h; exact .reg s (by simp [destRegs]) _
  | modmul rd ra rb m => cases h; exact .reg s (by simp [destRegs]) _
  | modinv rd ra m =>
    rcases execModinv_cases rd ra m s t h with ⟨-, rfl⟩ | ⟨-, rfl⟩
    · exact .raise s (by simp [mayRaise])
    · exact .reg s (by simp [destRegs]) _
  | montmul rd ra rb m => cases h; exact .reg s (by simp [destRegs]) _
  | ldc rd c => cases h; exact .reg s (by simp [destRegs]) _
  | padd pd pa pb => cases h; exact .point s rfl _
  | pdbl pd pa => cases h; exact .point s rfl _
  | pmul pd pa rk => cases h; exact .point s rfl _
  | pchk pa => cases h; exact .done s _ (.refl _ s) fun _ => .inr ⟨pa, rfl⟩
  | pldg pd => cases h; exact .point s rfl _
  | penc pa => exact execPenc_ended pa s t h
  | pdec pd => exact execPdec_ended pd s t h
  | sm3init => cases h; exact .done _ _ (Writes.setChain s rfl _) (by simp)
  | sm3blk =>
    rcases execSm3blk_cases s t h with ⟨-, rfl⟩ | ⟨-, rfl⟩
    · exact .raise s (by simp [mayRaise])
    · exact .done _ _ (Writes.setChain s rfl _) (by simp)
  | sm3hash => exact execSm3hash_ended s t h
  | kdfgen l => exact execKdfgen_ended l s t h
  | kdfxor =>
    obtain ⟨v, hv, rfl⟩ := execKdfxor_cases s t h
    exact .put s rfl hv
  | derenc ra rb =>
    obtain ⟨hv, rfl⟩ := execDerenc_cases ra rb s t h
    exact .put s rfl hv
  | derdec rd re => exact execDerdec_ended rd re s t h
  | sm2key =>
    rcases execSm2key_cases s t h with ⟨-, rfl⟩ | ⟨-, rfl⟩
    · exact .raise s (by simp [mayRaise])
    · exact .point s rfl _
  | sm2z => exact execSm2z_ended s t h
  | sm2sign => exact execSm2sign_ended s t h
  | sm2vfy =>
    obtain rfl := execSm2vfy_cases s t h
    exact .done s _ (.refl _ s) fun _ => .inl rfl
  | sm2enc => exact execSm2enc_ended s t h
  | sm2dec => exact execSm2dec_ended s t h

end Sys2Proof.Machine

/-! The invariant of the machine (R49): at reset, kept by every end of a command, by every action of the host, by a step. -/
namespace Sys2Proof.Machine

theorem State.inv_reset : State.reset.Inv where
  memWf b := by cases b <;> exact ⟨.nil, by simp [State.mem, State.reset]⟩
  memBound b := by cases b <;> simp [State.mem, State.reset]
  lenBound b := by cases b <;> simp [State.len, State.reset]
  busyNotDone _ := rfl
  notDoneClear _ := ⟨rfl, rfl, rfl⟩
  errNoResult _ := rfl
  triesBound := Nat.zero_le _
  idleNoTries _ := rfl

/-- The invariant speaks of the buffers, their lengths, STATUS and the attempts only. -/
theorem State.Inv.outside {s : State} (h : s.Inv) (r : Vector Big 16) (p : Vector PointReg 4) (v : Vector Word 8)
    (cfg : Cfg) (host : List HostEvent) (rng : List Big) (resp : Response) (fresh : Nat) :
    State.Inv { s with r := r, p := p, v := v, cfg := cfg, host := host, rng := rng, resp := resp, fresh := fresh } :=
  ⟨h.memWf, h.memBound, h.lenBound, h.busyNotDone, h.notDoneClear, h.errNoResult, h.triesBound, h.idleNoTries⟩

theorem Writes.inv {i : Instr} {s u : State} (h : Writes i s u) (hs : s.Inv) : u.Inv := by
  rw [h.rest]
  exact hs.outside _ _ _ _ _ _ _ _

theorem State.Inv.drew {s : State} (h : s.Inv) (rng : List Big) : (s.drew rng).Inv :=
  h.outside _ _ _ _ _ _ _ _

theorem State.Inv.emptyDest {s : State} (h : s.Inv) (i : Instr) : (emptyDest i s).Inv := by
  unfold Machine.emptyDest
  split
  · exact h.emptied _
  · exact h

theorem Ended.inv {i : Instr} {s t : State} (h : Ended i s t) (hs : s.Inv) (hb : s.busy = true) : t.Inv := by
  cases h with
  | done u answer hw _ => exact (hw.inv hs).complete _ _ _ (by simp)
  | stored u b v att rng _ hw _ hv => exact ((hw.inv (hs.drew rng)).put b v hv).complete _ _ _ (by simp)
  | failed e att rng _ _ => exact ((hs.drew rng).emptyDest i).complete _ _ _ (by simp)
  | waiting _ hc => exact hs.awaitDraw _ hc.le hb

theorem coreStep_keeps_inv {s t : State} (hs : s.Inv) (h : coreStep s = .next t) : t.Inv := by
  unfold coreStep at h
  split at h
  · cases h
    exact hs
  · rename_i w hw
    split at h
    · exact (exec_ended _ s t h).inv hs (by simp [State.busy, hw])
    · cases h
      exact hs.complete _ _ _ (by simp)

theorem State.Inv.respond {s : State} (h : s.Inv) (a : Response) : (s.respond a).Inv :=
  h.congr (by simp) (by simp) rfl rfl rfl rfl rfl rfl rfl

theorem State.Inv.writeUnlessBusy {s t : State} (hs : s.Inv) (ht : s.busy = false → t.Inv) :
    (writeUnlessBusy s t).Inv := by
  cases hb : s.busy with
  | true => rw [writeUnlessBusy_of_busy s t hb]; exact hs.respond _
  | false => rw [writeUnlessBusy_of_idle s t hb]; exact (ht hb).respond _

theorem lenWritable_le {b : Buf} {w : Word} (h : lenWritable b w = true) : w.toNat ≤ capacity b := by
  cases b with
  | obuf => cases h
  | ibuf => exact of_decide_eq_true h
  | abuf => exact of_decide_eq_true h
  | sigbuf => exact of_decide_eq_true h

theorem byteWritable_lt {b : Buf} {j : Nat} (h : byteWritable b j = true) : j < capacity b := by
  cases b with
  | obuf => cases h
  | ibuf => exact of_decide_eq_true h
  | abuf => exact of_decide_eq_true h
  | sigbuf => exact of_decide_eq_true h

theorem State.Inv.storeLen {s : State} (h : s.Inv) (b : Buf) (w : Word) : (storeLen s b w).Inv := by
  unfold Machine.storeLen
  split
  · rename_i hw
    exact h.setLen b w (lenWritable_le hw)
  · exact h

theorem State.Inv.storeByte {s : State} (h : s.Inv) (b : Buf) (j : Nat) (x : Byte) : (storeByte s b j x).Inv := by
  unfold Machine.storeByte
  split
  · rename_i hj
    refine h.setMem b _ ((s.mem b).wf_write (h.memWf b) j x) fun c hc => ?_
    rcases Memory.mem_write _ _ _ _ hc with hc | rfl
    · exact h.memBound b c hc
    · exact byteWritable_lt hj
  · exact h

theorem State.Inv.hostClearStatus {s : State} (h : s.Inv) : (hostClearStatus s).Inv := by
  cases hb : s.busy with
  | true => rwa [hostClearStatus_of_busy s hb]
  | false =>
    rw [hostClearStatus_of_idle s hb]
    exact ⟨h.memWf, h.memBound, h.lenBound, fun _ => rfl, fun _ => ⟨rfl, rfl, rfl⟩, fun _ => rfl, h.triesBound,
      h.idleNoTries⟩

theorem State.Inv.hostIssue {s : State} (h : s.Inv) (w : Word) : (hostIssue w s).Inv := by
  by_cases hr : s.busy = true ∨ s.err ≠ none
  · rwa [hostIssue_refused w s hr]
  · simp only [not_or, Bool.not_eq_true, not_not] at hr
    obtain ⟨hb, he⟩ := hr
    rw [hostIssue_of_ready w s hb he]
    exact ⟨h.memWf, h.memBound, h.lenBound, fun _ => rfl, fun _ => ⟨rfl, he, rfl⟩, fun _ => rfl, h.triesBound,
      fun hi => by cases hi⟩

/-- RETRY_CAP is written only with no attempt pending. -/
theorem State.Inv.setCap {s : State} (h : s.Inv) (hb : s.busy = false) (c : BitVec 8) : State.Inv { s with cap := c } where
  memWf := h.memWf
  memBound := h.memBound
  lenBound := h.lenBound
  busyNotDone := h.busyNotDone
  notDoneClear := h.notDoneClear
  errNoResult := h.errNoResult
  triesBound := (h.idleNoTries hb).trans_le (Nat.zero_le _)
  idleNoTries := h.idleNoTries

theorem hostOp_keeps_inv {s : State} (h : s.Inv) (o : HostOp) : (hostOp o s).Inv := by
  cases o with
  | writeReg k v => exact h.writeUnlessBusy fun _ => h.setReg k v
  | writePointX k v => exact h.writeUnlessBusy fun _ => h.setPreg k _
  | writePointY k v => exact h.writeUnlessBusy fun _ => h.setPreg k _
  | writePointInf k b => exact h.writeUnlessBusy fun _ => h.setPreg k _
  | writeV j v => exact h.writeUnlessBusy fun _ => h.outside _ _ _ _ _ _ _ _
  | writeBuf b off v => exact h.writeUnlessBusy fun _ => h.storeByte b off v
  | writeLen b v => exact h.writeUnlessBusy fun _ => h.storeLen b v
  | writeCfg v => exact h.writeUnlessBusy fun _ => h.outside _ _ _ _ _ _ _ _
  | writeCap v => exact h.writeUnlessBusy fun hb => h.setCap hb _
  | clearStatus => exact h.hostClearStatus.respond _
  | issue w => exact (h.hostIssue w).respond _
  | reset => exact State.inv_reset.outside _ _ _ _ _ _ _ _
  | readReg k => exact h.respond _
  | readPointX k => exact h.respond _
  | readPointY k => exact h.respond _
  | readPointInf k => exact h.respond _
  | readV i => exact h.respond _
  | readBuf b off => exact h.respond _
  | readLen b => exact h.respond _
  | readCfg => exact h.respond _
  | readCap => exact h.respond _
  | readStatus => exact h.respond _

theorem State.Inv.storePlace {s : State} (h : s.Inv) (x : Byte) (p : Place) : (storePlace s x p).Inv := by
  cases p with
  | buf b j => exact h.storeByte b j x
  | pointX k j => exact h.setPreg k _
  | pointY k j => exact h.setPreg k _
  | reg k j => exact h.setReg k _
  | cmd | status | cfg | retryCap | len | chain | pointInf | reserved => exact h

theorem State.Inv.storeBytes {s : State} (h : s.Inv) (off : Nat) (v : Bytes) : (storeBytes s off v).Inv := by
  induction v generalizing s off with
  | nil => exact h
  | cons x t ih => exact ih (h.storePlace x _) (off + 1)

/-- The abstract operation a word write of the host is at a place that takes words only (R72, R73). -/
def wordOp (v : Word) : Place → Option HostOp
  | .cmd => some (.issue v)
  | .status => some .clearStatus
  | .cfg => some (.writeCfg v)
  | .retryCap => some (.writeCap v)
  | .len b => some (.writeLen b v)
  | .chain i => some (.writeV i v)
  | .pointInf k => some (.writePointInf k (v.getLsbD 0))
  | .buf _ _ => none
  | .pointX _ _ => none
  | .pointY _ _ => none
  | .reg _ _ => none
  | .reserved => none

theorem writeWordPlace_cases (off : Nat) (v : Word) (s : State) (p : Place) :
    (∃ o, wordOp v p = some o ∧ writeWordPlace off v s p = hostOp o s) ∨
      writeWordPlace off v s p = writeUnlessBusy s (storeBytes s off (be 4 v.toNat)) := by
  cases p with
  | cmd | status | cfg | retryCap | len | chain | pointInf => exact .inl ⟨_, rfl, rfl⟩
  | buf | pointX | pointY | reg | reserved => exact .inr rfl

theorem readWordPlace_eq_respond (off : Nat) (s : State) (p : Place) : ∃ x, readWordPlace off s p = s.respond x := by
  cases p <;> exact ⟨_, rfl⟩

/-- A byte read answers, or is refused (R63). -/
theorem readByteAt_changes (off : Nat) (s : State) :
    ∃ x n, readByteAt off s = { s with resp := x, fresh := n } := by
  unfold readByteAt
  split
  · exact ⟨_, _, rfl⟩
  · exact ⟨_, _, rfl⟩

/-- A word read answers, or is refused (R63). -/
theorem readWordAt_changes (off : Nat) (s : State) :
    ∃ x n, readWordAt off s = { s with resp := x, fresh := n } := by
  unfold readWordAt
  split
  · exact ⟨_, _, rfl⟩
  · obtain ⟨x, hx⟩ := readWordPlace_eq_respond off s (placeOf off)
    exact ⟨x, s.fresh, hx⟩

/-- What an access in the window can do: answer or refuse, act as the abstract operation of its place, store bytes. -/
theorem accessAt_cases (off : Nat) (a : BusAccess) (s : State) :
    (∃ x n, accessAt off a s = { s with resp := x, fresh := n }) ∨
    (∃ addr v o, a = .writeWord addr v ∧ wordOp v (placeOf off) = some o ∧ accessAt off a s = hostOp o s) ∨
    ∃ l, accessAt off a s = writeUnlessBusy s (storeBytes s off l) := by
  cases a with
  | readByte _ => exact .inl (readByteAt_changes off s)
  | readHalf _ => exact .inl ⟨_, _, rfl⟩
  | readWord _ => exact .inl (readWordAt_changes off s)
  | writeByte addr v =>
    show (∃ x n, writeByteAt off v s = _) ∨ _ ∨ ∃ l, writeByteAt off v s = _
    unfold writeByteAt
    split
    · exact .inl ⟨_, _, rfl⟩
    · exact .inr (.inr ⟨[v], rfl⟩)
  | writeHalf _ _ => exact .inl ⟨_, _, rfl⟩
  | writeWord addr v =>
    show (∃ x n, writeWordAt off v s = _) ∨ (∃ _ _ _, _ ∧ _ ∧ writeWordAt off v s = _) ∨ ∃ l, writeWordAt off v s = _
    unfold writeWordAt
    split
    · exact .inl ⟨_, _, rfl⟩
    · rcases writeWordPlace_cases off v s (placeOf off) with ⟨o, ho, he⟩ | he
      · exact .inr (.inl ⟨addr, v, o, rfl, ho, he⟩)
      · exact .inr (.inr ⟨_, he⟩)

theorem accessAt_keeps_inv {s : State} (h : s.Inv) (off : Nat) (a : BusAccess) : (accessAt off a s).Inv := by
  rcases accessAt_cases off a s with ⟨x, n, he⟩ | ⟨-, -, o, -, -, he⟩ | ⟨l, he⟩
  · rw [he]
    exact h.outside _ _ _ _ _ _ _ _
  · rw [he]
    exact hostOp_keeps_inv h o
  · rw [he]
    exact h.writeUnlessBusy fun _ => h.storeBytes off l

/-- A step is a move of the core, or an action of the host, on the state with the schedule moved on. -/
theorem step_cases {s t : State} (h : step s = .next t) : ∃ rest,
    ((s.host = [] ∧ rest = [] ∨ s.host = .pass :: rest) ∧ coreStep { s with host := rest } = .next t) ∨
    (∃ o, s.host = .op o :: rest ∧ t = hostOp o { s with host := rest }) ∨
    ∃ a, s.host = .bus a :: rest ∧ busAccess a { s with host := rest } = .next t := by
  unfold step at h
  split at h
  · rename_i hh
    exact ⟨[], .inl ⟨.inl ⟨hh, rfl⟩, by rw [← hh]; exact h⟩⟩
  · rename_i rest hh
    exact ⟨rest, .inl ⟨.inr hh, h⟩⟩
  · rename_i o rest hh
    exact ⟨rest, .inr (.inl ⟨o, hh, (Host.Outcome.next.inj h).symm⟩)⟩
  · rename_i a rest hh
    exact ⟨rest, .inr (.inr ⟨a, hh, h⟩)⟩

/-- The schedule is no part of the invariant. -/
theorem State.Inv.setHost {s : State} (h : s.Inv) (l : List HostEvent) : State.Inv { s with host := l } :=
  h.outside _ _ _ _ _ _ _ _

/-- Settles O13: the ends of a command, the operations of the host and the bus accesses keep the invariant one by one. -/
theorem invKept : Obligations.InvKept := by
  intro s t hs h
  obtain ⟨rest, ⟨-, hc⟩ | ⟨o, -, rfl⟩ | ⟨a, -, hb⟩⟩ := step_cases h
  · exact coreStep_keeps_inv (hs.setHost rest) hc
  · exact hostOp_keeps_inv (hs.setHost rest) o
  · obtain ⟨off, -, -, rfl⟩ := busAccess_next _ _ _ hb
    exact accessAt_keeps_inv (hs.setHost rest) off a

/-- Settles O12: every buffer is empty and STATUS is clear. -/
theorem invAtReset : Obligations.InvAtReset := State.inv_reset

end Sys2Proof.Machine

/-! From an invariant state no command faults: its buffers are read within their lengths and its output fits. -/
namespace Sys2Proof.Machine

/-- A meaning answers a next state. -/
def GoesOn (r : Result) : Prop := ∃ t, r = .next t

theorem goesOn_next (t : State) : GoesOn (.next t) := ⟨t, rfl⟩

theorem State.Inv.ilen_le {s : State} (h : s.Inv) : s.ilen.toNat ≤ Config.bufBytes := h.lenBound .ibuf

theorem State.Inv.alen_le {s : State} (h : s.Inv) : s.alen.toNat ≤ Config.bufBytes := h.lenBound .abuf

theorem State.Inv.siglen_le {s : State} (h : s.Inv) : s.siglen.toNat ≤ 72 := h.lenBound .sigbuf

theorem execPenc_goesOn (pa : PReg) (s : State) : GoesOn (execPenc pa s) := by
  have hb := bufBytes_ge
  unfold execPenc
  split
  · exact goesOn_next _
  · rw [putOut_ok]
    · exact goesOn_next _
    · unfold encodePoint
      split <;> simp <;> omega

theorem execPdec_goesOn (pd : PReg) (s : State) (h : s.Inv) : GoesOn (execPdec pd s) := by
  unfold execPdec
  rw [withIn_ok s _ h.ilen_le]
  split
  · exact goesOn_next _
  · split <;> exact goesOn_next _

theorem execSm3blk_goesOn (s : State) : GoesOn (execSm3blk s) := by
  have hb := bufBytes_ge
  unfold execSm3blk
  split
  · exact goesOn_next _
  · rename_i hl
    rw [memRead_ok s .ibuf 0 64 (not_not.1 hl).ge (by simp only [capacity_ibuf]; omega)]
    exact goesOn_next _

theorem execSm3hash_goesOn (s : State) (h : s.Inv) : GoesOn (execSm3hash s) := by
  have hb := bufBytes_ge
  unfold execSm3hash
  rw [withIn_ok s _ h.ilen_le]
  split
  · exact ⟨_, putOut_ok _ _ _ (Nat.zero_le _)⟩
  · exact ⟨_, putOut_ok _ _ _ (by rw [sm3_length]; omega)⟩

theorem execKdfgen_goesOn (l : BitVec 16) (s : State) (h : s.Inv) : GoesOn (execKdfgen l s) := by
  unfold execKdfgen
  split
  · exact goesOn_next _
  · rw [withAux_ok s _ h.alen_le]
    exact ⟨_, putOut_ok _ _ _ (by rw [kdf_length]; omega)⟩

theorem execKdfxor_goesOn (s : State) (h : s.Inv) : GoesOn (execKdfxor s) := by
  unfold execKdfxor
  rw [withAux_ok s _ h.alen_le, withIn_ok s _ h.ilen_le]
  exact ⟨_, putOut_ok _ _ _ (by simpa using h.ilen_le)⟩

theorem execDerenc_goesOn (ra rb : Reg) (s : State) : GoesOn (execDerenc ra rb s) :=
  ⟨_, putSig_ok _ _ _ (der_length_le _ _ (s.regNat_lt ra) (s.regNat_lt rb))⟩

theorem execDerdec_goesOn (rd re : Reg) (s : State) (h : s.Inv) : GoesOn (execDerdec rd re s) := by
  unfold execDerdec
  split
  · exact goesOn_next _
  · rw [withSig_ok s _ h.siglen_le]
    split <;> exact goesOn_next _

theorem execSm2z_goesOn (s : State) (h : s.Inv) : GoesOn (execSm2z s) := by
  have hb := bufBytes_ge
  unfold execSm2z
  rw [withIdent_ok s _ h.alen_le]
  split
  · exact goesOn_next _
  · split
    · split
      · exact ⟨_, putOut_ok _ _ _ (by rw [zValue, sm3_length]; omega)⟩
      · exact goesOn_next _
    · exact goesOn_next _

/-- A signature is a pair of numbers below `n` (R222). -/
theorem attemptSign_lt (d e k r sg : Nat) (h : attemptSign d e k = some (r, sg)) : r < curveN ∧ sg < curveN := by
  cases hp : scalarMul baseG k with
  | inf => simp [attemptSign, hp] at h
  | aff x1 y1 =>
    rw [attemptSign_eq d e k x1 y1 hp] at h
    split at h
    · cases h
    · split at h
      · cases h
      · cases h
        exact ⟨Nat.mod_lt _ curveN_pos, Nat.mod_lt _ curveN_pos⟩

theorem signLoop_goesOn (d e : Nat) (s : State) : GoesOn (signLoop d e s) := by
  unfold signLoop
  split
  · exact goesOn_next _
  · exact goesOn_next _
  · rename_i r sg att rng hr
    obtain ⟨bad, k, -, -, -, -, ha, -, -⟩ := runLoop_success _ _ _ _ _ hr
    obtain ⟨h1, h2⟩ := attemptSign_lt _ _ _ _ _ ha
    have hn := modulus_lt .n
    exact ⟨_, putSig_ok _ _ _ (der_length_le _ _ (h1.trans hn) (h2.trans hn))⟩

theorem execSm2sign_goesOn (s : State) (h : s.Inv) : GoesOn (execSm2sign s) := by
  unfold execSm2sign
  split
  · rw [withIdent_ok s _ h.alen_le]
    split
    · exact goesOn_next _
    · split
      · exact goesOn_next _
      · rw [withIn_ok s _ h.ilen_le]
        exact signLoop_goesOn _ _ _
  · exact goesOn_next _

theorem encodePoint_length (nopfx : Bool) (x y : Nat) : (encodePoint nopfx x y).length = c1Length nopfx := by
  cases nopfx <;> simp [encodePoint, c1Length]

/-- A ciphertext has the length SM2ENC tests for (R111, R236). -/
theorem attemptEnc_length (order nopfx : Bool) (q : AffinePoint) (msg : Bytes) (k : Nat) (c : Bytes)
    (h : attemptEnc order nopfx q msg k = some c) : c.length = c1Length nopfx + 32 + msg.length := by
  unfold attemptEnc at h
  split at h
  · simp only at h
    split at h
    · cases h
    · cases h
      cases order <;> simp [joinCipher, encodePoint_length] <;> omega
  · cases h

theorem encLoop_goesOn (msg : Bytes) (s : State) (h : c1Length s.cfg.nopfx + 32 + msg.length ≤ Config.bufBytes) :
    GoesOn (encLoop msg s) := by
  unfold encLoop
  split
  · exact goesOn_next _
  · exact goesOn_next _
  · rename_i c att rng hr
    obtain ⟨bad, k, -, -, -, -, ha, -, -⟩ := runLoop_success _ _ _ _ _ hr
    exact ⟨_, putOut_ok _ _ _ (attemptEnc_length _ _ _ _ _ _ ha ▸ h)⟩

theorem execSm2enc_goesOn (s : State) (h : s.Inv) : GoesOn (execSm2enc s) := by
  unfold execSm2enc
  split
  · exact ⟨_, putOut_ok _ _ _ (Nat.zero_le _)⟩
  · split
    · exact goesOn_next _
    · split
      · exact goesOn_next _
      · rw [withIn_ok s _ h.ilen_le]
        exact encLoop_goesOn _ _ (by rw [Memory.readBytes_length]; omega)

theorem execSm2dec_goesOn (s : State) (h : s.Inv) : GoesOn (execSm2dec s) := by
  unfold execSm2dec
  split
  · exact ⟨_, putOut_ok _ _ _ (Nat.zero_le _)⟩
  · rw [withIn_ok s _ h.ilen_le]
    rcases decryptBytes_cases s.cfg.order s.cfg.nopfx (s.regNat 0) (s.ibuf.readBytes 0 s.ilen.toNat) with
      ⟨e, -, he⟩ | ⟨msg, hl, he⟩
    · rw [he]
      exact goesOn_next _
    · rw [he]
      exact ⟨_, putOut_ok _ _ _ ((hl.trans_eq (Memory.readBytes_length _ _ _)).trans h.ilen_le)⟩

theorem exec_goesOn (i : Instr) (s : State) (h : s.Inv) : GoesOn (exec i s) := by
  cases i with
  | modadd rd ra rb m => exact goesOn_next _
  | modsub rd ra rb m => exact goesOn_next _
  | modmul rd ra rb m => exact goesOn_next _
  | modinv rd ra m =>
    show GoesOn (execModinv rd ra m s)
    unfold execModinv
    split <;> exact goesOn_next _
  | montmul rd ra rb m => exact goesOn_next _
  | ldc rd c => exact goesOn_next _
  | padd pd pa pb => exact goesOn_next _
  | pdbl pd pa => exact goesOn_next _
  | pmul pd pa rk => exact goesOn_next _
  | pchk pa => exact goesOn_next _
  | pldg pd => exact goesOn_next _
  | penc pa => exact execPenc_goesOn pa s
  | pdec pd => exact execPdec_goesOn pd s h
  | sm3init => exact goesOn_next _
  | sm3blk => exact execSm3blk_goesOn s
  | sm3hash => exact execSm3hash_goesOn s h
  | kdfgen l => exact execKdfgen_goesOn l s h
  | kdfxor => exact execKdfxor_goesOn s h
  | derenc ra rb => exact execDerenc_goesOn ra rb s
  | derdec rd re => exact execDerdec_goesOn rd re s h
  | sm2key =>
    show GoesOn (execSm2key s)
    unfold execSm2key
    split <;> exact goesOn_next _
  | sm2z => exact execSm2z_goesOn s h
  | sm2sign => exact execSm2sign_goesOn s h
  | sm2vfy =>
    show GoesOn (execSm2vfy s)
    unfold execSm2vfy
    rw [withSig_ok s _ h.siglen_le, withIdent_ok s _ h.alen_le, withIn_ok s _ h.ilen_le]
    exact goesOn_next _
  | sm2enc => exact execSm2enc_goesOn s h
  | sm2dec => exact execSm2dec_goesOn s h

theorem coreStep_goesOn (s : State) (h : s.Inv) : GoesOn (coreStep s) := by
  unfold coreStep
  split
  · exact goesOn_next _
  · split
    · exact exec_goesOn _ s h
    · exact goesOn_next _

/-- Settles O14: no command faults on an invariant state, and a bus access in the window is answered. -/
theorem noStop : Obligations.NoStop := by
  intro s h hm
  show GoesOn (step s)
  unfold step
  split
  · exact coreStep_goesOn s h
  · exact coreStep_goesOn _ (h.setHost _)
  · exact goesOn_next _
  · rename_i a rest hh
    obtain ⟨off, ho⟩ := Option.isSome_iff_exists.1 (hm a rest hh)
    unfold busAccess
    rw [ho]
    exact goesOn_next _

end Sys2Proof.Machine

/-! What the ends of a command say of the whole state: completion, precise errors, the write set, the chaining words. -/
namespace Sys2Proof.Machine

theorem Drawn.of_noDraw {i : Instr} {s : State} {att : Nat} {rng : List Big} (h : Drawn i s att rng)
    (hi : draws i = false) : att = 0 ∧ rng = s.rng := by
  rcases h with h | ⟨hd, -⟩
  · exact h
  · exact absurd (hd.symm.trans hi) (by decide)

/-- The attempts counted fit ATT, and one answer is used for each that an earlier wait did not use (R31, R46). -/
theorem Drawn.count {i : Instr} {s : State} {att : Nat} {rng : List Big} (h : Drawn i s att rng)
    (hs : s.tries ≤ s.cap.toNat) :
    att ≤ s.cap.toNat ∧ (BitVec.ofNat 8 att).toNat = att ∧ rng = s.rng.drop (att - s.tries) := by
  have hc := s.cap.isLt
  rcases h with ⟨rfl, rfl⟩ | ⟨-, used, hr, rfl, hle⟩
  · simp
  · refine ⟨hle hs, ?_, ?_⟩
    · rw [BitVec.toNat_ofNat, Nat.mod_eq_of_lt ((hle hs).trans_lt hc)]
    · rw [hr, Nat.add_sub_cancel_left, List.drop_left]

/-- The error write in terms of the two lengths it can touch (R41). -/
theorem emptyDest_eq (i : Instr) (s : State) : emptyDest i s = { s with
    olen := if destBuf i = some .obuf then 0 else s.olen
    siglen := if destBuf i = some .sigbuf then 0 else s.siglen } := by
  cases i <;> rfl

/-- What a command that completes leaves in STATUS and of the random source (R31, R95, R46). -/
structure Completed (i : Instr) (s t : State) : Prop where
  inflight : t.inflight = none
  done : t.done = true
  tries : t.tries = 0
  rng : s.tries ≤ s.cap.toNat → t.rng = s.rng.drop (t.att.toNat - s.tries)
  noDraw : draws i = false → t.att = 0 ∧ t.rng = s.rng
  result : t.result = true → i = .sm2vfy ∨ ∃ pa, i = .pchk pa

theorem Writes.rng {i : Instr} {s u : State} (h : Writes i s u) : u.rng = s.rng := by rw [h.rest]

/-- Completion without RESULT, after the counted attempts. -/
theorem Drawn.completed {i : Instr} {s : State} {att : Nat} {rng : List Big} (h : Drawn i s att rng) (u : State)
    (hu : u.rng = rng) (e : Option CmdError) : Completed i s (u.complete false att e) where
  inflight := rfl
  done := rfl
  tries := rfl
  rng hs := by
    obtain ⟨-, hto, hr⟩ := h.count hs
    rw [State.complete_rng, State.complete_att, hto, hu, ← hr]
  noDraw hi := by
    obtain ⟨rfl, rfl⟩ := h.of_noDraw hi
    exact ⟨rfl, hu⟩
  result hr := by simp at hr

/-- A command either completes, or waits below the cap with every answer used up. -/
theorem Ended.completed_or_waits {i : Instr} {s t : State} (h : Ended i s t) :
    Completed i s t ∨
      (draws i = true ∧ s.tries + s.rng.length < s.cap.toNat ∧ t = s.awaitDraw (s.tries + s.rng.length)) := by
  cases h with
  | done u answer hw ha => exact .inl ⟨rfl, rfl, rfl, fun _ => by simp [hw.rng], fun _ => ⟨rfl, hw.rng⟩, ha⟩
  | stored u b v att rng hd hw _ _ =>
    exact .inl (hd.completed (u.put b v) ((State.put_rng u b v).trans hw.rng) none)
  | failed e att rng hd _ => exact .inl (hd.completed _ (by rw [emptyDest_eq]; rfl) (some e))
  | waiting hi hc => exact .inr ⟨hi, hc, rfl⟩

theorem step_eq_coreStep (s : State) (h : s.host = []) : step s = coreStep s := by
  unfold step
  rw [h]

/-- The core's move on a word in flight completes it, or is the wait of a command that draws. -/
theorem coreStep_complete_or_waits {s t : State} {w : Word} (hw : s.inflight = some w) (h : coreStep s = .next t) :
    (t.inflight = none ∧ t.done = true) ∨
      ((∃ i, decode w = .ok i ∧ draws i = true) ∧ s.tries + s.rng.length < s.cap.toNat ∧
        t = s.awaitDraw (s.tries + s.rng.length)) := by
  unfold coreStep at h
  rw [hw] at h
  simp only at h
  split at h
  · rename_i i hd
    rcases (exec_ended i s t h).completed_or_waits with hc | ⟨hi, hc, ht⟩
    · exact .inl ⟨hc.inflight, hc.done⟩
    · exact .inr ⟨⟨i, hd, hi⟩, hc, ht⟩
  · cases h
    exact .inl ⟨rfl, rfl⟩

/-- Settles O15: a move of the core that does not complete the word is a wait, which needs a command that draws and an
answer too few. -/
theorem termination : Obligations.Termination := by
  refine ⟨fun s w hs hh hw hr => ?_, fun s t hh hw h ht => ?_⟩
  · obtain ⟨t, h⟩ := coreStep_goesOn s hs
    refine ⟨t, (step_eq_coreStep s hh).trans h, ?_⟩
    rcases coreStep_complete_or_waits hw h with hc | ⟨⟨i, hd, hi⟩, hc, -⟩
    · exact hc
    · rcases hr with hr | hr
      · exact absurd hr (by omega)
      · exact absurd (hi.symm.trans (hr i hd)) (by decide)
  · obtain ⟨w, hw⟩ := Option.ne_none_iff_exists'.1 hw
    rw [step_eq_coreStep s hh] at h
    rcases coreStep_complete_or_waits hw h with ⟨hn, -⟩ | ⟨-, hc, rfl⟩
    · exact absurd hn ht
    · exact ⟨rfl, hc, rfl, rfl⟩

/-- A command that ends with an error ends in the error state (R262). -/
theorem Ended.failed_of_err {i : Instr} {s t : State} {e : CmdError} (h : Ended i s t) (hs : s.err = none)
    (he : t.err = some e) : ∃ att rng, Drawn i s att rng ∧ (i.wellFormed = true → e ∈ mayRaise i) ∧
      t = (emptyDest i (s.drew rng)).complete false att (some e) := by
  cases h with
  | done => cases he
  | stored => cases he
  | failed e' att rng hd hm =>
    cases he
    exact ⟨att, rng, hd, hm, rfl⟩
  | waiting => exact absurd (hs.symm.trans he) (by simp)

/-- Settles O16: the only end with an error is the error state, which empties the destination and writes STATUS. -/
theorem errorsArePrecise : Obligations.ErrorsArePrecise := by
  intro i s t e hs hn h he
  obtain ⟨att, rng, hd, hm, rfl⟩ := (exec_ended i s t h).failed_of_err hn he
  obtain ⟨hle, hto, hrng⟩ := hd.count hs.triesBound
  refine ⟨?_, fun hi => ?_, ?_, hm⟩
  · rw [emptyDest_eq, State.complete_att, hto, ← hrng]
    rfl
  · rw [State.complete_att, (hd.of_noDraw hi).1]
    rfl
  · rw [State.complete_att, BitVec.le_def, hto]
    exact hle

/-- What no command writes: CFG, RETRY_CAP and the host's side (R41). -/
structure SameHostSide (s t : State) : Prop where
  cfg : t.cfg = s.cfg
  cap : t.cap = s.cap
  host : t.host = s.host
  resp : t.resp = s.resp
  fresh : t.fresh = s.fresh

theorem Writes.sameHostSide {i : Instr} {s u : State} (h : Writes i s u) : SameHostSide s u := by
  rw [h.rest]
  exact ⟨rfl, rfl, rfl, rfl, rfl⟩

theorem Ended.sameHostSide {i : Instr} {s t : State} (h : Ended i s t) : SameHostSide s t := by
  cases h with
  | done u _ hw _ =>
    obtain ⟨h1, h2, h3, h4, h5⟩ := hw.sameHostSide
    exact ⟨h1, h2, h3, h4, h5⟩
  | stored u b v _ _ _ hw _ _ =>
    obtain ⟨h1, h2, h3, h4, h5⟩ := hw.sameHostSide
    cases b <;> exact ⟨h1, h2, h3, h4, h5⟩
  | failed e att rng _ _ =>
    rw [emptyDest_eq]
    exact ⟨rfl, rfl, rfl, rfl, rfl⟩
  | waiting => exact ⟨rfl, rfl, rfl, rfl, rfl⟩

theorem Ended.reg_eq {i : Instr} {s t : State} (h : Ended i s t) {k : Reg} (hk : k ∉ destRegs i) : t.reg k = s.reg k := by
  cases h with
  | done u _ hw _ => exact hw.reg k hk
  | stored u b v _ _ _ hw _ _ => cases b <;> exact hw.reg k hk
  | failed => rw [emptyDest_eq]; rfl
  | waiting => rfl

theorem Ended.preg_eq {i : Instr} {s t : State} (h : Ended i s t) {k : PReg} (hk : destPoint i ≠ some k) :
    t.preg k = s.preg k := by
  cases h with
  | done u _ hw _ => exact hw.preg k hk
  | stored u b v _ _ _ hw _ _ => cases b <;> exact hw.preg k hk
  | failed => rw [emptyDest_eq]; rfl
  | waiting => rfl

theorem Ended.chain_eq {i : Instr} {s t : State} (h : Ended i s t) (hi : writesChain i = false) : t.v = s.v := by
  cases h with
  | done u _ hw _ => exact hw.chain hi
  | stored u b v _ _ _ hw _ _ => cases b <;> exact hw.chain hi
  | failed => rw [emptyDest_eq]; rfl
  | waiting => rfl

theorem Writes.mem {i : Instr} {s u : State} (h : Writes i s u) (b : Buf) : u.mem b = s.mem b := by
  rw [h.rest]
  cases b <;> rfl

theorem Writes.len {i : Instr} {s u : State} (h : Writes i s u) (b : Buf) : u.len b = s.len b := by
  rw [h.rest]
  cases b <;> rfl

theorem mem_drew (s : State) (rng : List Big) (b : Buf) : (s.drew rng).mem b = s.mem b := by cases b <;> rfl

theorem len_drew (s : State) (rng : List Big) (b : Buf) : (s.drew rng).len b = s.len b := by cases b <;> rfl

theorem mem_emptyDest (i : Instr) (s : State) (b : Buf) : (emptyDest i s).mem b = s.mem b := by
  unfold emptyDest
  split <;> simp

theorem len_emptyDest_of_ne (i : Instr) (s : State) (b : Buf) (h : destBuf i ≠ some b) :
    (emptyDest i s).len b = s.len b := by
  unfold emptyDest
  split
  · rename_i c hc
    rw [State.len_emptied, if_neg fun e : c = b => h (e ▸ hc)]
  · rfl

theorem Ended.buf_eq {i : Instr} {s t : State} (h : Ended i s t) {b : Buf} (hb : destBuf i ≠ some b) :
    t.mem b = s.mem b ∧ t.len b = s.len b := by
  cases h with
  | done u _ hw _ =>
    rw [State.mem_complete, State.len_complete]
    exact ⟨hw.mem b, hw.len b⟩
  | stored u c v att rng _ hw hc _ =>
    have hne : c ≠ b := fun e => hb (e ▸ hc)
    rw [State.mem_complete, State.len_complete, State.mem_put, State.len_put, if_neg hne, if_neg hne, hw.mem, hw.len,
      mem_drew, len_drew]
    exact ⟨rfl, rfl⟩
  | failed e att rng _ _ =>
    rw [State.mem_complete, State.len_complete, mem_emptyDest, len_emptyDest_of_ne _ _ _ hb, mem_drew, len_drew]
    exact ⟨rfl, rfl⟩
  | waiting => simp

/-- At and beyond the new length a buffer reads as before (R41). -/
theorem Ended.read_eq {i : Instr} {s t : State} (h : Ended i s t) (hs : s.Inv) (b : Buf) (a : Nat)
    (ha : (t.len b).toNat ≤ a) : (t.mem b).read a = (s.mem b).read a := by
  cases h with
  | done u _ hw _ => rw [State.mem_complete, hw.mem]
  | stored u c v att rng _ hw _ hv =>
    rw [State.len_complete, State.len_put] at ha
    rw [State.mem_complete, State.mem_put]
    split
    · rename_i hc
      subst hc
      have hcap := capacity_lt c
      rw [if_pos rfl, BitVec.toNat_ofNat, Nat.mod_eq_of_lt (by omega)] at ha
      rw [hw.mem, mem_drew, Memory.read_writeBytes _ (hs.memWf c), if_neg (by omega)]
    · rw [hw.mem, mem_drew]
  | failed e att rng _ _ => rw [State.mem_complete, mem_emptyDest, mem_drew]
  | waiting => rw [State.mem_awaitDraw]

/-- Settles O17: the frame, end by end of a command. -/
theorem writeSet : Obligations.WriteSet := by
  intro i s t hs h
  have he := exec_ended i s t h
  obtain ⟨hcfg, hcap, hhost, hresp, hfresh⟩ := he.sameHostSide
  refine ⟨fun k => he.reg_eq, fun k => he.preg_eq, he.chain_eq, fun b => he.buf_eq, he.read_eq hs, hcfg, hcap, hhost,
    hresp, hfresh, ?_⟩
  rcases he.completed_or_waits with hc | hw
  · exact .inr ⟨hc.inflight, hc.done, hc.rng hs.triesBound, hc.tries, fun hi => (hc.noDraw hi).1, hc.result⟩
  · exact .inl hw

end Sys2Proof.Machine

/-! What changes V0 to V7 (R26), and the keystream of the KDF (R190 to R193). -/
namespace Sys2Proof.Machine

theorem storePlace_v (s : State) (x : Byte) (p : Place) : (storePlace s x p).v = s.v := by
  cases p with
  | buf b j =>
    show (storeByte s b j x).v = s.v
    unfold storeByte
    split
    · exact State.setMem_v s b _
    · rfl
  | cmd | status | cfg | retryCap | len | chain | pointInf | pointX | pointY | reg | reserved => rfl

theorem storeBytes_v (s : State) (off : Nat) (l : Bytes) : (storeBytes s off l).v = s.v := by
  induction l generalizing s off with
  | nil => rfl
  | cons x t ih => exact (ih _ _).trans (storePlace_v s x _)

/-- A write of the host changes the chaining words only if what it writes does, out of the BUSY interval. -/
theorem writeUnlessBusy_v (s t : State) (h : (writeUnlessBusy s t).v ≠ s.v) : s.busy = false ∧ t.v ≠ s.v := by
  cases hb : s.busy with
  | true =>
    rw [writeUnlessBusy_of_busy s t hb] at h
    exact absurd rfl h
  | false =>
    rw [writeUnlessBusy_of_idle s t hb] at h
    exact ⟨rfl, h⟩

theorem storeLen_v (s : State) (b : Buf) (w : Word) : (storeLen s b w).v = s.v := by
  unfold storeLen
  split
  · exact State.setLen_v s b w
  · rfl

theorem hostClearStatus_v (s : State) : (hostClearStatus s).v = s.v := by
  unfold hostClearStatus
  split <;> rfl

theorem hostIssue_v (w : Word) (s : State) : (hostIssue w s).v = s.v := by
  unfold hostIssue
  split
  · rfl
  · split <;> rfl

/-- The abstract operations that change V0 to V7 (R42). -/
theorem hostOp_v (o : HostOp) (s : State) (h : (hostOp o s).v ≠ s.v) :
    o = .reset ∨ s.busy = false ∧ ∃ j x, o = .writeV j x := by
  cases o with
  | writeV j x => exact .inr ⟨(writeUnlessBusy_v s _ h).1, j, x, rfl⟩
  | reset => exact .inl rfl
  | writeReg | writePointX | writePointY | writePointInf | writeCfg | writeCap =>
    exact absurd rfl (writeUnlessBusy_v s _ h).2
  | writeBuf b off x => exact absurd (storePlace_v s x (.buf b off)) (writeUnlessBusy_v s _ h).2
  | writeLen b w => exact absurd (storeLen_v s b w) (writeUnlessBusy_v s _ h).2
  | clearStatus => exact absurd (hostClearStatus_v s) h
  | issue w => exact absurd (hostIssue_v w s) h
  | readReg | readPointX | readPointY | readPointInf | readV | readBuf | readLen | readCfg | readCap | readStatus =>
    exact absurd rfl h

theorem placePoint_ne_chain (k : PReg) (i : Nat) (j : Fin 8) : placePoint k i ≠ .chain j := by
  unfold placePoint
  split
  · nofun
  split
  · nofun
  split
  · nofun
  · nofun

theorem placeStride_ne_chain (q i : Nat) (j : Fin 8) : placeStride q i ≠ .chain j := by
  unfold placeStride
  split
  · nofun
  · split <;> nofun

/-- The chaining words end the control block (R72). -/
theorem placeControl_eq_chain {off : Nat} {j : Fin 8} (h : placeControl off = .chain j) : 0x20 ≤ off := by
  by_contra hlt
  unfold placeControl at h
  iterate 7
    split at h
    · cases h
  rw [if_pos (by omega)] at h
  cases h

/-- The only offsets of chaining words (R72). -/
theorem placeOf_eq_chain {off : Nat} {j : Fin 8} (h : placeOf off = .chain j) : 0x20 ≤ off ∧ off < 0x40 := by
  unfold placeOf at h
  split at h
  · rename_i hlt
    exact ⟨placeControl_eq_chain h, hlt⟩
  split at h
  · cases h
  split at h
  · cases h
  split at h
  · exact absurd h (placePoint_ne_chain _ _ j)
  split at h
  · cases h
  split at h
  · cases h
  split at h
  · cases h
  · exact absurd h (placeStride_ne_chain _ _ j)

/-- A word write is the abstract write of a chaining word only at one of their places. -/
theorem wordOp_writeV {v x : Word} {p : Place} {j : Fin 8} (h : wordOp v p = some (.writeV j x)) : p = .chain j := by
  cases p <;> simp [wordOp] at h
  exact congrArg _ h.1

theorem wordOp_ne_reset (v : Word) (p : Place) : wordOp v p ≠ some .reset := by cases p <;> simp [wordOp]

/-- The bus accesses that change V0 to V7 (R42, R72). -/
theorem busAccess_v {a : BusAccess} {s t : State} (h : busAccess a s = .next t) (hv : t.v ≠ s.v) :
    s.busy = false ∧ ∃ addr x, a = .writeWord addr x ∧ Config.base + 0x20 ≤ addr ∧ addr < Config.base + 0x40 := by
  obtain ⟨off, haddr, -, rfl⟩ := busAccess_next a s t h
  rcases accessAt_cases off a s with ⟨x, n, he⟩ | ⟨addr, w, o, rfl, ho, he⟩ | ⟨l, he⟩
  · exact absurd (by rw [he]) hv
  · rw [he] at hv
    rcases hostOp_v o s hv with rfl | ⟨hb, j, x, rfl⟩
    · exact absurd ho (wordOp_ne_reset w _)
    · obtain ⟨h1, h2⟩ := placeOf_eq_chain (wordOp_writeV ho)
      have haddr : addr = Config.base + off := haddr
      exact ⟨hb, addr, w, rfl, by omega, by omega⟩
  · rw [he] at hv
    exact absurd (storeBytes_v s off l) (writeUnlessBusy_v s _ hv).2

/-- The core changes V0 to V7 only by a command of the SM3 family that writes them. -/
theorem coreStep_v {s t : State} (h : coreStep s = .next t) (hv : t.v ≠ s.v) :
    ∃ w i, s.inflight = some w ∧ decode w = .ok i ∧ writesChain i = true := by
  unfold coreStep at h
  split at h
  · cases h
    exact absurd rfl hv
  · rename_i w hw
    split at h
    · rename_i i hd
      refine ⟨w, i, hw, hd, ?_⟩
      by_contra hc
      exact hv ((exec_ended i s t h).chain_eq (by simpa using hc))
    · cases h
      exact absurd rfl hv

/-- Settles O19: the core, the abstract operations and the bus accesses one by one. -/
theorem chainChangedOnlyBy : Obligations.ChainChangedOnlyBy := by
  intro s t h hv
  obtain ⟨rest, ⟨hh, hc⟩ | ⟨o, hh, rfl⟩ | ⟨a, hh, hb⟩⟩ := step_cases h
  · obtain ⟨w, i, hw, hd, hi⟩ := coreStep_v hc hv
    exact .inl ⟨w, i, hw, hd, hi, hh.imp And.left fun hp => ⟨rest, hp⟩⟩
  · rcases hostOp_v o _ hv with rfl | ⟨hidle, j, x, rfl⟩
    · exact .inr (.inl ⟨rest, hh⟩)
    · exact .inr (.inr ⟨hidle, rest, .inl ⟨j, x, hh⟩⟩)
  · obtain ⟨hidle, addr, x, rfl, h1, h2⟩ := busAccess_v hb hv
    exact .inr (.inr ⟨hidle, rest, .inr ⟨addr, x, hh, h1, h2⟩⟩)

/-- Byte `j` of the untruncated keystream is in block `j / 32` (R190). -/
theorem kdfBlocks_getD (z : Bytes) (k ct j : Nat) (hj : j < 32 * k) :
    (kdfBlocks z k ct).getD j 0 = (sm3 (z ++ kdfCounter (ct + j / 32))).getD (j % 32) 0 := by
  induction k generalizing ct j with
  | zero => omega
  | succ k ih =>
    unfold kdfBlocks
    by_cases h : j < 32
    · rw [List.getD_append _ _ _ _ (by simpa using h), Nat.div_eq_of_lt h, Nat.mod_eq_of_lt h, Nat.add_zero]
    · rw [List.getD_append_right _ _ _ _ (by simpa using h), sm3_length, ih _ _ (by omega),
        show ct + 1 + (j - 32) / 32 = ct + j / 32 by omega, show (j - 32) % 32 = j % 32 by omega]

/-- Byte `j` of a keystream (R190). -/
theorem kdf_getD (z : Bytes) (l j : Nat) (hj : j < l) (hc : j / 32 + 1 < 2 ^ 32) :
    (kdf z l).getD j 0 = (sm3 (z ++ be 4 (j / 32 + 1))).getD (j % 32) 0 := by
  have h := kdfBlocks_getD z ((l + 31) / 32) 1 j (by omega)
  rw [Nat.add_comm 1, kdfCounter_of_lt _ hc] at h
  rw [← h, kdf, List.getD_eq_getElem?_getD, List.getD_eq_getElem?_getD, List.getElem?_take_of_lt hj]

/-- A longer keystream starts with the shorter one (R193). -/
theorem kdf_take (z : Bytes) (l l' : Nat) (h : l ≤ l') : kdf z l = (kdf z l').take l := by
  obtain ⟨d, hd⟩ := Nat.exists_eq_add_of_le (show (l + 31) / 32 ≤ (l' + 31) / 32 by omega)
  unfold kdf
  rw [List.take_take, Nat.min_eq_left h, hd, kdfBlocks_add, List.take_append_of_le_length]
  rw [kdfBlocks_length]
  omega

/-- The keystream of the empty secret (R193). -/
theorem kdf_nil_32 : kdf [] 32 = sm3 [0x00#8, 0x00#8, 0x00#8, 0x01#8] := by
  show (sm3 ([] ++ kdfCounter 1) ++ []).take 32 = _
  rw [kdfCounter_of_lt 1 (by norm_num), List.append_nil, List.take_of_length_le (sm3_length _).le]
  rfl

/-- Settles O38: the bytes of the keystream block by block; the frame of the commands that use it. -/
theorem kdfFunction : Obligations.KdfFunction := by
  refine ⟨fun z l => ⟨kdf_length z l, kdf_getD z l, kdf_take z l⟩, kdf_nil_32, fun s t i => ⟨?_, ?_⟩⟩
  · intro hi h
    have he := exec_ended i s t h
    have hi : writesChain i = false ∧ draws i = false := by
      rcases hi with ⟨l, rfl⟩ | rfl <;> exact ⟨rfl, rfl⟩
    refine ⟨he.chain_eq hi.1, ?_⟩
    rcases he.completed_or_waits with hc | ⟨hd, -⟩
    · exact (hc.noDraw hi.2).2
    · exact absurd (hd.symm.trans hi.2) (by decide)
  · intro hi h
    exact (exec_ended i s t h).chain_eq (by rcases hi with rfl | rfl <;> rfl)

end Sys2Proof.Machine

/-! A command does not read what its read set leaves out (R41, R44): its meaning commutes with a change of registers,
points, chaining words and answers that its read and write set do not touch. -/
namespace Sys2Proof.Machine

/-- A change of the registers, the points, the chaining words and the answers of the random source. -/
structure Change where
  r : Vector Big 16 → Vector Big 16 := id
  p : Vector PointReg 4 → Vector PointReg 4 := id
  v : Vector Word 8 → Vector Word 8 := id
  rng : List Big → List Big := id

/-- The state with the change made. -/
def Change.on (g : Change) (s : State) : State := { s with r := g.r s.r, p := g.p s.p, v := g.v s.v, rng := g.rng s.rng }

theorem Change.on_cfg (g : Change) (s : State) : (g.on s).cfg = s.cfg := rfl

/-- The change stays beside the read and the write set of the command. -/
structure Change.Beside (g : Change) (i : Instr) : Prop where
  readReg : ∀ r, ∀ k ∈ srcRegs i, (g.r r)[k] = r[k]
  readPoint : ∀ p, ∀ k ∈ srcPoints i, (g.p p)[k] = p[k]
  writeReg : ∀ r x, ∀ k ∈ destRegs i, (g.r r).set k x = g.r (r.set k x)
  writePoint : ∀ p q k, destPoint i = some k → (g.p p).set k q = g.p (p.set k q)
  chain : writesChain i = true → g.v = id
  rng : draws i = true → g.rng = id

/-- The next state changed; a fault or a refusal stays. -/
def mapNext (f : State → State) : Result → Result
  | .next t => .next (f t)
  | .fault e => .fault e
  | .refused e => .refused e

section
variable {g : Change} {i : Instr}

theorem Change.Beside.regNat (h : g.Beside i) (s : State) {k : Reg} (hk : k ∈ srcRegs i) :
    (g.on s).regNat k = s.regNat k := congrArg BitVec.toNat (h.readReg s.r k hk)

theorem Change.Beside.point (h : g.Beside i) (s : State) {k : PReg} (hk : k ∈ srcPoints i) :
    (g.on s).point k = s.point k := congrArg PointReg.value (h.readPoint s.p k hk)

theorem Change.Beside.setRegNat (h : g.Beside i) (s : State) {k : Reg} (hk : k ∈ destRegs i) (x : Nat) :
    (g.on s).setRegNat k x = g.on (s.setRegNat k x) :=
  congrArg (fun r => { g.on s with r := r }) (h.writeReg s.r _ k hk)

theorem Change.Beside.setPoint (h : g.Beside i) (s : State) {k : PReg} (hk : destPoint i = some k) (q : AffinePoint) :
    (g.on s).setPoint k q = g.on (s.setPoint k q) :=
  congrArg (fun p => { g.on s with p := p }) (h.writePoint s.p _ k hk)

theorem Change.Beside.setChain (h : g.Beside i) (hi : writesChain i = true) (s : State) (x : Vector Word 8) :
    ({ g.on s with v := x } : State) = g.on { s with v := x } := by
  unfold Change.on
  rw [h.chain hi]
  rfl

theorem Change.Beside.drew (h : g.Beside i) (hi : draws i = true) (s : State) (l : List Big) :
    (g.on s).drew l = g.on (s.drew l) := by
  unfold Change.on
  rw [h.rng hi]
  rfl

theorem Change.Beside.awaitDraw (h : g.Beside i) (hi : draws i = true) (s : State) (n : Nat) :
    (g.on s).awaitDraw n = g.on (s.awaitDraw n) := by
  unfold Change.on
  rw [h.rng hi]
  rfl

theorem Change.Beside.runLoop (h : g.Beside i) (hi : draws i = true) (s : State) {α : Type} (f : Nat → Option α) :
    runLoop f (g.on s) = runLoop f s := by
  unfold Change.on
  rw [h.rng hi]
  rfl

/-- A register written with the same number on both sides. -/
theorem Change.Beside.succeed_reg (h : g.Beside i) (s : State) {k : Reg} (hk : k ∈ destRegs i) {x y : Nat} (hx : x = y) :
    succeed ((g.on s).setRegNat k x) = mapNext g.on (succeed (s.setRegNat k y)) := by
  rw [hx, h.setRegNat s hk]
  rfl

/-- A register written with a function of two registers read. -/
theorem Change.Beside.succeed_reg₂ (h : g.Beside i) (s : State) (f : Nat → Nat → Nat) {rd ra rb : Reg}
    (hd : rd ∈ destRegs i) (ha : ra ∈ srcRegs i) (hb : rb ∈ srcRegs i) :
    succeed ((g.on s).setRegNat rd (f ((g.on s).regNat ra) ((g.on s).regNat rb))) =
      mapNext g.on (succeed (s.setRegNat rd (f (s.regNat ra) (s.regNat rb)))) :=
  h.succeed_reg s hd (by rw [h.regNat s ha, h.regNat s hb])

/-- A point written on both sides. -/
theorem Change.Beside.succeed_point (h : g.Beside i) (s : State) {k : PReg} (hk : destPoint i = some k)
    {x y : AffinePoint} (hx : x = y) :
    succeed ((g.on s).setPoint k x) = mapNext g.on (succeed (s.setPoint k y)) := by
  rw [hx, h.setPoint s hk]
  rfl

end

section
variable (g : Change) (s : State)

theorem mapNext_orFault {α : Type} (x : Except Fault α) (k k' : α → Result) (f : State → State)
    (h : ∀ a, k' a = mapNext f (k a)) : orFault x k' = mapNext f (orFault x k) := by
  cases x with
  | ok a => exact h a
  | error e => rfl

theorem mapNext_ite {c : Prop} [Decidable c] {a a' b b' : Result} {f : State → State} (ha : c → a' = mapNext f a)
    (hb : ¬c → b' = mapNext f b) : (if c then a' else b') = mapNext f (if c then a else b) := by
  split
  · exact ha ‹_›
  · exact hb ‹_›

theorem withIn_on (k k' : Bytes → Result) (h : ∀ b, k' b = mapNext g.on (k b)) :
    withIn (g.on s) k' = mapNext g.on (withIn s k) := mapNext_orFault (memRead s .ibuf 0 s.ilen.toNat) k k' g.on h

theorem withAux_on (k k' : Bytes → Result) (h : ∀ b, k' b = mapNext g.on (k b)) :
    withAux (g.on s) k' = mapNext g.on (withAux s k) := mapNext_orFault (memRead s .abuf 0 s.alen.toNat) k k' g.on h

theorem withSig_on (k k' : Bytes → Result) (h : ∀ b, k' b = mapNext g.on (k b)) :
    withSig (g.on s) k' = mapNext g.on (withSig s k) :=
  mapNext_orFault (memRead s .sigbuf 0 s.siglen.toNat) k k' g.on h

theorem withIdent_on (k k' : Bytes → Result) (h : ∀ b, k' b = mapNext g.on (k b)) :
    withIdent (g.on s) k' = mapNext g.on (withIdent s k) :=
  mapNext_ite (fun _ => withAux_on g s k k' h) (fun _ => h defaultId)

/-- Output stored and the command completed. -/
theorem putOut_on (v : Bytes) (att : Nat) :
    putOut (g.on s) v (succeedAfter att) = mapNext g.on (putOut s v (succeedAfter att)) := by
  unfold putOut putBytes memWrite
  split <;> rfl

theorem putSig_on (v : Bytes) (att : Nat) :
    putSig (g.on s) v (succeedAfter att) = mapNext g.on (putSig s v (succeedAfter att)) := by
  unfold putSig putBytes memWrite
  split <;> rfl

end

section
variable {g : Change} (s : State)

theorem execModinv_on (rd ra : Reg) (m : Modulus) (h : g.Beside (.modinv rd ra m)) :
    execModinv rd ra m (g.on s) = mapNext g.on (execModinv rd ra m s) := by
  unfold execModinv
  rw [h.regNat s (by simp [srcRegs])]
  exact mapNext_ite (fun _ => rfl) fun _ => h.succeed_reg s (by simp [destRegs]) rfl

theorem execPenc_on (pa : PReg) (h : g.Beside (.penc pa)) : execPenc pa (g.on s) = mapNext g.on (execPenc pa s) := by
  unfold execPenc
  rw [h.point s (by simp [srcPoints])]
  cases norm (s.point pa) with
  | inf => rfl
  | aff x y => exact putOut_on g s _ 0

theorem execPdec_on (pd : PReg) (h : g.Beside (.pdec pd)) : execPdec pd (g.on s) = mapNext g.on (execPdec pd s) := by
  refine withIn_on g s _ _ fun b => ?_
  cases decodePoint b with
  | none => rfl
  | some c => exact mapNext_ite (fun _ => h.succeed_point s rfl rfl) fun _ => rfl

theorem execSm3blk_on (h : g.Beside .sm3blk) : execSm3blk (g.on s) = mapNext g.on (execSm3blk s) := by
  refine mapNext_ite (fun _ => rfl) fun _ => mapNext_orFault (memRead s .ibuf 0 64) _ _ _ fun b => ?_
  have hv : (g.on s).v = s.v := congrFun (h.chain rfl) s.v
  rw [hv]
  exact congrArg succeed (h.setChain rfl s _)

theorem execSm3hash_on (h : g.Beside .sm3hash) : execSm3hash (g.on s) = mapNext g.on (execSm3hash s) := by
  refine withIn_on g s _ _ fun msg => mapNext_ite (fun _ => putOut_on g s [] 0) fun _ => ?_
  exact (congrArg (putOut · (sm3 msg) succeed) (h.setChain rfl s _)).trans (putOut_on g _ _ 0)

theorem execKdfgen_on (l : BitVec 16) : execKdfgen l (g.on s) = mapNext g.on (execKdfgen l s) :=
  mapNext_ite (fun _ => rfl) fun _ => withAux_on g s _ _ fun _ => putOut_on g s _ 0

theorem execKdfxor_on : execKdfxor (g.on s) = mapNext g.on (execKdfxor s) :=
  withAux_on g s _ _ fun _ => withIn_on g s _ _ fun _ => putOut_on g s _ 0

theorem execDerenc_on (ra rb : Reg) (h : g.Beside (.derenc ra rb)) :
    execDerenc ra rb (g.on s) = mapNext g.on (execDerenc ra rb s) := by
  unfold execDerenc
  rw [h.regNat s (by simp [srcRegs]), h.regNat s (by simp [srcRegs])]
  exact putSig_on g s _ 0

theorem execDerdec_on (rd re : Reg) (h : g.Beside (.derdec rd re)) :
    execDerdec rd re (g.on s) = mapNext g.on (execDerdec rd re s) := by
  refine mapNext_ite (fun _ => rfl) fun _ => withSig_on g s _ _ fun b => ?_
  cases derParse b with
  | none => rfl
  | some c =>
    show succeed (((g.on s).setRegNat rd c.1).setRegNat re c.2) = _
    rw [h.setRegNat s (by simp [destRegs])]
    exact h.succeed_reg _ (by simp [destRegs]) rfl

theorem execSm2key_on (h : g.Beside .sm2key) : execSm2key (g.on s) = mapNext g.on (execSm2key s) := by
  unfold execSm2key
  rw [h.regNat s (by simp [srcRegs])]
  exact mapNext_ite (fun _ => h.succeed_point s rfl rfl) fun _ => rfl

theorem execSm2z_on (h : g.Beside .sm2z) : execSm2z (g.on s) = mapNext g.on (execSm2z s) := by
  unfold execSm2z
  rw [h.point s (by simp [srcPoints])]
  refine withIdent_on g s _ _ fun ident => mapNext_ite (fun _ => rfl) fun _ => ?_
  cases s.point 0 with
  | inf => rfl
  | aff x y => exact mapNext_ite (fun _ => putOut_on g s _ 0) fun _ => rfl

theorem signLoop_on (d e : Nat) (h : g.Beside .sm2sign) : signLoop d e (g.on s) = mapNext g.on (signLoop d e s) := by
  unfold signLoop
  rw [h.runLoop rfl s]
  cases runLoop (attemptSign d e) s with
  | waiting att => exact congrArg Host.Outcome.next (h.awaitDraw rfl s att)
  | exhausted att rng => exact congrArg (fun u => raise _ att (State.emptied u _)) (h.drew rfl s rng)
  | success c att rng =>
    show putSig ((((g.on s).drew rng).setRegNat 1 c.1).setRegNat 2 c.2) _ _ = _
    rw [h.drew rfl, h.setRegNat _ (by simp [destRegs]), h.setRegNat _ (by simp [destRegs])]
    exact putSig_on g _ _ att

theorem execSm2sign_on (h : g.Beside .sm2sign) : execSm2sign (g.on s) = mapNext g.on (execSm2sign s) := by
  unfold execSm2sign
  rw [h.regNat s (by simp [srcRegs])]
  refine mapNext_ite (fun _ => ?_) fun _ => rfl
  refine withIdent_on g s _ _ fun ident => mapNext_ite (fun _ => rfl) fun _ => ?_
  cases scalarMul baseG (s.regNat 0) with
  | inf => rfl
  | aff xq yq => exact withIn_on g s _ _ fun msg => signLoop_on s _ _ h

theorem execSm2vfy_on (h : g.Beside .sm2vfy) : execSm2vfy (g.on s) = mapNext g.on (execSm2vfy s) := by
  unfold execSm2vfy
  rw [h.point s (by simp [srcPoints])]
  exact withSig_on g s _ _ fun _ => withIdent_on g s _ _ fun _ => withIn_on g s _ _ fun _ => rfl

theorem encLoop_on (msg : Bytes) (h : g.Beside .sm2enc) : encLoop msg (g.on s) = mapNext g.on (encLoop msg s) := by
  unfold encLoop
  rw [h.point s (by simp [srcPoints]), h.runLoop rfl s, g.on_cfg]
  cases runLoop (attemptEnc s.cfg.order s.cfg.nopfx (s.point 0) msg) s with
  | waiting att => exact congrArg Host.Outcome.next (h.awaitDraw rfl s att)
  | exhausted att rng => exact congrArg (fun u => raise _ att (State.emptied u _)) (h.drew rfl s rng)
  | success c att rng =>
    exact (congrArg (putOut · c (succeedAfter att)) (h.drew rfl s rng)).trans (putOut_on g _ _ att)

theorem execSm2enc_on (h : g.Beside .sm2enc) : execSm2enc (g.on s) = mapNext g.on (execSm2enc s) := by
  unfold execSm2enc
  rw [h.point s (by simp [srcPoints])]
  exact mapNext_ite (fun _ => putOut_on g s [] 0) fun _ => mapNext_ite (fun _ => rfl) fun _ =>
    mapNext_ite (fun _ => rfl) fun _ => withIn_on g s _ _ fun msg => encLoop_on s msg h

theorem execSm2dec_on (h : g.Beside .sm2dec) : execSm2dec (g.on s) = mapNext g.on (execSm2dec s) := by
  unfold execSm2dec
  rw [h.regNat s (by simp [srcRegs]), g.on_cfg]
  refine mapNext_ite (fun _ => putOut_on g s [] 0) fun _ => withIn_on g s _ _ fun c => ?_
  cases decryptBytes s.cfg.order s.cfg.nopfx (s.regNat 0) c with
  | error e => rfl
  | ok msg => exact putOut_on g s msg 0

/-- A command commutes with a change beside its read and write set. -/
theorem exec_on (i : Instr) (h : g.Beside i) : exec i (g.on s) = mapNext g.on (exec i s) := by
  have hr : ∀ k, k ∈ srcRegs i → (g.on s).regNat k = s.regNat k := fun _ => h.regNat s
  have hp : ∀ k, k ∈ srcPoints i → (g.on s).point k = s.point k := fun _ => h.point s
  cases i with
  | modadd rd ra rb m =>
    exact h.succeed_reg₂ s (modAdd (modulus m)) (by simp [destRegs]) (by simp [srcRegs]) (by simp [srcRegs])
  | modsub rd ra rb m =>
    exact h.succeed_reg₂ s (modSub (modulus m)) (by simp [destRegs]) (by simp [srcRegs]) (by simp [srcRegs])
  | modmul rd ra rb m =>
    exact h.succeed_reg₂ s (modMul (modulus m)) (by simp [destRegs]) (by simp [srcRegs]) (by simp [srcRegs])
  | modinv rd ra m => exact execModinv_on s rd ra m h
  | montmul rd ra rb m =>
    exact h.succeed_reg₂ s (montMul (modulus m)) (by simp [destRegs]) (by simp [srcRegs]) (by simp [srcRegs])
  | ldc rd c => exact h.succeed_reg s (by simp [destRegs]) rfl
  | padd pd pa pb => exact h.succeed_point s rfl (by rw [hp pa (by simp [srcPoints]), hp pb (by simp [srcPoints])])
  | pdbl pd pa => exact h.succeed_point s rfl (by rw [hp pa (by simp [srcPoints])])
  | pmul pd pa rk => exact h.succeed_point s rfl (by rw [hp pa (by simp [srcPoints]), hr rk (by simp [srcRegs])])
  | pchk pa => exact congrArg (fun q => answer (validPoint q) (g.on s)) (hp pa (by simp [srcPoints]))
  | pldg pd => exact h.succeed_point s rfl rfl
  | penc pa => exact execPenc_on s pa h
  | pdec pd => exact execPdec_on s pd h
  | sm3init => exact congrArg succeed (h.setChain rfl s sm3IV)
  | sm3blk => exact execSm3blk_on s h
  | sm3hash => exact execSm3hash_on s h
  | kdfgen l => exact execKdfgen_on s l
  | kdfxor => exact execKdfxor_on s
  | derenc ra rb => exact execDerenc_on s ra rb h
  | derdec rd re => exact execDerdec_on s rd re h
  | sm2key => exact execSm2key_on s h
  | sm2z => exact execSm2z_on s h
  | sm2sign => exact execSm2sign_on s h
  | sm2vfy => exact execSm2vfy_on s h
  | sm2enc => exact execSm2enc_on s h
  | sm2dec => exact execSm2dec_on s h

theorem exec_on_next {i : Instr} {t : State} (hg : g.Beside i) (h : exec i s = .next t) :
    exec i (g.on s) = .next (g.on t) := by rw [exec_on s i hg, h, mapNext]

end

theorem beside_setReg {i : Instr} {k : Reg} (x : Big) (hr : k ∉ srcRegs i) (hw : k ∉ destRegs i) :
    Change.Beside { r := (·.set k x) } i where
  readReg r j hj := by
    have hne : (k : Nat) ≠ j := fun e => hr (Fin.ext e ▸ hj)
    simp [hne]
  readPoint _ _ _ := rfl
  writeReg r y j hj := Vector.set_comm (hi := k.isLt) _ _ fun e => hw (Fin.ext e ▸ hj)
  writePoint _ _ _ _ := rfl
  chain _ := rfl
  rng _ := rfl

theorem beside_setPreg {i : Instr} {k : PReg} (q : PointReg) (hr : k ∉ srcPoints i) (hw : destPoint i ≠ some k) :
    Change.Beside { p := (·.set k q) } i where
  readReg _ _ _ := rfl
  readPoint p j hj := by
    have hne : (k : Nat) ≠ j := fun e => hr (Fin.ext e ▸ hj)
    simp [hne]
  writeReg _ _ _ _ := rfl
  writePoint p y j hj := Vector.set_comm (hi := k.isLt) _ _ fun e => hw (Fin.ext e ▸ hj)
  chain _ := rfl
  rng _ := rfl

theorem beside_rng {i : Instr} (l : List Big) (hi : draws i = false) : Change.Beside { rng := fun _ => l } i where
  readReg _ _ _ := rfl
  readPoint _ _ _ := rfl
  writeReg _ _ _ _ := rfl
  writePoint _ _ _ _ := rfl
  chain _ := rfl
  rng hd := absurd (hd.symm.trans hi) (by decide)

theorem beside_chain {i : Instr} (x : Vector Word 8) (hi : writesChain i = false) : Change.Beside { v := fun _ => x } i where
  readReg _ _ _ := rfl
  readPoint _ _ _ := rfl
  writeReg _ _ _ _ := rfl
  writePoint _ _ _ _ := rfl
  chain hc := absurd (hc.symm.trans hi) (by decide)
  rng _ := rfl

/-- Settles O18: each of the four replacements is a change beside the read and write set. -/
theorem noninterference : Obligations.Noninterference := by
  intro i s t h
  exact ⟨fun k x hr hw => exec_on_next s (beside_setReg x hr hw) h,
    fun k q hr hw => exec_on_next s (beside_setPreg q hr hw) h,
    fun hi l => exec_on_next s (beside_rng l hi) h, fun hi x => exec_on_next s (beside_chain x hi) h⟩

end Sys2Proof.Machine

/-! How SM2SIGN and SM2ENC fail and wait (R222, R236): the degenerate draws of the statements are those of the loop. -/
namespace Sys2Proof.Machine

theorem validScalar_iff (d : Nat) : validScalar d = true ↔ 1 ≤ d ∧ d ≤ curveN - 2 := by
  simp [validScalar]

/-- The multiple of `G` by a valid scalar `d` is not `O` (R144, R152). -/
theorem scalarMul_baseG_of_valid {d : Nat} (h1 : 1 ≤ d) (h2 : d ≤ curveN - 2) :
    ∃ x y, scalarMul baseG d = .aff x y := by
  have := Fact.mk curveP_prime
  have hne : scalarMul baseG d ≠ .inf := by
    have hn := curveN_pos
    rw [Ne, (rep_baseG.scalarMul d).eq_inf_iff, nsmul_pointG_eq_zero, Nat.mod_eq_of_lt (by omega)]
    omega
  cases h : scalarMul baseG d with
  | inf => exact absurd h hne
  | aff x y => exact ⟨x, y, rfl⟩

/-- A product with an inverse is 0 modulo `n` exactly when the other factor is. -/
theorem modInv_mul_imod_eq_zero (x : Nat) (hx : x % curveN ≠ 0) (z : Int) :
    modInv curveN x * imod z curveN % curveN = 0 ↔ (curveN : Int) ∣ z := by
  have hnd : ¬ curveN ∣ modInv curveN x :=
    Nat.not_dvd_of_pos_of_lt (modInv_pos _ _ curveN_prime hx) (modInv_lt _ _ curveN_pos)
  rw [← Nat.dvd_iff_mod_eq_zero, curveN_prime.dvd_mul, or_iff_right hnd, ← Int.natCast_dvd_natCast,
    ← Int.modEq_zero_iff_dvd, ← Int.modEq_zero_iff_dvd]
  have hz := imod_modEq z curveN curveN_pos
  exact ⟨hz.symm.trans, hz.trans⟩

/-- The attempt of SM2SIGN is degenerate as R222 says it is, for a valid scalar `d`. -/
theorem attemptSign_eq_none_iff {d e k x1 y1 : Nat} (h1 : 1 ≤ d) (h2 : d ≤ curveN - 2)
    (hp : scalarMul baseG k = .aff x1 y1) :
    attemptSign d e k = none ↔ (e + x1) % curveN = 0 ∨ (e + x1) % curveN + k = curveN ∨
      (k : Int) ≡ ((e + x1) % curveN * d : Nat) [ZMOD curveN] := by
  have hd : (1 + d) % curveN ≠ 0 := by
    rw [Nat.mod_eq_of_lt (by have := curveN_prime.two_le; omega)]
    omega
  have hs := modInv_mul_imod_eq_zero (1 + d) hd ((k : Int) - ((e + x1) % curveN : Nat) * d)
  rw [attemptSign_eq d e k x1 y1 hp, Int.modEq_comm, Int.modEq_iff_dvd, Nat.cast_mul, ← hs, ← or_assoc]
  split
  · simp_all
  · split <;> simp_all

theorem degenerateDraw_sign_iff {d : Nat} (e : Nat) (h1 : 1 ≤ d) (h2 : d ≤ curveN - 2) (k : Big) :
    degenerateDraw (attemptSign d e) k ↔ SignDegenerate d e k.toNat := by
  unfold degenerateDraw SignDegenerate
  cases hp : scalarMul baseG k.toNat with
  | inf => simp [attemptSign, hp]
  | aff x1 y1 => simp only [attemptSign_eq_none_iff h1 h2 hp]

/-- SM2SIGN past its tests is its retry loop (R222). -/
theorem execSm2sign_eq_signLoop (s : State) (h : s.Inv) (h1 : 1 ≤ s.regNat 0) (h2 : s.regNat 0 ≤ curveN - 2)
    (hi : (identOf s).length ≤ Config.idMax) {xq yq : Nat} (hq : scalarMul baseG (s.regNat 0) = .aff xq yq) :
    exec .sm2sign s =
      signLoop (s.regNat 0) (digestE (identOf s) xq yq (s.ibuf.readBytes 0 s.ilen.toNat)) s := by
  show execSm2sign s = _
  unfold execSm2sign
  rw [if_pos ((validScalar_iff _).2 ⟨h1, h2⟩), withIdent_ok s _ h.alen_le, if_neg (not_lt.2 hi), hq]
  exact withIn_ok s _ h.ilen_le

/-- The loop reaches the cap after exactly the degenerate draws it allows. -/
theorem runLoop_of_exhausted {α : Type} (attempt : Nat → Option α) (s : State) (bad rest : List Big)
    (hr : s.rng = bad ++ rest) (hl : s.tries + bad.length = s.cap.toNat) (hb : ∀ x ∈ bad, degenerateDraw attempt x) :
    runLoop attempt s = .exhausted s.cap.toNat rest := by
  unfold runLoop
  rw [hr, show s.cap.toNat - s.tries = bad.length by omega, retryLoop_append_exhausted attempt bad rest _ hb, hl]

/-- The loop waits when all its answers are degenerate and fewer than the cap allows. -/
theorem runLoop_of_waiting {α : Type} (attempt : Nat → Option α) (s : State)
    (hl : s.tries + s.rng.length < s.cap.toNat) (hb : ∀ x ∈ s.rng, degenerateDraw attempt x) :
    runLoop attempt s = .waiting (s.tries + s.rng.length) :=
  retryLoop_all_degenerate attempt s.rng _ _ hb (by omega)

theorem signLoop_of_exhausted {d e att : Nat} {s : State} {rng : List Big}
    (h : runLoop (attemptSign d e) s = .exhausted att rng) :
    signLoop d e s = .next (((s.drew rng).emptied .sigbuf).complete false att (some .signatureGeneration)) := by
  rw [signLoop, h]
  rfl

theorem signLoop_of_waiting {d e att : Nat} {s : State} (h : runLoop (attemptSign d e) s = .waiting att) :
    signLoop d e s = .next (s.awaitDraw att) := by rw [signLoop, h]

theorem encLoop_of_exhausted {msg : Bytes} {att : Nat} {s : State} {rng : List Big}
    (h : runLoop (attemptEnc s.cfg.order s.cfg.nopfx (s.point 0) msg) s = .exhausted att rng) :
    encLoop msg s = .next (((s.drew rng).emptied .obuf).complete false att (some .encryptionGeneration)) := by
  rw [encLoop, h]
  rfl

theorem encLoop_of_waiting {msg : Bytes} {att : Nat} {s : State}
    (h : runLoop (attemptEnc s.cfg.order s.cfg.nopfx (s.point 0) msg) s = .waiting att) :
    encLoop msg s = .next (s.awaitDraw att) := by rw [encLoop, h]

/-- Settles O47: the tests in their order, then the two ends of a loop whose draws are all degenerate. -/
theorem signFails : Obligations.SignFails := by
  intro s hs
  refine ⟨fun hd => ?_, fun h1 h2 hi => ?_, fun h1 h2 hi => ?_⟩
  · exact if_neg fun hv => hd ((validScalar_iff _).1 hv)
  · show execSm2sign s = _
    unfold execSm2sign
    rw [if_pos ((validScalar_iff _).2 ⟨h1, h2⟩), withIdent_ok s _ hs.alen_le]
    exact if_pos hi
  · obtain ⟨xq, yq, hq⟩ := scalarMul_baseG_of_valid h1 h2
    have hloop := execSm2sign_eq_signLoop s hs h1 h2 hi hq
    refine ⟨xq, yq, hq, fun bad rest hr hl hb => ?_, fun hl hb => ?_⟩
    · exact hloop.trans (signLoop_of_exhausted (runLoop_of_exhausted _ s bad rest hr hl fun x hx =>
        (degenerateDraw_sign_iff _ h1 h2 x).2 (hb x hx)))
    · exact hloop.trans (signLoop_of_waiting (runLoop_of_waiting _ s hl fun x hx =>
        (degenerateDraw_sign_iff _ h1 h2 x).2 (hb x hx)))

/-- The attempt of SM2ENC is degenerate as R236 says it is. -/
theorem degenerateDraw_enc_iff (order nopfx : Bool) (q : AffinePoint) (msg : Bytes) (k : Big) :
    degenerateDraw (attemptEnc order nopfx q msg) k ↔ EncDegenerate q msg.length k.toNat := by
  unfold degenerateDraw EncDegenerate
  cases hg : scalarMul baseG k.toNat with
  | inf => simp [attemptEnc, hg]
  | aff x1 y1 =>
    cases hq : scalarMul q k.toNat with
    | inf => simp [attemptEnc, hg, hq]
    | aff x2 y2 => simp [attemptEnc_eq order nopfx q msg k.toNat x1 y1 x2 y2 hg hq, allZero]

/-- SM2ENC past its tests is its retry loop (R236). -/
theorem execSm2enc_eq_encLoop (s : State) (h : s.Inv) (h0 : s.ilen.toNat ≠ 0)
    (hc : c1Length s.cfg.nopfx + 32 + s.ilen.toNat ≤ Config.bufBytes) (hv : validPoint (s.point 0) = true) :
    exec .sm2enc s = encLoop (s.ibuf.readBytes 0 s.ilen.toNat) s := by
  show execSm2enc s = _
  unfold execSm2enc
  rw [if_neg h0, if_neg (not_lt.2 hc), hv]
  exact withIn_ok s _ h.ilen_le

/-- Settles O51: the tests in their order, then the two ends of a loop whose draws are all degenerate. -/
theorem encryptFails : Obligations.EncryptFails := by
  intro s hs h0
  refine ⟨fun hc => ?_, fun hc => ⟨fun hv => ?_, fun hv => ?_⟩⟩
  · exact (if_neg h0).trans (if_pos hc)
  · show execSm2enc s = _
    unfold execSm2enc
    have hc : c1Length s.cfg.nopfx + 32 + s.ilen.toNat ≤ Config.bufBytes := hc
    rw [if_neg h0, if_neg (not_lt.2 hc), hv]
    rfl
  · have hloop := execSm2enc_eq_encLoop s hs h0 hc hv
    have hdeg (x : Big) := degenerateDraw_enc_iff s.cfg.order s.cfg.nopfx (s.point 0)
      (s.ibuf.readBytes 0 s.ilen.toNat) x
    rw [Memory.readBytes_length] at hdeg
    refine ⟨fun bad rest hr hl hb => ?_, fun hl hb => ?_⟩
    · exact hloop.trans (encLoop_of_exhausted (runLoop_of_exhausted _ s bad rest hr hl fun x hx =>
        (hdeg x).2 (hb x hx)))
    · exact hloop.trans (encLoop_of_waiting (runLoop_of_waiting _ s hl fun x hx => (hdeg x).2 (hb x hx)))

end Sys2Proof.Machine

/-! The control registers, the lengths and the reads of the host, as abstract operations and through the window (R72). -/
namespace Sys2Proof.Machine

/-- A word write at a place that takes words only is the abstract operation of the place (R70, R73). -/
theorem writeWord_op {off : Nat} {p : Place} {v : Word} {o : HostOp} (s : State) (h : off < 0x4000) (h4 : off % 4 = 0)
    (hp : placeOf off = p) (ho : wordOp v p = some o) :
    busAccess (.writeWord (Config.base + off) v) s = .next (hostOp o s) := by
  rw [writeWord_place off v s p (lt_windowSize off h) h4 hp]
  rcases writeWordPlace_cases off v s p with ⟨o', ho', he⟩ | he
  · rw [he, Option.some.inj (ho'.symm.trans ho)]
  · cases p <;> cases ho <;> rfl

/-- Settles O7: the three cases of the issue. -/
theorem issueRule : Obligations.IssueRule := by
  intro s w
  refine ⟨writeWord_op s (off := 0) (by decide) (by decide) rfl rfl, .ack, fun hb => ?_, fun he => ?_, fun hb he => ?_⟩
  · exact congrArg (State.respond · .ack) (hostIssue_refused w s (.inl hb))
  · exact congrArg (State.respond · .ack) (hostIssue_refused w s (.inr he))
  · exact congrArg (State.respond · .ack) (hostIssue_of_ready w s hb he)

/-- Settles O8: the write is the abstract status clear, which acts out of the BUSY interval only. -/
theorem statusClear : Obligations.StatusClear := by
  intro s x
  have h : busAccess (.writeWord (Config.base + 4) x) s = .next (hostOp .clearStatus s) :=
    writeWord_op s (by decide) (by decide) rfl rfl
  refine ⟨h, .ack, fun hb => h.trans ?_, fun hb => h.trans ?_⟩
  · exact congrArg (fun t => Host.Outcome.next (State.respond t .ack)) (hostClearStatus_of_idle s hb)
  · exact congrArg (fun t => Host.Outcome.next (State.respond t .ack)) (hostClearStatus_of_busy s hb)

theorem errField_le (e : Option CmdError) : errField e ≤ 9 := by
  rcases e with _ | e
  · exact Nat.zero_le 9
  · cases e <;> decide

/-- STATUS as a number: the three bits, ERR and ATT at their positions (R31). -/
theorem statusWord_toNat (s : State) : (statusWord s).toNat =
    s.busy.toNat + s.done.toNat * 2 + s.result.toNat * 4 + errField s.err * 16 + s.att.toNat * 256 := by
  have h1 := s.busy.toNat_le
  have h2 := s.done.toNat_le
  have h3 := s.result.toNat_le
  have h4 := errField_le s.err
  have h5 := s.att.isLt
  rw [statusWord, BitVec.toNat_ofNat]
  omega

/-- A bit of a word is a digit of its number. -/
theorem getLsbD_of_digit {w : Word} {i : Nat} {b : Bool} (h : w.toNat / 2 ^ i % 2 = b.toNat) : w.getLsbD i = b := by
  have hd : w.getLsbD i = decide (w.toNat / 2 ^ i % 2 = 1) := Nat.testBit_eq_decide_div_mod_eq
  rw [hd, h]
  cases b <;> rfl

/-- Settles O9: the fields are the digits of the number STATUS is. -/
theorem statusWord_fields : Obligations.StatusWord := by
  refine ⟨fun s => ⟨statusWord s, ?_, ?_⟩, rfl, rfl⟩
  · exact readWord_place 4 s .status (lt_windowSize 4 (by decide)) (by decide) rfl
  have hn := statusWord_toNat s
  have h1 := s.busy.toNat_le
  have h2 := s.done.toNat_le
  have h3 := s.result.toNat_le
  have h4 := errField_le s.err
  have h5 := s.att.isLt
  refine ⟨getLsbD_of_digit (by omega), getLsbD_of_digit (by omega), getLsbD_of_digit (by omega),
    getLsbD_of_digit (by simp only [Bool.toNat_false]; omega), ?_, ?_, ?_, h4⟩
  · rw [BitVec.extractLsb'_toNat, hn, Nat.shiftRight_eq_div_pow]
    omega
  · apply BitVec.eq_of_toNat_eq
    rw [BitVec.extractLsb'_toNat, hn, Nat.shiftRight_eq_div_pow]
    omega
  · apply BitVec.eq_of_toNat_eq
    rw [BitVec.extractLsb'_toNat, hn, Nat.shiftRight_eq_div_pow]
    simp only [BitVec.ofNat_eq_ofNat, BitVec.toNat_ofNat]
    omega

/-- Settles O11: reset leaves the state the machine starts in, but for the model's own fields. -/
theorem resetState : Obligations.ResetState := by
  have hreg (k : Reg) : State.reset.reg k = 0 := by simp [State.reg, State.reset]
  have hpoint (k : PReg) : State.reset.preg k = { x := 0, y := 0, inf := true } := by
    simp [State.preg, State.reset, PointReg.infinity]
  have hchain (i : Fin 8) : State.reset.v[i] = 0 := by simp [State.reset]
  have hbuf (b : Buf) : State.reset.len b = 0 ∧ ∀ a, (State.reset.mem b).read a = 0 := by
    cases b <;> exact ⟨rfl, fun _ => rfl⟩
  rintro s t (rfl | rfl)
  · refine ⟨hreg, hpoint, hchain, rfl, rfl, rfl, rfl, rfl, rfl, rfl, fun b => ?_⟩
    cases b <;> exact ⟨rfl, fun _ => rfl⟩
  · exact ⟨hreg, hpoint, hchain, rfl, rfl, rfl, rfl, rfl, rfl, rfl, hbuf⟩

/-- Settles O57: the read of a buffer below and beyond its length (R40). -/
theorem readBeyondLength : Obligations.ReadBeyondLength := by
  refine ⟨fun s i => ⟨fun h => ?_, fun h => ?_⟩, fun s i b l hs hb hi hil hl => ?_⟩
  · exact congrArg (fun x => s.respond (.byte x)) (if_neg (by omega))
  · exact congrArg (fun x => s.respond (.byte x)) (if_neg (by omega))
  · have h1 : hostOp (.writeBuf .sigbuf i b) s = (s.setMem .sigbuf (s.sigbuf.write i b)).respond .ack := by
      show writeUnlessBusy s (storeByte s .sigbuf i b) = _
      rw [writeUnlessBusy_of_idle s _ hb, storeByte_of_lt s .sigbuf (by decide) i b hi]
      rfl
    have h2 : hostOp (.writeLen .sigbuf l) (hostOp (.writeBuf .sigbuf i b) s) =
        (State.setLen ((s.setMem .sigbuf (s.sigbuf.write i b)).respond .ack) .sigbuf l).respond .ack := by
      rw [h1]
      show writeUnlessBusy _ (storeLen _ .sigbuf l) = _
      have hb' : ((s.setMem .sigbuf (s.sigbuf.write i b)).respond .ack).busy = false := hb
      rw [writeUnlessBusy_of_idle _ _ hb', storeLen, if_pos ((lenWritable_sigbuf l).2 hl)]
    rw [h2]
    refine congrArg (fun x => State.respond _ (.byte x)) ((if_pos ⟨hi, hil⟩).trans ?_)
    exact (Memory.read_write _ (hs.memWf .sigbuf) i i b).trans (if_pos rfl)

/-- A host write of a length register, out of the BUSY interval (R35 to R38). -/
theorem writeLen_of_idle {s : State} (hb : s.busy = false) (b : Buf) (w : Word) :
    hostOp (.writeLen b w) s = (if lenWritable b w then s.setLen b w else s).respond .ack :=
  writeUnlessBusy_of_idle s _ hb

theorem capOfWord_eq (v : Word) : capOfWord v = v.extractLsb' 0 8 := by
  apply BitVec.eq_of_toNat_eq
  simp [capOfWord]

/-- Settles O59: each word write is the abstract operation of its place. -/
theorem lengthWrites : Obligations.LengthWrites := by
  intro s v hb
  have hidle (t : State) : writeUnlessBusy s t = t.respond .ack := writeUnlessBusy_of_idle s t hb
  have hilen : busAccess (.writeWord (Config.base + 0x010) v) s = .next (hostOp (.writeLen .ibuf v) s) :=
    writeWord_op s (by decide) (by decide) rfl rfl
  have holen : busAccess (.writeWord (Config.base + 0x014) v) s = .next (hostOp (.writeLen .obuf v) s) :=
    writeWord_op s (by decide) (by decide) rfl rfl
  have halen : busAccess (.writeWord (Config.base + 0x018) v) s = .next (hostOp (.writeLen .abuf v) s) :=
    writeWord_op s (by decide) (by decide) rfl rfl
  have hsiglen : busAccess (.writeWord (Config.base + 0x01C) v) s = .next (hostOp (.writeLen .sigbuf v) s) :=
    writeWord_op s (by decide) (by decide) rfl rfl
  have hcfg : busAccess (.writeWord (Config.base + 0x008) v) s = .next (hostOp (.writeCfg v) s) :=
    writeWord_op s (by decide) (by decide) rfl rfl
  have hcap : busAccess (.writeWord (Config.base + 0x00C) v) s = .next (hostOp (.writeCap v) s) :=
    writeWord_op s (by decide) (by decide) rfl rfl
  have hchain (i : Fin 8) :
      busAccess (.writeWord (Config.base + 0x020 + 4 * i) v) s = .next (hostOp (.writeV i v) s) := by
    rw [Nat.add_assoc]
    exact writeWord_op s (by omega) (by omega) (placeOf_chain i) rfl
  have hinf (k : PReg) (w : Word) : busAccess (.writeWord (Config.base + 0x140 + 0x60 * k) w) s =
      .next (hostOp (.writePointInf k (w.getLsbD 0)) s) := by
    rw [Nat.add_assoc]
    exact writeWord_op s (by omega) (by omega) (placeOf_pointInf k 0 (by decide)) rfl
  refine ⟨.ack, hilen.trans ?_, holen.trans ?_, halen.trans ?_, hsiglen.trans ?_, hcfg.trans ?_, hcap.trans ?_,
    fun i => (hchain i).trans ?_, fun k => (hinf k v).trans ?_, hilen, halen, hsiglen, hcfg, hcap, hchain,
    fun k b => (hinf k _).trans ?_⟩
  · rw [writeLen_of_idle hb]
    simp only [lenWritable_ibuf]
    rfl
  · rw [writeLen_of_idle hb]
    rfl
  · rw [writeLen_of_idle hb]
    simp only [lenWritable_abuf]
    rfl
  · rw [writeLen_of_idle hb]
    simp only [lenWritable_sigbuf]
    rfl
  · exact congrArg _ (hidle _)
  · rw [← capOfWord_eq]
    exact congrArg _ (hidle _)
  · exact congrArg _ (hidle _)
  · exact congrArg _ (hidle _)
  · cases b <;> rfl

/-- The bits of CFG as the host reads it (R33). -/
theorem cfgWord_fields (c : Cfg) : (cfgWord c).getLsbD 0 = c.order ∧ (cfgWord c).getLsbD 1 = c.nopfx ∧
    (cfgWord c).getLsbD 2 = c.idset ∧ (cfgWord c).getLsbD 3 = c.blankq ∧ (cfgWord c).extractLsb' 4 28 = 0 := by
  obtain ⟨order, nopfx, idset, blankq⟩ := c
  revert order nopfx idset blankq
  decide

theorem capWord_eq (c : BitVec 8) : capWord c = c.setWidth 32 := BitVec.ofNat_toNat _ c

theorem bitWord_eq (b : Bool) : bitWord b = if b then 1 else 0 := by cases b <;> rfl

/-- What a read of a buffer byte within the capacity gives (R39, R40). -/
theorem loadByte_of_lt (s : State) (b : Buf) (j : Nat) (hj : j < capacity b)
    (hl : b = .obuf ∨ b = .sigbuf → j < (s.len b).toNat) : loadByte s b j = (s.mem b).read j := by
  cases b with
  | ibuf => exact if_pos hj
  | abuf => exact if_pos hj
  | obuf => exact if_pos ⟨hj, hl (.inl rfl)⟩
  | sigbuf => exact if_pos ⟨hj, hl (.inr rfl)⟩

/-- A bus read of any width changes the answer and the count of free values only (R66). -/
theorem busRead_changes {a : BusAccess} {s t : State}
    (ha : (∃ n, a = .readByte n) ∨ (∃ n, a = .readHalf n) ∨ ∃ n, a = .readWord n) (h : busAccess a s = .next t) :
    ∃ x n, t = { s with resp := x, fresh := n } := by
  obtain ⟨off, -, -, rfl⟩ := busAccess_next a s t h
  rcases ha with ⟨n, rfl⟩ | ⟨n, rfl⟩ | ⟨n, rfl⟩
  · exact readByteAt_changes off s
  · exact ⟨_, _, rfl⟩
  · exact readWordAt_changes off s

/-- A word read at an offset below 0x4000. -/
theorem readWord_low {off : Nat} (s : State) {p : Place} (h : off < 0x4000) (h4 : off % 4 = 0) (hp : placeOf off = p) :
    busAccess (.readWord (Config.base + off)) s = .next (readWordPlace off s p) :=
  readWord_place off s p (lt_windowSize off h) h4 hp

/-- A byte read of a buffer (R72). -/
theorem readByte_buf {off j : Nat} {b : Buf} (s : State) (h : off < Config.windowSize) (hp : placeOf off = .buf b j) :
    busAccess (.readByte (Config.base + off)) s = .next (hostOp (.readBuf b j) s) :=
  readByte_place off s _ h hp rfl

/-- The offsets of the strides are in the window (R72). -/
theorem stride_lt_windowSize (q j : Nat) (hq : q ≤ 3) (hj : j < Config.bufBytes) :
    q * Config.bstride + j < Config.windowSize := by
  have hb := bufBytes_le_bstride
  have hm : q * Config.bstride ≤ 3 * Config.bstride := Nat.mul_le_mul_right _ hq
  unfold Config.windowSize
  omega

/-- A word of zero bytes is 0. -/
theorem loadWord_reserved (s : State) (A : Nat) (h : ∀ i, i < 4 → placeOf (A + i) = .reserved) : loadWord s A = 0 := by
  have hl : (List.range 4).map (fun i => loadPlace s (placeOf (A + i))) = (List.range 4).map fun _ => 0 := by
    refine List.map_congr_left fun i hi => ?_
    rw [h i (List.mem_range.1 hi)]
    rfl
  rw [loadWord, hl]
  rfl

/-- Settles O60: every read as the abstract operation or the byte of its place. -/
theorem readsChangeNothing : Obligations.ReadsChangeNothing := by
  intro s t
  refine ⟨fun a h => ?_, fun _ => rfl, fun _ => rfl, fun _ => rfl, fun k => ?_, fun _ => rfl, fun _ => rfl,
    fun b j => ⟨_, rfl, loadByte_of_lt s b j⟩, ⟨_, rfl, cfgWord_fields s.cfg⟩, ?_, ⟨_, rfl⟩,
    readWord_low s (off := 0) (by decide) (by decide) rfl, readWord_low s (by decide) (by decide) rfl,
    readWord_low s (by decide) (by decide) rfl, readWord_low s (by decide) (by decide) rfl,
    readWord_low s (by decide) (by decide) rfl, readWord_low s (by decide) (by decide) rfl,
    readWord_low s (by decide) (by decide) rfl, readWord_low s (by decide) (by decide) rfl,
    fun i => ?_, fun k => ?_, fun j hj => ?_, fun j hj => ⟨?_, ?_, ?_⟩, fun j hj => ⟨fun k => ?_, fun k => ⟨?_, ?_⟩⟩,
    fun A hA => ⟨?_, fun h4 => ?_⟩⟩
  · rcases h with h | h | h
    · exact busRead_changes (.inl ⟨a, rfl⟩) h
    · exact busRead_changes (.inr (.inl ⟨a, rfl⟩)) h
    · exact busRead_changes (.inr (.inr ⟨a, rfl⟩)) h
  · exact congrArg (fun w => s.respond (.word w)) (bitWord_eq _)
  · exact congrArg (fun w => s.respond (.word w)) (capWord_eq _)
  · rw [Nat.add_assoc]
    exact readWord_low s (by omega) (by omega) (placeOf_chain i)
  · rw [Nat.add_assoc]
    exact readWord_low s (by omega) (by omega) (placeOf_pointInf k 0 (by decide))
  · rw [Nat.add_assoc]
    exact readByte_buf s (lt_windowSize _ (by omega)) (placeOf_sigbuf j hj)
  · rw [Nat.add_assoc]
    exact readByte_buf s (stride_lt_windowSize 1 j (by decide) hj) (placeOf_ibuf j hj)
  · rw [Nat.add_assoc]
    exact readByte_buf s (stride_lt_windowSize 2 j (by decide) hj) (placeOf_obuf j hj)
  · rw [Nat.add_assoc]
    exact readByte_buf s (stride_lt_windowSize 3 j (by decide) hj) (placeOf_abuf j hj)
  · rw [Nat.add_assoc, Nat.add_assoc, ← Nat.add_assoc 0x400, ← getByte_eq_be _ _ hj]
    exact readByte_place _ s _ (lt_windowSize _ (by omega)) (placeOf_reg k j hj) rfl
  · rw [Nat.add_assoc, Nat.add_assoc, ← Nat.add_assoc 0x100, ← getByte_eq_be _ _ hj]
    exact readByte_place _ s _ (lt_windowSize _ (by omega)) (placeOf_pointX k j hj) rfl
  · rw [Nat.add_assoc, Nat.add_assoc, ← Nat.add_assoc 0x120, ← getByte_eq_be _ _ hj]
    exact readByte_place _ s _ (lt_windowSize _ (by omega)) (placeOf_pointY k j hj) rfl
  · exact readByte_place A s .reserved (lt_windowSize_of_reserved A hA) (placeOf_reserved A hA) rfl
  · rw [readWord_place A s .reserved (lt_windowSize_of_reserved A hA) h4 (placeOf_reserved A hA)]
    exact congrArg (fun w => Host.Outcome.next (s.respond (.word w)))
      (loadWord_reserved s A fun i hi => placeOf_reserved _ (hA.word h4 i hi))

end Sys2Proof.Machine

/-! Host writes through the window (R61, R65, R72): 256-bit registers, buffers, ignored places. -/
namespace Sys2Proof.Machine

/-- A 256-bit register of the window: a big-number register, or the X or the Y of a point register. -/
inductive WideReg where
  | reg (k : Reg)
  | pointX (k : PReg)
  | pointY (k : PReg)

namespace WideReg

/-- Its offset (R72). -/
def off : WideReg → Nat
  | .reg k => 0x400 + 0x20 * k
  | .pointX k => 0x100 + 0x60 * k
  | .pointY k => 0x120 + 0x60 * k

/-- The place of its byte `j`. -/
def place : WideReg → Nat → Place
  | .reg k, j => .reg k j
  | .pointX k, j => .pointX k j
  | .pointY k, j => .pointY k j

/-- What it holds. -/
def get (s : State) : WideReg → Big
  | .reg k => s.reg k
  | .pointX k => (s.preg k).x
  | .pointY k => (s.preg k).y

/-- The state with it replaced. -/
def set (s : State) (v : Big) : WideReg → State
  | .reg k => s.setReg k v
  | .pointX k => storeX s k v
  | .pointY k => storeY s k v

/-- The abstract write of it (R70). -/
def op (v : Big) : WideReg → HostOp
  | .reg k => .writeReg k v
  | .pointX k => .writePointX k v
  | .pointY k => .writePointY k v

theorem placeOf_off_add (c : WideReg) {j : Nat} (hj : j < 32) : placeOf (c.off + j) = c.place j := by
  cases c with
  | reg k => exact placeOf_reg k j hj
  | pointX k => exact placeOf_pointX k j hj
  | pointY k => exact placeOf_pointY k j hj

theorem off_add_lt (c : WideReg) {j : Nat} (hj : j < 32) : c.off + j < Config.windowSize := by
  refine lt_windowSize _ ?_
  cases c <;> simp only [off] <;> omega

theorem off_mod (c : WideReg) : c.off % 4 = 0 := by
  cases c <;> simp only [off] <;> omega

theorem hostOp_op (c : WideReg) (v : Big) (s : State) : hostOp (c.op v) s = writeUnlessBusy s (c.set s v) := by
  cases c <;> rfl

theorem storeBytes_off_add (c : WideReg) (s : State) {j : Nat} {l : Bytes} (h : j + l.length ≤ 32) :
    storeBytes s (c.off + j) l = c.set s (setBytes (c.get s) j l) := by
  have hp (i : Nat) (hi : i < l.length) : placeOf (c.off + j + i) = c.place (j + i) := by
    rw [Nat.add_assoc]
    exact c.placeOf_off_add (by omega)
  cases c with
  | reg k => exact storeBytes_reg s k _ j l hp
  | pointX k => exact storeBytes_pointX s k _ j l hp
  | pointY k => exact storeBytes_pointY s k _ j l hp

/-- A byte written in the window is the abstract write of the old value with that byte replaced (R61). -/
theorem writeByte_eq_hostOp (c : WideReg) (s : State) {j : Nat} (hj : j < 32) (x : Byte) :
    busAccess (.writeByte (Config.base + c.off + j) x) s = .next (hostOp (c.op (setBytes (c.get s) j [x])) s) := by
  rw [Nat.add_assoc, writeByte_place _ x s _ (c.off_add_lt hj) (c.placeOf_off_add hj) (by cases c <;> rfl), hostOp_op,
    ← c.storeBytes_off_add s (l := [x]) hj, storeBytes, c.placeOf_off_add hj, storeBytes]

/-- An aligned word written in the window is the abstract write of the old value with those bytes replaced (R61). -/
theorem writeWord_eq_hostOp (c : WideReg) (s : State) {j : Nat} (hj : j < 32) (h4 : j % 4 = 0) (w : Word) :
    busAccess (.writeWord (Config.base + c.off + j) w) s =
      .next (hostOp (c.op (setBytes (c.get s) j (be 4 w.toNat))) s) := by
  have hm := c.off_mod
  rw [Nat.add_assoc, writeWord_place _ w s _ (c.off_add_lt hj) (by omega) (c.placeOf_off_add hj), hostOp_op,
    ← c.storeBytes_off_add s (l := be 4 w.toNat) (by rw [be_length]; omega)]
  cases c <;> rfl

theorem get_respond (c : WideReg) (s : State) (a : Response) : c.get (s.respond a) = c.get s := by cases c <;> rfl

theorem set_respond (c : WideReg) (s : State) (v : Big) (a : Response) :
    c.set (s.respond a) v = (c.set s v).respond a := by cases c <;> rfl

theorem busy_set (c : WideReg) (s : State) (v : Big) : (c.set s v).busy = s.busy := by cases c <;> rfl

theorem get_set (c : WideReg) (s : State) (v : Big) : c.get (c.set s v) = v := by
  cases c <;> simp [get, set, storeX, storeY]

theorem set_set (c : WideReg) (s : State) (v w : Big) : c.set (c.set s v) w = c.set s w := by
  cases c <;> simp [set, storeX, storeY, State.setReg, State.setPreg, State.preg]

theorem set_get (c : WideReg) (s : State) : c.set s (c.get s) = s := by
  cases c with
  | reg k =>
    show { s with r := s.r.set k s.r[k] } = s
    simp
  | pointX k =>
    show { s with p := s.p.set k s.p[k] } = s
    simp
  | pointY k =>
    show { s with p := s.p.set k s.p[k] } = s
    simp

end WideReg

theorem busAll_append (l l' : List BusAccess) (s : State) : busAll (l ++ l') s = thenDo (busAll l s) (busAll l') := by
  induction l generalizing s with
  | nil => rfl
  | cons a l ih =>
    rw [List.cons_append, busAll_cons, busAll_cons]
    cases busAccess a s with
    | next t => exact ih t
    | fault e => rfl
    | refused e => rfl

section
variable (c : WideReg) {s : State} (v : Big) {n m : Nat} {a : Nat → BusAccess} {chunk : Nat → Bytes}

/-- The first `k` accesses, each of which stores its `n` bytes of `be_32(v)`, leave those bytes in the register. -/
theorem busAll_first_chunks (hb : s.busy = false) (hl : ∀ i, (chunk i).length = n)
    (ha : ∀ i, i < m → ∀ u, busAccess (a i) u = .next (hostOp (c.op (setBytes (c.get u) (n * i) (chunk i))) u))
    (hc : ∀ i, i < m → ∀ t, t < n → (chunk i).getD t 0 = (be 32 v.toNat).getD (n * i + t) 0)
    (hnm : n * m = 32) (k : Nat) (hk : k ≤ m) :
    ∃ w x, busAll ((List.range k).map a) s = .next ((c.set s w).respond x) ∧ (0 < k → x = .ack) ∧
      ∀ i, i < 32 → i < n * k → (be 32 w.toNat).getD i 0 = (be 32 v.toNat).getD i 0 := by
  induction k with
  | zero => exact ⟨c.get s, s.resp, by rw [c.set_get]; rfl, by simp, by simp⟩
  | succ k ih =>
    obtain ⟨w, x, hrun, -, hw⟩ := ih (by omega)
    have hle : n * k + n ≤ 32 := by
      rw [← hnm, ← Nat.mul_succ]
      exact Nat.mul_le_mul_left n hk
    have hidle : ((c.set s w).respond x).busy = false := (c.busy_set s w).trans hb
    refine ⟨setBytes w (n * k) (chunk k), .ack, ?_, fun _ => rfl, fun i hi hik => ?_⟩
    · rw [List.range_succ, List.map_append, busAll_append, hrun, thenDo_next]
      show thenDo (busAccess (a k) _) (busAll []) = _
      rw [ha k (by omega), c.hostOp_op, writeUnlessBusy_of_idle _ _ hidle, c.get_respond, c.get_set, c.set_respond,
        c.set_set]
      rfl
    · rw [setBytes_getD w (n * k) (chunk k) (by rw [hl]; omega) i hi, hl]
      split
      · rw [hc k (by omega) _ (by omega), show n * k + (i - n * k) = i by omega]
      · exact hw i hi (by rw [Nat.mul_succ] at hik; omega)

/-- A register written in the window piece by piece is the abstract write (R61, R73). -/
theorem busAll_chunks (hb : s.busy = false) (hl : ∀ i, (chunk i).length = n)
    (ha : ∀ i, i < m → ∀ u, busAccess (a i) u = .next (hostOp (c.op (setBytes (c.get u) (n * i) (chunk i))) u))
    (hc : ∀ i, i < m → ∀ t, t < n → (chunk i).getD t 0 = (be 32 v.toNat).getD (n * i + t) 0)
    (hnm : n * m = 32) : busAll ((List.range m).map a) s = .next (hostOp (c.op v) s) := by
  obtain ⟨w, x, hrun, hx, hw⟩ := busAll_first_chunks c v hb hl ha hc hnm m le_rfl
  have hwv : w = v := big_ext_bytes w v fun j hj => by
    rw [getByte_eq_be _ _ hj, getByte_eq_be _ _ hj, hw j hj (by omega)]
  have hm : 0 < m := Nat.pos_of_ne_zero fun h => by simp [h] at hnm
  rw [hrun, hx hm, hwv, c.hostOp_op, writeUnlessBusy_of_idle _ _ hb]

/-- The word of four bytes is those bytes (R61). -/
theorem be_wordOfBytes (b : Bytes) (hb : b.length = 4) : be 4 (BitVec.ofNat 32 (int b)).toNat = b := by
  have hlt := int_lt b
  rw [hb] at hlt
  rw [BitVec.toNat_ofNat, Nat.mod_eq_of_lt (show int b < 2 ^ 32 from hlt), ← hb, be_int]

/-- The eight words of `be_32(v)` (R61). -/
theorem busAll_words (hb : s.busy = false) :
    busAll ((List.range 8).map fun i => .writeWord (Config.base + c.off + 4 * i)
      (BitVec.ofNat 32 (int (((be 32 v.toNat).drop (4 * i)).take 4)))) s = .next (hostOp (c.op v) s) := by
  refine busAll_chunks c v (n := 4) (m := 8) hb (fun i => be_length 4 _)
    (fun i hi u => c.writeWord_eq_hostOp u (by omega) (by omega) _) (fun i hi t ht => ?_) rfl
  rw [be_wordOfBytes _ (by simp; omega), List.getD_eq_getElem?_getD, List.getElem?_take_of_lt ht, List.getElem?_drop,
    ← List.getD_eq_getElem?_getD]

/-- The 32 bytes of `be_32(v)` (R61). -/
theorem busAll_bytes (hb : s.busy = false) :
    busAll ((List.range 32).map fun i => .writeByte (Config.base + c.off + i) ((be 32 v.toNat).getD i 0)) s =
      .next (hostOp (c.op v) s) := by
  refine busAll_chunks c v (n := 1) (m := 32) (chunk := fun i => [(be 32 v.toNat).getD i 0]) hb (fun i => rfl)
    (fun i hi u => ?_) (fun i hi t ht => ?_) rfl
  · rw [Nat.one_mul]
    exact c.writeByte_eq_hostOp u hi _
  · obtain rfl : t = 0 := by omega
    rw [Nat.one_mul]
    rfl

end

/-- The abstract write of a point register's coordinate, out of the BUSY interval (R24, R70). -/
theorem writePreg_of_idle {s : State} (hb : s.busy = false) (k : PReg) (q : PointReg) (o : HostOp)
    (ho : hostOp o s = writeUnlessBusy s (s.setPreg k q)) :
    (∃ a, hostOp o s = (s.setPreg k q).respond a) ∧ (hostOp o s).preg k = q ∧
      (∀ j, j ≠ k → (hostOp o s).preg j = s.preg j) ∧
      hostOp o s = { s with p := (hostOp o s).p, resp := (hostOp o s).resp } := by
  rw [ho, writeUnlessBusy_of_idle _ _ hb]
  exact ⟨⟨.ack, rfl⟩, (State.preg_setPreg s k k q).trans (if_pos rfl),
    fun j hj => (State.preg_setPreg s k j q).trans (if_neg hj.symm), rfl⟩

/-- The abstract write of a big-number register, out of the BUSY interval (R21, R70). -/
theorem writeReg_of_idle {s : State} (hb : s.busy = false) (k : Reg) (v : Big) :
    hostOp (.writeReg k v) s = (s.setReg k v).respond .ack := writeUnlessBusy_of_idle s _ hb

/-- The places of the buffers the host writes (R72), a word partly beyond the capacity among them. -/
theorem placeOf_buffer {b : Buf} {off : Nat} (hoff : b = .ibuf ∧ off = 1 * Config.bstride ∨
    b = .abuf ∧ off = 3 * Config.bstride ∨ b = .sigbuf ∧ off = 0x040) :
    b ≠ .obuf ∧ off % 4 = 0 ∧ (∀ j, j < capacity b → placeOf (off + j) = .buf b j ∧ off + j < Config.windowSize) ∧
      ∀ j i, j < capacity b → j % 4 = 0 → i < 4 → capacity b ≤ j + i → placeOf (off + (j + i)) = .reserved := by
  have hle := bufBytes_le_bstride
  have hd := four_dvd_bstride
  rcases hoff with ⟨rfl, rfl⟩ | ⟨rfl, rfl⟩ | ⟨rfl, rfl⟩
  · refine ⟨by decide, by omega, fun j hj => ⟨placeOf_ibuf j hj, stride_lt_windowSize 1 j (by decide) hj⟩,
      fun j i hj h4 hi hc => placeOf_reserved _ (.inr (.inr (.inr (.inr ⟨1, by decide, by decide, ?_, ?_⟩))))⟩ <;>
      rw [capacity_ibuf] at * <;> omega
  · refine ⟨by decide, by omega, fun j hj => ⟨placeOf_abuf j hj, stride_lt_windowSize 3 j (by decide) hj⟩,
      fun j i hj h4 hi hc => placeOf_reserved _ (.inr (.inr (.inr (.inr ⟨3, by decide, by decide, ?_, ?_⟩))))⟩ <;>
      rw [capacity_abuf] at * <;> omega
  · refine ⟨by decide, by decide, fun j hj => ⟨placeOf_sigbuf j hj, ?_⟩, fun j i hj h4 hi hc => ?_⟩
    · rw [capacity_sigbuf] at hj
      exact lt_windowSize _ (by omega)
    · rw [capacity_sigbuf] at hj hc
      omega

/-- A place the host's writes are ignored at (R42, R74). -/
def IsIgnored (A : Nat) : Prop := IsReserved A ∨ (2 * Config.bstride ≤ A ∧ A < 2 * Config.bstride + Config.bufBytes)

theorem IsIgnored.placeOf {A : Nat} (h : IsIgnored A) :
    A < Config.windowSize ∧ (placeOf A = .reserved ∨ ∃ j, placeOf A = .buf .obuf j) := by
  rcases h with h | ⟨h1, h2⟩
  · exact ⟨lt_windowSize_of_reserved A h, .inl (placeOf_reserved A h)⟩
  · obtain ⟨j, rfl⟩ := Nat.exists_eq_add_of_le h1
    have hj : j < Config.bufBytes := by omega
    exact ⟨stride_lt_windowSize 2 j (by decide) hj, .inr ⟨j, placeOf_obuf j hj⟩⟩

/-- The four bytes of an aligned word are ignored together, also where OBUF ends within it (log entry 14). -/
theorem IsIgnored.word {A : Nat} (h : IsIgnored A) (h4 : A % 4 = 0) {i : Nat} (hi : i < 4) : IsIgnored (A + i) := by
  have hle := bufBytes_le_bstride
  have hd := four_dvd_bstride
  rcases h with h | ⟨h1, h2⟩
  · exact .inl (h.word h4 i hi)
  · by_cases hc : A + i < 2 * Config.bstride + Config.bufBytes
    · exact .inr ⟨by omega, hc⟩
    · exact .inl (.inr (.inr (.inr (.inr ⟨2, by decide, by decide, by omega, by omega⟩))))

theorem writeUnlessBusy_self (s : State) : writeUnlessBusy s s = s.respond .ack := by simp [writeUnlessBusy]

theorem writeByte_ignored {A : Nat} (h : IsIgnored A) (x : Byte) (s : State) :
    busAccess (.writeByte (Config.base + A) x) s = .next (s.respond .ack) := by
  obtain ⟨hw, hp | ⟨j, hp⟩⟩ := h.placeOf
  · rw [writeByte_place A x s _ hw hp rfl]
    exact congrArg _ (writeUnlessBusy_self s)
  · rw [writeByte_place A x s _ hw hp rfl]
    exact congrArg _ (writeUnlessBusy_self s)

theorem writeWord_ignored {A : Nat} (h : IsIgnored A) (h4 : A % 4 = 0) (w : Word) (s : State) :
    busAccess (.writeWord (Config.base + A) w) s = .next (s.respond .ack) := by
  have hs : storeBytes s A (be 4 w.toNat) = s := storeBytes_ignored s A _ fun i hi =>
    (h.word h4 (by simpa using hi)).placeOf.2
  have hres : writeUnlessBusy s (storeBytes s A (be 4 w.toNat)) = s.respond .ack := by
    rw [hs, writeUnlessBusy_self]
  obtain ⟨hw, hp | ⟨j, hp⟩⟩ := h.placeOf
  · exact (writeWord_place A w s _ hw h4 hp).trans (congrArg _ hres)
  · exact (writeWord_place A w s _ hw h4 hp).trans (congrArg _ hres)

/-- A byte written in a buffer of the host's (R39), and read back. -/
theorem writeByte_buffer {s : State} (hs : s.Inv) (hb : s.busy = false) {b : Buf} (ho : b ≠ .obuf) {A j : Nat}
    (hA : A < Config.windowSize) (hp : placeOf A = .buf b j) (hj : j < capacity b) (x : Byte) :
    ∃ m a, (∀ i, m.read i = if i = j then x else (s.mem b).read i) ∧
      busAccess (.writeByte (Config.base + A) x) s = .next ((s.setMem b m).respond a) ∧
      hostOp (.writeBuf b j x) s = (s.setMem b m).respond a ∧
      ((b = .sigbuf → j < s.siglen.toNat) →
        busAll [.writeByte (Config.base + A) x, .readByte (Config.base + A)] s =
          .next ((s.setMem b m).respond (.byte x))) := by
  have hop : hostOp (.writeBuf b j x) s = (s.setMem b ((s.mem b).write j x)).respond .ack := by
    rw [← storeByte_of_lt s b ho j x hj]
    exact writeUnlessBusy_of_idle s _ hb
  have hbus : busAccess (.writeByte (Config.base + A) x) s = .next (hostOp (.writeBuf b j x) s) :=
    writeByte_place A x s _ hA hp rfl
  have hread (i : Nat) : ((s.mem b).write j x).read i = if i = j then x else (s.mem b).read i := by
    rw [Memory.read_write _ (hs.memWf b), eq_comm]
    simp only [eq_comm]
  refine ⟨(s.mem b).write j x, .ack, hread, by rw [hbus, hop], hop, fun hl => ?_⟩
  have hload : loadByte ((s.setMem b ((s.mem b).write j x)).respond .ack) b j = x := by
    rw [loadByte_of_lt _ b j hj, State.mem_respond, State.mem_setMem, if_pos rfl, hread, if_pos rfl]
    rintro (rfl | rfl)
    · exact absurd rfl ho
    · exact hl rfl
  rw [busAll_cons, hbus, hop, thenDo_next, busAll_cons, readByte_place A _ _ hA hp rfl]
  show Host.Outcome.next (State.respond _ (.byte (loadByte _ b j))) = _
  rw [hload]
  rfl

/-- An aligned word written in a buffer of the host's (R39, R61). -/
theorem writeWord_buffer {s : State} (hs : s.Inv) (hb : s.busy = false) {b : Buf} {off j : Nat}
    (hoff : b = .ibuf ∧ off = 1 * Config.bstride ∨ b = .abuf ∧ off = 3 * Config.bstride ∨ b = .sigbuf ∧ off = 0x040)
    (hj : j < capacity b) (h4 : j % 4 = 0) (w : Word) :
    ∃ m a, (∀ i, m.read i = if j ≤ i ∧ i < j + 4 ∧ i < capacity b then (be 4 w.toNat).getD (i - j) 0
        else (s.mem b).read i) ∧
      busAccess (.writeWord (Config.base + (off + j)) w) s = .next ((s.setMem b m).respond a) := by
  obtain ⟨ho, ho4, hin, hout⟩ := placeOf_buffer hoff
  obtain ⟨hp, hw⟩ := hin j hj
  obtain ⟨m, -, hm, hread⟩ := storeBytes_buf b ho s hs.memWf (off + j) j (be 4 w.toNat) fun i hi => by
    rw [be_length] at hi
    rw [Nat.add_assoc]
    exact ⟨fun hc => (hin (j + i) hc).1, hout j i hj h4 hi⟩
  rw [be_length] at hread
  refine ⟨m, .ack, hread, (writeWord_place _ w s _ hw (by omega) hp).trans (congrArg _ ?_)⟩
  rw [← hm]
  exact writeUnlessBusy_of_idle s _ hb

/-- Settles O55: the abstract writes; the pieces of a 256-bit register, all and one at a time; buffers; ignored places. -/
theorem registerThroughWindow : Obligations.RegisterThroughWindow := by
  refine ⟨fun s v hb => ⟨fun k => ?_, fun k => ⟨?_, ?_⟩⟩, fun s v hb => ⟨fun k => ?_, fun k => ?_⟩,
    fun s j hb hj => ⟨fun x => ⟨fun k => ?_, fun k => ⟨?_, ?_⟩⟩, fun h4 w => ⟨fun k => ?_, fun k => ⟨?_, ?_⟩⟩⟩,
    fun s b off j hs hb hoff hj => ⟨fun x => ?_, fun h4 w => ?_⟩, fun s A hA => ?_⟩
  · dsimp only
    rw [writeReg_of_idle hb]
    exact ⟨⟨.ack, rfl⟩, (State.reg_setReg s k k v).trans (if_pos rfl),
      fun j hj => (State.reg_setReg s k j v).trans (if_neg hj.symm), rfl⟩
  · exact writePreg_of_idle hb k _ _ rfl
  · exact writePreg_of_idle hb k _ _ rfl
  · exact ⟨busAll_words (.reg k) v hb, busAll_bytes (.reg k) v hb⟩
  · exact ⟨busAll_words (.pointX k) v hb, busAll_bytes (.pointX k) v hb, busAll_words (.pointY k) v hb,
      busAll_bytes (.pointY k) v hb⟩
  · exact ⟨_, setBytes_getD _ j [x] hj, (WideReg.reg k).writeByte_eq_hostOp s hj x⟩
  · exact ⟨_, setBytes_getD _ j [x] hj, (WideReg.pointX k).writeByte_eq_hostOp s hj x⟩
  · exact ⟨_, setBytes_getD _ j [x] hj, (WideReg.pointY k).writeByte_eq_hostOp s hj x⟩
  · exact ⟨_, setBytes_getD _ j (be 4 w.toNat) (by rw [be_length]; omega), (WideReg.reg k).writeWord_eq_hostOp s hj h4 w⟩
  · exact ⟨_, setBytes_getD _ j (be 4 w.toNat) (by rw [be_length]; omega),
      (WideReg.pointX k).writeWord_eq_hostOp s hj h4 w⟩
  · exact ⟨_, setBytes_getD _ j (be 4 w.toNat) (by rw [be_length]; omega),
      (WideReg.pointY k).writeWord_eq_hostOp s hj h4 w⟩
  · obtain ⟨ho, -, hin, -⟩ := placeOf_buffer hoff
    obtain ⟨hp, hw⟩ := hin j hj
    rw [Nat.add_assoc]
    exact writeByte_buffer hs hb ho hw hp hj x
  · rw [Nat.add_assoc]
    exact writeWord_buffer hs hb hoff hj h4 w
  · exact ⟨.ack, fun x => writeByte_ignored hA x s, fun h4 w => writeWord_ignored hA h4 w s⟩

end Sys2Proof.Machine

/-! Where the window takes words only, what it refuses (R63), and the bytes of a word read (R62). -/
namespace Sys2Proof.Machine

/-- The whole control block takes words only (R63, R72). -/
theorem wordOnly_placeControl (off : Nat) : (placeControl off).wordOnly = true := by
  unfold placeControl
  repeat' split
  all_goals rfl

/-- The block of a point register takes words only at its INF word (R63, R72). -/
theorem wordOnly_placePoint (k : PReg) (j : Nat) :
    (placePoint k j).wordOnly = true ↔ 0x40 ≤ j ∧ j < 0x44 := by
  unfold placePoint
  repeat' split
  all_goals simp only [Place.wordOnly, Bool.false_eq_true, true_iff, false_iff]
  all_goals omega

/-- The large buffers take both widths (R61, R63). -/
theorem wordOnly_placeStride (q j : Nat) : (placeStride q j).wordOnly = false := by
  unfold placeStride
  repeat' split
  all_goals rfl

/-- The offsets that take words only: the control block and the four INF words (R63). -/
def WordOnlyOffset (A : Nat) : Prop := A < 0x40 ∨ ∃ k : PReg, 0x140 + 0x60 * k ≤ A ∧ A < 0x144 + 0x60 * k

/-- In the point block the word-only offsets are those 0x40 to 0x43 within their point register. -/
theorem wordOnlyOffset_point {A : Nat} (h1 : 0x100 ≤ A) (h2 : A < 0x280) :
    WordOnlyOffset A ↔ 0x40 ≤ (A - 0x100) % 0x60 ∧ (A - 0x100) % 0x60 < 0x44 := by
  constructor
  · rintro (h | ⟨k, hk1, hk2⟩) <;> omega
  · intro h
    exact .inr ⟨⟨(A - 0x100) / 0x60, by omega⟩, by simp only; omega, by simp only; omega⟩

/-- Outside the control block and the point block, a place that takes both widths is at no word-only offset. -/
theorem wordOnly_iff_outside {A : Nat} {p : Place} (hp : p.wordOnly = false) (h1 : 0x40 ≤ A)
    (h2 : A < 0x100 ∨ 0x280 ≤ A) : p.wordOnly = true ↔ WordOnlyOffset A := by
  refine iff_of_false (by simp [hp]) ?_
  rintro (h | ⟨k, hk1, hk2⟩)
  · omega
  · have := k.isLt
    omega

/-- A place takes words only at exactly the word-only offsets: the regions of R72, one by one. -/
theorem wordOnly_placeOf (A : Nat) : (placeOf A).wordOnly = true ↔ WordOnlyOffset A := by
  unfold placeOf
  repeat' split
  · exact iff_of_true (wordOnly_placeControl A) (.inl ‹_›)
  · exact wordOnly_iff_outside rfl (by omega) (by omega)
  · exact wordOnly_iff_outside rfl (by omega) (by omega)
  · exact (wordOnly_placePoint _ _).trans (wordOnlyOffset_point (by omega) (by omega)).symm
  · exact wordOnly_iff_outside rfl (by omega) (by omega)
  · exact wordOnly_iff_outside rfl (by omega) (by omega)
  · exact wordOnly_iff_outside rfl (by omega) (by omega)
  · exact wordOnly_iff_outside (wordOnly_placeStride _ _) (by omega) (by omega)

/-- An aligned word of the window takes words only at all four bytes or at none. -/
theorem wordOnly_placeOf_add {A j : Nat} (h4 : A % 4 = 0) (hj : j < 4) (h : (placeOf A).wordOnly = false) :
    (placeOf (A + j)).wordOnly = false := by
  rw [← Bool.not_eq_true, wordOnly_placeOf] at h ⊢
  rintro (hc | ⟨k, hk1, hk2⟩)
  · exact h (.inl (by omega))
  · exact h (.inr ⟨k, by omega, by omega⟩)

/-- An aligned word that begins in the window lies in it whole. -/
theorem add_lt_windowSize {A j : Nat} (h4 : A % 4 = 0) (hj : j < 4) (h : A < Config.windowSize) :
    A + j < Config.windowSize := by
  unfold Config.windowSize at h ⊢
  omega

/-- A word read at a place that takes both widths. -/
theorem readWordPlace_of_both (off : Nat) (s : State) {p : Place} (h : p.wordOnly = false) :
    readWordPlace off s p = s.respond (.word (loadWord s off)) := by
  cases p
  case buf | pointX | pointY | reg | reserved => rfl
  all_goals cases h

/-- Byte `j` of a word, the most significant first, is its bits `31-8j` down to `24-8j` (R62). -/
theorem extractLsb'_eq_be (w : Word) {j : Nat} (hj : j < 4) :
    w.extractLsb' (24 - 8 * j) 8 = (be 4 w.toNat).getD j 0 := by
  rw [be_getD 4 w.toNat j hj, show (256 : Nat) = 2 ^ 8 from rfl, ← Nat.pow_mul,
    show 8 * (4 - 1 - j) = 24 - 8 * j by omega]
  apply BitVec.eq_of_toNat_eq
  rw [BitVec.extractLsb'_toNat, BitVec.toNat_ofNat, Nat.shiftRight_eq_div_pow]

/-- The bytes of a word read are those of its four places (R61). -/
theorem be_loadWord (s : State) (off : Nat) :
    be 4 (loadWord s off).toNat = (List.range 4).map fun i => loadPlace s (placeOf (off + i)) :=
  be_wordOfBytes _ (by simp)

/-- Bits `31-8j` down to `24-8j` of a word read are the byte of its place `j` (R62). -/
theorem extractLsb'_loadWord (s : State) (off : Nat) {j : Nat} (hj : j < 4) :
    (loadWord s off).extractLsb' (24 - 8 * j) 8 = loadPlace s (placeOf (off + j)) := by
  rw [extractLsb'_eq_be _ hj, be_loadWord]
  simp [hj]

/-- Settles O56: the four places of the word take both widths, and the word read holds their bytes. -/
theorem bytesOfAWord : Obligations.BytesOfAWord := by
  intro s A j h4 hA hw hj
  refine ⟨loadWord s A, (readWord_place A s _ hA h4 rfl).trans (congrArg _ (readWordPlace_of_both A s hw)), ?_⟩
  rw [extractLsb'_loadWord s A hj, Nat.add_assoc]
  exact readByte_place (A + j) s _ (add_lt_windowSize h4 hj hA) rfl (wordOnly_placeOf_add h4 hj hw)

/-- A byte read of a word-only place is refused (R63). -/
theorem readByteAt_of_wordOnly (s : State) {off : Nat} (h : WordOnlyOffset off) : readByteAt off s = refuseRead s :=
  if_pos ((wordOnly_placeOf off).2 h)

/-- A byte write to a word-only place is refused (R63). -/
theorem writeByteAt_of_wordOnly (s : State) {off : Nat} (v : Byte) (h : WordOnlyOffset off) :
    writeByteAt off v s = refuseWrite s := if_pos ((wordOnly_placeOf off).2 h)

/-- A misaligned word read is refused (R63). -/
theorem readWordAt_of_misaligned (s : State) {off : Nat} (h : off % 4 ≠ 0) : readWordAt off s = refuseRead s := if_pos h

/-- A misaligned word write is refused (R63). -/
theorem writeWordAt_of_misaligned (s : State) {off : Nat} (v : Word) (h : off % 4 ≠ 0) :
    writeWordAt off v s = refuseWrite s := if_pos h

/-- Settles O58: each access is in the window, and at its offset it is refused. -/
theorem refusedAccess : Obligations.RefusedAccess := by
  intro s A hA a readRefused writeRefused
  have hread (x : BusAccess) (hx : x.addr = a) (h : accessAt A x s = refuseRead s) : readRefused x :=
    ⟨_, (busAccess_of_addr x A s hx hA).trans (congrArg _ h)⟩
  have hwrite (x : BusAccess) (hx : x.addr = a) (h : accessAt A x s = refuseWrite s) : writeRefused x :=
    (busAccess_of_addr x A s hx hA).trans (congrArg _ h)
  refine ⟨⟨?_, fun v => ?_⟩, fun h => ⟨?_, fun v => ?_⟩, fun h => ⟨?_, fun v => ?_⟩⟩
  · exact hread _ rfl rfl
  · exact hwrite _ rfl rfl
  · exact hread _ rfl (readWordAt_of_misaligned s h)
  · exact hwrite _ rfl (writeWordAt_of_misaligned s v h)
  · exact hread _ rfl (readByteAt_of_wordOnly s h)
  · exact hwrite _ rfl (writeByteAt_of_wordOnly s v h)

end Sys2Proof.Machine

/-! A step, by what the schedule and the word in flight are (R76, R95, R97, R98, R280). -/
namespace Sys2Proof.Machine

/-- With a pass scheduled the core moves on the state with the pass taken. -/
theorem step_of_pass {s : State} {rest : List HostEvent} (h : s.host = .pass :: rest) :
    step s = coreStep { s with host := rest } := by
  unfold step
  rw [h]

/-- A scheduled abstract operation is that operation (R70). -/
theorem step_of_op {s : State} {o : HostOp} {rest : List HostEvent} (h : s.host = .op o :: rest) :
    step s = .next (hostOp o { s with host := rest }) := by
  unfold step
  rw [h]

/-- A scheduled bus access is that access (R72). -/
theorem step_of_bus {s : State} {a : BusAccess} {rest : List HostEvent} (h : s.host = .bus a :: rest) :
    step s = busAccess a { s with host := rest } := by
  unfold step
  rw [h]

/-- With no word in flight the core is idle (R280). -/
theorem coreStep_of_idle {s : State} (h : s.inflight = none) : coreStep s = .next s := by
  unfold coreStep
  rw [h]

/-- A word in flight that decodes is executed (R95, R97). -/
theorem coreStep_of_ok {s : State} {w : Word} {i : Instr} (hw : s.inflight = some w) (hd : decode w = .ok i) :
    coreStep s = exec i s := by
  unfold coreStep
  rw [hw]
  simp only [hd]

/-- A word in flight that does not decode ends with IllegalCommandError (R98). -/
theorem coreStep_of_error {s : State} {w : Word} {why : Illegal} (hw : s.inflight = some w)
    (hd : decode w = .error why) : coreStep s = .next (s.complete false 0 (some .illegalCommand)) := by
  unfold coreStep
  rw [hw]
  simp only [hd, raise_eq]

/-- The word the host issues is the word in flight. -/
theorem State.withFetchWord_inflight (s : State) (w : Word) : (s.withFetchWord 32 w.toNat).inflight = some w := by
  unfold State.withFetchWord
  rw [wordOfBytes_wordBytes, Nat.mod_eq_of_lt w.isLt, BitVec.ofNat_toNat, BitVec.setWidth_eq]

/-- Settles O6, by the head of the schedule and the word in flight. -/
theorem stepRunsDecoded : Obligations.StepRunsDecoded := by
  refine ⟨fun s w i hd => ⟨fun hw hh => ?_, fun rest hw hh => ?_, ?_⟩,
    fun s w why hd hw => ⟨fun hh => ?_, fun rest hh => ?_⟩, fun s hw => ⟨fun hh => ?_, fun rest hh => ?_⟩,
    fun s rest => ⟨fun o hh => step_of_op hh, fun a hh => step_of_bus hh⟩⟩
  · exact (step_eq_coreStep s hh).trans (coreStep_of_ok hw hd)
  · exact (step_of_pass hh).trans (coreStep_of_ok hw hd)
  · exact (step_eq_coreStep _ rfl).trans (coreStep_of_ok (s.withFetchWord_inflight w) hd)
  · exact (step_eq_coreStep s hh).trans (coreStep_of_error hw hd)
  · exact (step_of_pass hh).trans (coreStep_of_error hw hd)
  · exact (step_eq_coreStep s hh).trans (coreStep_of_idle hw)
  · exact (step_of_pass hh).trans (coreStep_of_idle hw)

end Sys2Proof.Machine

/-! The words of the commands (R90 to R94, R97 to R99): a word decodes exactly when it is the word of a
well-formed command. -/
namespace Sys2Proof
open Sys2Proof.Machine Sys2Proof.Laws.Opcode

/-- The opcode field of a command's word is the command's opcode (R90, R94). -/
theorem opcodeField_encode (i : Instr) : opcodeField (encode i) = number i :=
  match i with
  | .modadd rd ra rb m => modadd rd ra rb m
  | .modsub rd ra rb m => modsub rd ra rb m
  | .modmul rd ra rb m => modmul rd ra rb m
  | .modinv rd ra m => modinv rd ra m
  | .montmul rd ra rb m => montmul rd ra rb m
  | .ldc rd c => ldc rd c
  | .padd pd pa pb => padd pd pa pb
  | .pdbl pd pa => pdbl pd pa
  | .pmul pd pa rk => pmul pd pa rk
  | .pchk pa => pchk pa
  | .pldg pd => pldg pd
  | .penc pa => penc pa
  | .pdec pd => pdec pd
  | .kdfgen l => kdfgen l
  | .derenc ra rb => derenc ra rb
  | .derdec rd re => derdec rd re
  | .sm3init | .sm3blk | .sm3hash | .kdfxor | .sm2key | .sm2z | .sm2sign | .sm2vfy | .sm2enc | .sm2dec => rfl

theorem zeroField_iff (hi lo : Nat) (w : Word) : zeroField hi lo w = true ↔ wordField hi lo w = 0 := by
  simp [zeroField]

theorem isPoint_iff (lo : Nat) (w : Word) : isPoint lo w = true ↔ wordField (lo + 3) lo w < 4 := by
  simp [isPoint]

/-- A big-number register field is four bits of the word (R91). -/
theorem regField_val (lo : Nat) (w : Word) : (regField lo w : Nat) = wordField (lo + 3) lo w :=
  Nat.mod_eq_of_lt ((Nat.mod_lt _ (by positivity)).trans_eq (by simp))

/-- A point register field is two bits of the word (R99). -/
theorem pregField_val (lo : Nat) (w : Word) : (pregField lo w : Nat) = wordField (lo + 1) lo w :=
  Nat.mod_eq_of_lt ((Nat.mod_lt _ (by positivity)).trans_eq (by simp))

/-- The modulus select is bit 0 (R122). -/
theorem modBit_modField (w : Word) : modBit (modField w) = wordField 0 0 w := by
  have h : wordField 0 0 w < 2 := Nat.mod_lt _ (by decide)
  unfold modField
  split
  · exact .symm ‹_›
  · show 1 = _
    omega

theorem modBit_injective : Function.Injective modBit := by
  intro m m' h
  cases m <;> cases m' <;> trivial

theorem modField_eq_iff (w : Word) (m : Modulus) : modField w = m ↔ wordField 0 0 w = modBit m := by
  rw [← modBit_modField, modBit_injective.eq_iff]

/-- LDC decodes when its zero fields are zero and its index is the number of a constant (R94, R129). -/
theorem decodeLdc_ok (w : Word) (i : Instr) : decodeLdc w = .ok i ↔
    (wordField 19 12 w = 0 ∧ wordField 7 0 w = 0) ∧
      ∃ c, wordField 11 8 w = constIndex c ∧ .ldc (regField 20 w) c = i := by
  rw [decodeLdc, need_ok, Bool.and_eq_true, zeroField_iff, zeroField_iff]
  refine and_congr_right fun _ => ?_
  cases h : constOf (wordField 11 8 w) with
  | none =>
    simp only [reduceCtorEq, false_iff, not_exists, not_and]
    rintro c hc
    rw [hc, constOf_constIndex] at h
    cases h
  | some c =>
    have hc := constIndex_of_constOf _ c h
    constructor
    · intro hi
      cases hi
      exact ⟨c, hc.symm, rfl⟩
    · rintro ⟨c', hc', rfl⟩
      rw [hc', constOf_constIndex] at h
      cases h
      rfl

/-- The numbers of the constants are 0 to 5 (R129). -/
theorem exists_constIndex (n : Nat) : (∃ c, n = constIndex c) ↔ n ≤ 5 := by
  constructor
  · rintro ⟨c, rfl⟩
    exact Nat.le_of_lt_succ (constIndex_lt c)
  · intro h
    interval_cases n
    exacts [⟨.P, rfl⟩, ⟨.A, rfl⟩, ⟨.B, rfl⟩, ⟨.N, rfl⟩, ⟨.GX, rfl⟩, ⟨.GY, rfl⟩]

/-- LDC decodes when its zero fields are zero and its index is at most 5 (R94, R98). -/
theorem decodeLdc_isOk (w : Word) : (∃ i, decodeLdc w = .ok i) ↔
    (wordField 19 12 w = 0 ∧ wordField 7 0 w = 0) ∧ wordField 11 8 w ≤ 5 := by
  simp only [decodeLdc_ok, exists_and_left, ← exists_constIndex]
  refine and_congr_right fun _ => ?_
  rw [exists_comm]
  simp

/-- LDC is refused when a zero field is not zero or its index is above 5 (R98 (b), (d)). -/
theorem decodeLdc_error (w : Word) : (∃ why, decodeLdc w = .error why) ↔
    (wordField 19 12 w ≠ 0 ∨ wordField 7 0 w ≠ 0) ∨ 5 < wordField 11 8 w := by
  have h : (∃ why, decodeLdc w = .error why) ↔ ¬∃ i, decodeLdc w = .ok i := by
    cases decodeLdc w <;> simp
  rw [h, decodeLdc_isOk, not_and_or, not_and_or, not_le]

/-- A command's own word passes the checks of its format, and its fields are the operands (R91 to R94, R99). -/
theorem decode_encode (i : Instr) (hi : i.wellFormed = true) : decode (encode i) = .ok i := by
  cases i
  case sm3init | sm3blk | sm3hash | kdfxor | sm2key | sm2z | sm2sign | sm2vfy | sm2enc | sm2dec => rfl
  case ldc rd c =>
    have hc := constIndex_lt c
    rw [decode, opcodeField_encode]
    simp only [number]
    rw [decodeLdc_ok]
    refine ⟨?_, c, ?_, congrArg (Instr.ldc · c) (Fin.ext ?_)⟩
    all_goals
      simp only [regField_val, wordField_def, encode, wordR, BitVec.toNat_ofNat]
      omega
  case modadd | modsub | modmul | modinv | montmul =>
    rename_i m
    have hm := modBit_lt m
    rw [decode, opcodeField_encode]
    simp only [number, formRm3, need_ok, zeroField_iff, Except.ok.injEq, Instr.modadd.injEq, Instr.modsub.injEq,
      Instr.modmul.injEq, Instr.modinv.injEq, Instr.montmul.injEq, Fin.ext_iff, regField_val, modField_eq_iff,
      wordField_def, encode, wordR, BitVec.toNat_ofNat]
    omega
  case derdec rd re =>
    have hd : regField 20 (encode (.derdec rd re)) = rd := by
      simp only [Fin.ext_iff, regField_val, wordField_def, encode, wordR, BitVec.toNat_ofNat]
      omega
    have he : regField 16 (encode (.derdec rd re)) = re := by
      simp only [Fin.ext_iff, regField_val, wordField_def, encode, wordR, BitVec.toNat_ofNat]
      omega
    have hz : wordField 15 0 (encode (.derdec rd re)) = 0 := by
      simp only [wordField_def, encode, wordR, BitVec.toNat_ofNat]
      omega
    rw [decode, opcodeField_encode]
    simp only [number, need_ok, zeroField_iff, hd, he, hz]
    exact ⟨trivial, hi, trivial⟩
  case kdfgen l =>
    have hl := l.isLt
    rw [decode, opcodeField_encode]
    simp only [number, need_ok, zeroField_iff, Except.ok.injEq, Instr.kdfgen.injEq, ← BitVec.toNat_inj,
      wordField_def, encode, wordI, BitVec.toNat_ofNat]
    omega
  all_goals
    rw [decode, opcodeField_encode]
    simp only [number, need_ok, Bool.and_eq_true, zeroField_iff, isPoint_iff, Except.ok.injEq, Instr.padd.injEq,
      Instr.pdbl.injEq, Instr.pmul.injEq, Instr.pchk.injEq, Instr.pldg.injEq, Instr.penc.injEq, Instr.pdec.injEq,
      Instr.derenc.injEq, Fin.ext_iff, regField_val, pregField_val, wordField_def, encode, wordR, BitVec.toNat_ofNat]
    omega

/-- Settles O1, format by format. -/
theorem decodeOfEncode : Obligations.DecodeOfEncode := decode_encode

theorem wordR_eq_of_toNat {op f1 f2 f3 f4 m : Nat} {w : Word}
    (h : op * 2 ^ 24 + f1 * 2 ^ 20 + f2 * 2 ^ 16 + f3 * 2 ^ 12 + f4 * 2 ^ 8 + m = w.toNat) :
    wordR op f1 f2 f3 f4 m = w := by
  rw [wordR, h, BitVec.ofNat_toNat, BitVec.setWidth_eq]

/-- The word of a format Z command, from its opcode. -/
theorem wordZ_of_fields {w : Word} {op : Nat} (hop : opcodeField w = op) (hz : wordField 23 0 w = 0) : wordZ op = w := by
  have hw := w.isLt
  apply BitVec.eq_of_toNat_eq
  simp only [wordZ, BitVec.toNat_ofNat, opcodeField, wordField_def] at *
  omega

/-- What a word decodes to is well-formed and has that word: the checks leave no bit of the word free (R97, R98). -/
theorem encode_of_decode {w : Word} {i : Instr} (h : decode w = .ok i) : i.wellFormed = true ∧ encode i = w := by
  have hw := w.isLt
  unfold decode at h
  split at h
  case h_27 => cases h
  all_goals rename_i hop
  case h_6 => -- LDC
    obtain ⟨hz, c, hc, rfl⟩ := (decodeLdc_ok w i).1 h
    refine ⟨rfl, wordR_eq_of_toNat ?_⟩
    rw [← hc]
    simp only [opcodeField, regField_val, wordField_def] at *
    omega
  all_goals
    simp only [formRm3, formZ, need_ok, Bool.and_eq_true, zeroField_iff, isPoint_iff, decide_eq_true_eq, Except.ok.injEq,
      ← and_assoc] at h
    obtain ⟨hz, rfl⟩ := h
  case h_14 | h_15 | h_16 | h_18 | h_21 | h_22 | h_23 | h_24 | h_25 | h_26 =>
    exact ⟨rfl, wordZ_of_fields hop hz⟩
  case h_17 => -- KDFGEN
    refine ⟨rfl, BitVec.eq_of_toNat_eq ?_⟩
    simp only [encode, wordI, BitVec.toNat_ofNat, opcodeField, wordField_def] at *
    omega
  case h_20 => -- DERDEC
    refine ⟨decide_eq_true hz.2, wordR_eq_of_toNat ?_⟩
    simp only [opcodeField, regField_val, wordField_def] at *
    omega
  all_goals
    refine ⟨rfl, wordR_eq_of_toNat ?_⟩
    simp only [opcodeField, regField_val, pregField_val, modBit_modField, wordField_def] at *
    omega

/-- Settles O2, by the decoder's own cases. -/
theorem encodeOfDecode : Obligations.EncodeOfDecode := fun _ _ => encode_of_decode

/-- Settles O5: in each opcode's case the checks of `decode` fail exactly as R98 says; the other clauses of the statement
are about other opcodes. -/
theorem illegalWords : Obligations.IllegalWords := by
  intro w
  unfold decode
  split
  case h_27 => exact iff_of_true ⟨_, rfl⟩ (.inl (by simp_all))
  all_goals
    rename_i hop
    simp only [hop, formRm3, formZ, decodeLdc_error, need_error, Bool.and_eq_false_iff, zeroField_eq_false,
      isPoint_eq_false, decide_eq_false_iff_not, regField_eq, not_not, ok_not_error, or_false]
    simp [or_comm, or_left_comm, or_assoc]

/-- Settles O4: the words and the terms are literals. -/
theorem workedEncodings : Obligations.WorkedEncodings := by
  unfold Obligations.WorkedEncodings
  decide

end Sys2Proof

/-! The opcode map (R94) read digit by digit: its masks cover whole hexadecimal digits but for the top bits of the point
register, constant index and modulus fields. -/
namespace Sys2Proof
open Sys2Proof.Machine Sys2Proof.Laws.Opcode

/-- Hexadecimal digit `k` of a word, digit 0 the least significant. -/
def digit (k : Nat) (w : Word) : Nat := w.toNat / 16 ^ k % 16

theorem digit_eq_extractLsb' (k : Nat) (w : Word) : digit k w = (w.extractLsb' (4 * k) 4).toNat := by
  rw [digit, BitVec.extractLsb'_toNat, Nat.shiftRight_eq_div_pow, pow_mul]
  rfl

/-- A mask picks the match value exactly when it does so in each hexadecimal digit. -/
theorem and_eq_iff_digits (w mask code : Word) :
    w &&& mask = code ↔ ∀ k < 8, digit k w &&& digit k mask = digit k code := by
  simp only [digit_eq_extractLsb', ← BitVec.toNat_and, ← BitVec.extractLsb'_and, BitVec.toNat_inj]
  refine ⟨fun h k _ => congrArg _ h, fun h => BitVec.eq_of_getLsbD_eq fun j hj => ?_⟩
  have hbit := congrArg (BitVec.getLsbD · (j % 4)) (h (j / 4) (by omega))
  simpa only [BitVec.getLsbD_extractLsb', Nat.div_add_mod, Nat.mod_lt j (show 4 > 0 by decide), decide_true,
    Bool.true_and] using hbit

theorem digit_lt (k : Nat) (w : Word) : digit k w < 16 := Nat.mod_lt _ (by decide)

theorem digit_ofNat (k n : Nat) : digit k (BitVec.ofNat 32 n) = n % 2 ^ 32 / 16 ^ k % 16 := by
  rw [digit, BitVec.toNat_ofNat]

theorem digit_and_15 (k : Nat) (w : Word) : digit k w &&& 15 = digit k w :=
  Nat.and_two_pow_sub_one_of_lt_two_pow (n := 4) (digit_lt k w)

/-- The digits the masks of the map have besides F and 0 (R94). -/
theorem digit_and_mask (k : Nat) (w : Word) : (digit k w &&& 14 = 0 ↔ digit k w < 2) ∧
    (digit k w &&& 12 = 0 ↔ digit k w < 4) ∧ (digit k w &&& 8 = 0 ↔ digit k w < 8) := by
  have h := digit_lt k w
  generalize digit k w = d at h
  decide +revert

theorem opcodeField_eq_digits (w : Word) : opcodeField w = 16 * digit 7 w + digit 6 w := by
  simp only [opcodeField, digit, wordField_def]
  omega

/-- The fields the checks of `decode` look at, as digits (R91 to R94). -/
theorem fields_eq_digits (w : Word) :
    (wordField 23 20 w = digit 5 w ∧ wordField 19 16 w = digit 4 w ∧ wordField 15 12 w = digit 3 w ∧
      wordField 11 8 w = digit 2 w) ∧
    (wordField 7 0 w = 0 ↔ digit 0 w = 0 ∧ digit 1 w = 0) ∧
    (wordField 11 0 w = 0 ↔ digit 0 w = 0 ∧ digit 1 w = 0 ∧ digit 2 w = 0) ∧
    (wordField 15 0 w = 0 ↔ digit 0 w = 0 ∧ digit 1 w = 0 ∧ digit 2 w = 0 ∧ digit 3 w = 0) ∧
    (wordField 19 0 w = 0 ↔ digit 0 w = 0 ∧ digit 1 w = 0 ∧ digit 2 w = 0 ∧ digit 3 w = 0 ∧ digit 4 w = 0) ∧
    (wordField 23 0 w = 0 ↔
      digit 0 w = 0 ∧ digit 1 w = 0 ∧ digit 2 w = 0 ∧ digit 3 w = 0 ∧ digit 4 w = 0 ∧ digit 5 w = 0) ∧
    (wordField 11 1 w = 0 ↔ digit 0 w < 2 ∧ digit 1 w = 0 ∧ digit 2 w = 0) ∧
    (wordField 15 1 w = 0 ↔ digit 0 w < 2 ∧ digit 1 w = 0 ∧ digit 2 w = 0 ∧ digit 3 w = 0) ∧
    (wordField 19 12 w = 0 ↔ digit 3 w = 0 ∧ digit 4 w = 0) ∧
    (wordField 23 16 w = 0 ↔ digit 4 w = 0 ∧ digit 5 w = 0) := by
  simp only [wordField_def, digit]
  omega

/-- Every mask of the map covers the whole opcode, and every match value is an opcode and zeros (R94). -/
theorem row_digits : ∀ row ∈ opcodeRows,
    (digit 7 row.mask = 15 ∧ digit 6 row.mask = 15) ∧ ∀ k < 6, digit k row.code = 0 := by decide

/-- A row of the map picks an opcode; its mask below the opcode and its constraint say which operands (R94). -/
theorem selects_iff {row : OpcodeRow} (hrow : row ∈ opcodeRows) (w : Word) : selects row w = true ↔
    opcodeField w = opcodeField row.code ∧ (∀ k < 6, digit k w &&& digit k row.mask = 0) ∧
      rowConstraint row w = true := by
  obtain ⟨⟨h7, h6⟩, hcode⟩ := row_digits row hrow
  have hdig : (∀ k < 8, digit k w &&& digit k row.mask = digit k row.code) ↔
      opcodeField w = opcodeField row.code ∧ ∀ k < 6, digit k w &&& digit k row.mask = 0 := by
    rw [Nat.forall_lt_succ_right, Nat.forall_lt_succ_right, h6, h7, digit_and_15, digit_and_15,
      forall₂_congr fun k hk => by rw [hcode k hk], opcodeField_eq_digits, opcodeField_eq_digits]
    have h6w := digit_lt 6 w
    have h6c := digit_lt 6 row.code
    constructor
    · rintro ⟨⟨h, e6⟩, e7⟩
      exact ⟨by omega, h⟩
    · rintro ⟨e, h⟩
      exact ⟨⟨h, by omega⟩, by omega⟩
  rw [selects, Bool.and_eq_true, beq_iff_eq, and_eq_iff_digits, hdig, and_assoc]

theorem forall_lt_six {p : Nat → Prop} : (∀ k < 6, p k) ↔ p 0 ∧ p 1 ∧ p 2 ∧ p 3 ∧ p 4 ∧ p 5 := by
  refine ⟨fun h => ⟨h 0 ?_, h 1 ?_, h 2 ?_, h 3 ?_, h 4 ?_, h 5 ?_⟩, ?_⟩
  iterate 6 decide
  rintro ⟨h0, h1, h2, h3, h4, h5⟩ k hk
  interval_cases k <;> assumption

theorem opcodeField_eq_div (w : Word) : opcodeField w = w.toNat / 2 ^ 24 := by
  have := w.isLt
  simp only [opcodeField, wordField_def]
  omega

/-- For a word with the opcode of a row, the row's mask and constraint are the checks of `decode` (R94, R98). -/
theorem row_selects_iff_decodes {row : OpcodeRow} (hrow : row ∈ opcodeRows) (w : Word)
    (hop : opcodeField w = opcodeField row.code) :
    ((∀ k < 6, digit k w &&& digit k row.mask = 0) ∧ rowConstraint row w = true) ↔
      ∃ i, decode w = .ok i := by
  rw [opcodeField_eq_div row.code] at hop
  simp only [opcodeRows, opcodeRowsA, opcodeRowsB, List.cons_append, List.nil_append, List.mem_cons, List.not_mem_nil,
    or_false] at hrow
  unfold decode
  rcases hrow with rfl | rfl | rfl | rfl | rfl | rfl | rfl | rfl | rfl | rfl | rfl | rfl | rfl | rfl | rfl | rfl | rfl |
    rfl | rfl | rfl | rfl | rfl | rfl | rfl | rfl | rfl
  all_goals
    simp only [BitVec.toNat_ofNat, Nat.reducePow, Nat.reduceMod, Nat.reduceDiv] at hop
    simp only [hop, formRm3, formZ, decodeLdc_isOk, need_ok, Bool.and_eq_true, zeroField_iff, isPoint_iff,
      decide_eq_true_eq, ne_eq, regField_eq, Except.ok.injEq, exists_and_left, exists_eq', Nat.reduceAdd, rowConstraint,
      BitVec.reduceEq, ↓reduceIte, and_true, fields_eq_digits, forall_lt_six, digit_ofNat, Nat.reducePow, Nat.reduceMod,
      Nat.reduceDiv, digit_and_15, digit_and_mask, Nat.and_zero, true_and]
  all_goals omega

/-- Every command has its row, with its mnemonic and its opcode (R94). -/
theorem exists_row (i : Instr) : ∃ row ∈ opcodeRows, mnemonic i = row.mnemonic ∧ number i = opcodeField row.code := by
  cases i <;> simp only [mnemonic, number] <;> decide

/-- The rows of the map have different match values (R94). -/
theorem row_eq_of_code {row row' : OpcodeRow} (h : row ∈ opcodeRows) (h' : row' ∈ opcodeRows)
    (hc : opcodeField row.code = opcodeField row'.code) : row = row' :=
  List.inj_on_of_nodup_map (f := fun r => opcodeField r.code) (by decide) h h' hc

/-- Settles O3: the row of a decoded command is the one with the opcode of its word; without a command no row passes. -/
theorem decodeIsOpcodeMap : Obligations.DecodeIsOpcodeMap := by
  intro w
  cases hd : decode w with
  | ok i =>
    obtain ⟨-, hw⟩ := encode_of_decode hd
    obtain ⟨row, hrow, hname, hnum⟩ := exists_row i
    have hop : opcodeField w = opcodeField row.code := by rw [← hw, opcodeField_encode, hnum]
    refine .inl ⟨row, hrow, ?_, fun row' hrow' hsel => ?_, i, rfl, hname, hw⟩
    · exact (selects_iff hrow w).2 ⟨hop, (row_selects_iff_decodes hrow w hop).2 ⟨i, hd⟩⟩
    · exact row_eq_of_code hrow' hrow (((selects_iff hrow' w).1 hsel).1.symm.trans hop)
  | error why =>
    refine .inr ⟨fun row hrow => Bool.eq_false_iff.2 fun hsel => ?_, ⟨why, rfl⟩, fun s hh hw => ?_⟩
    · obtain ⟨hop, hchecks⟩ := (selects_iff hrow w).1 hsel
      obtain ⟨i, hi⟩ := (row_selects_iff_decodes hrow w hop).1 hchecks
      rw [hd] at hi
      cases hi
    · exact (step_eq_coreStep s hh).trans (coreStep_of_error hw hd)

end Sys2Proof

/-! The field and point commands (R122 to R127, R143, R145, R146, R150, R151) and the expansions of R101: the written
register holds what the formulas of the rules determine. -/
namespace Sys2Proof.Machine

/-- Settles O22: each result is its function of FieldMath. -/
theorem modularArithmetic : Obligations.ModularArithmetic := fun s rd ra rb m =>
  have hm := modulus_pos m
  ⟨⟨modAdd (modulus m) (s.regNat ra) (s.regNat rb), modAdd_lt _ _ _ hm, Nat.mod_modEq _ _, execModadd_eq rd ra rb m s⟩,
    ⟨modSub (modulus m) (s.regNat ra) (s.regNat rb), modSub_lt _ _ _ hm, modSub_add_modEq _ _ _ hm,
      execModsub_eq rd ra rb m s⟩,
    ⟨modMul (modulus m) (s.regNat ra) (s.regNat rb), modMul_lt _ _ _ hm, Nat.mod_modEq _ _, execModmul_eq rd ra rb m s⟩⟩

/-- A register number after a register write and the end of the command. -/
theorem State.regNat_complete_setRegNat (s : State) (k : Reg) {v : Nat} (h : v < 2 ^ 256) :
    ((s.setRegNat k v).complete false 0 none).regNat k = v := s.regNat_setRegNat k v h

/-- A point whose coordinates fit their fields is what its register reads as (R24). -/
theorem AffinePoint.value_toReg {q : AffinePoint} (h : validPoint q = true ∨ q = .inf) : q.toReg.value = q := by
  rcases h with h | rfl
  · cases q with
    | inf => rfl
    | aff x y =>
      obtain ⟨hx, hy, -⟩ := (validPoint_aff x y).1 h
      have hp : curveP < 2 ^ 256 := modulus_lt .p
      simp only [AffinePoint.toReg, PointReg.value, BitVec.toNat_ofNat, Nat.mod_eq_of_lt (hx.trans hp),
        Nat.mod_eq_of_lt (hy.trans hp), Bool.false_eq_true, if_false]
  · rfl

/-- A point register after a write of a point that fits it. -/
theorem State.point_setPoint (s : State) (k : PReg) {q : AffinePoint} (h : validPoint q = true ∨ q = .inf) :
    (s.setPoint k q).point k = q := by
  rw [State.point, State.preg_setPoint, if_pos rfl, AffinePoint.value_toReg h]

/-- A multiple of `G` is valid or `O` (R152). -/
theorem scalarMul_baseG_valid_or_inf (k : Nat) : validPoint (scalarMul baseG k) = true ∨ scalarMul baseG k = .inf :=
  have := Fact.mk curveP_prime
  (rep_baseG.scalarMul k).valid_or_inf

/-- Reduction leaves a valid point as it is (R140, R142). -/
theorem norm_of_valid {q : AffinePoint} (h : validPoint q = true) : norm q = q := by
  cases q with
  | inf => rfl
  | aff x y =>
    obtain ⟨hx, hy, -⟩ := (validPoint_aff x y).1 h
    rw [norm, Nat.mod_eq_of_lt hx, Nat.mod_eq_of_lt hy]

/-- MODRED (R101): the difference of a register with itself, 0, and the register added to it. -/
theorem execAll_modred (s : State) {rd ra : Reg} (h : rd ≠ ra) (m : Modulus) :
    execAll [.modsub rd ra ra m, .modadd rd ra rd m] s =
      .next ((((s.setRegNat rd 0).complete false 0 none).setRegNat rd (s.regNat ra % modulus m)).complete false 0
        none) := by
  have h0 : modSub (modulus m) (s.regNat ra) (s.regNat ra) = 0 := by simp [modSub, imod]
  have ha : ((s.setRegNat rd 0).complete false 0 none).regNat ra = s.regNat ra := by simp [State.regNat, h]
  simp only [execAll, exec, execModsub_eq, execModadd_eq, thenDo, h0, ha, modAdd,
    State.regNat_complete_setRegNat _ _ (Nat.two_pow_pos 256), Nat.add_zero]

/-- PMULG (R101): the multiple of the base point just loaded. -/
theorem execAll_pmulg (s : State) (pd : PReg) (rk : Reg) :
    execAll (pseudoPmulg pd rk) s = .next ((((s.setPoint pd baseG).complete false 0 none).setPoint pd
      (scalarMul baseG (s.regNat rk))).complete false 0 none) := by
  have hG : ((s.setPoint pd baseG).complete false 0 none).point pd = baseG := s.point_setPoint pd (.inl baseG_valid)
  simp only [pseudoPmulg, execAll, exec, execPldg_eq, execPmul_eq, thenDo, hG, norm_of_valid baseG_valid]
  rfl

/-- Settles O26: the state each expansion ends in. -/
theorem pseudoInstructions : Obligations.PseudoInstructions := by
  refine ⟨fun s rd ra m is his => ?_, fun s pd rk => ?_, fun s rd ra m => ?_⟩
  · unfold pseudoModred at his
    split at his
    · rename_i hne
      cases his
      refine ⟨_, execAll_modred s hne m, State.regNat_complete_setRegNat _ _ ?_, fun k hk => ?_⟩
      · exact (Nat.mod_lt _ (modulus_pos m)).trans (modulus_lt m)
      · simp [hk.symm]
    · cases his
  · refine ⟨_, execAll_pmulg s pd rk, State.point_setPoint _ _ (scalarMul_baseG_valid_or_inf _), fun k hk => ?_⟩
    simp [hk.symm]
  · refine ⟨_, rfl, ?_, fun k hk => ?_⟩
    · rw [pow_two]
      exact State.regNat_complete_setRegNat _ _ ((Nat.mod_lt _ (modulus_pos m)).trans (modulus_lt m))
    · simp [hk.symm]

/-- An inverse modulo `p`, as an integer congruence (R126). -/
theorem modInv_mul_modEq_one {d : Nat} (hd : d % curveP ≠ 0) : (modInv curveP d : Int) * d ≡ 1 [ZMOD curveP] := by
  have h : modInv curveP d * d ≡ 1 [MOD curveP] := by
    rw [Nat.ModEq, Nat.mul_comm, mul_modInv _ _ curveP_prime hd, Nat.mod_eq_of_lt curveP_prime.one_lt]
  exact_mod_cast (Int.natCast_modEq_iff).2 h

/-- The point a line construction gives, as the equations of R143. -/
theorem chord_modEq (lam x1 y1 x2 : Nat) : ∃ x3 y3 : Nat, chord lam x1 y1 x2 = .aff x3 y3 ∧ x3 < curveP ∧ y3 < curveP ∧
    (x3 : Int) ≡ lam * lam - x1 - x2 [ZMOD curveP] ∧ (y3 : Int) ≡ lam * (x1 - x3) - y1 [ZMOD curveP] :=
  ⟨_, _, rfl, imod_lt _ _ curveP_pos, imod_lt _ _ curveP_pos, imod_modEq _ _ curveP_pos, imod_modEq _ _ curveP_pos⟩

/-- `ptDouble` satisfies the tangent equations on reduced operands (R143). -/
theorem ptDouble_isDouble (q : AffinePoint) : IsDouble (norm q) (ptDouble (norm q)) := by
  cases q with
  | inf => rfl
  | aff x y =>
    have hy := Nat.mod_lt y curveP_pos
    rw [norm, ptDouble_aff]
    generalize x % curveP = x, y % curveP = y at hy
    rw [IsDouble]
    split
    · rfl
    · rename_i h0
      have h2y : 2 * y % curveP ≠ 0 := by
        have := Fact.mk curveP_prime
        rw [← natCast_zmod_ne_zero, Nat.cast_mul]
        exact mul_ne_zero two_ne_zero_F (natCast_ne_zero_of_lt hy h0)
      obtain ⟨x3, y3, hc, hx3, hy3, hX, hY⟩ :=
        chord_modEq ((3 * x * x + curveA) * modInv curveP (2 * y) % curveP) x y x
      refine ⟨_, x3, y3, hc, hx3, hy3, ?_, ?_, hY⟩
      · have hinv := (modInv_mul_modEq_one h2y).mul_left (3 * x * x + curveA : Int)
        push_cast at hinv ⊢
        rw [mul_one, ← mul_assoc] at hinv
        exact ((Int.mod_modEq _ _).mul_right _).trans hinv
      · rwa [two_mul (x : Int), ← sub_sub]

/-- `ptAdd` satisfies the case analysis and the chord equations on reduced operands (R143). -/
theorem ptAdd_isSum (p q : AffinePoint) : IsSum (norm p) (norm q) (ptAdd (norm p) (norm q)) := by
  cases p with
  | inf => exact ptAdd_inf_left _
  | aff x1 y1 =>
    cases q with
    | inf => rfl
    | aff x2 y2 =>
      have hd := ptDouble_isDouble (.aff x1 y1)
      have hx1 := Nat.mod_lt x1 curveP_pos
      have hx2 := Nat.mod_lt x2 curveP_pos
      simp only [norm] at hd ⊢
      rw [ptAdd_aff]
      generalize x1 % curveP = x1, y1 % curveP = y1, x2 % curveP = x2, y2 % curveP = y2 at hd hx1 hx2 ⊢
      rw [IsSum]
      split
      · split
        · exact hd
        · rfl
      · rename_i hne
        have hD := imod_modEq ((x2 : Int) - x1) curveP curveP_pos
        have hD0 : imod ((x2 : Int) - x1) curveP % curveP ≠ 0 := by
          rw [← natCast_zmod_ne_zero, imod_zmod _ _ curveP_pos]
          push_cast
          exact sub_ne_zero.2 fun he => hne (natCast_inj_of_lt hx1 hx2 he.symm)
        obtain ⟨x3, y3, hc, hx3, hy3, hX, hY⟩ := chord_modEq
          (imod (((y2 : Int) - y1) * (modInv curveP (imod ((x2 : Int) - x1) curveP) : Int)) curveP) x1 y1 x2
        refine ⟨_, x3, y3, hc, hx3, hy3, ?_, hX, hY⟩
        have hinv := (modInv_mul_modEq_one hD0).mul_left ((y2 : Int) - y1)
        rw [mul_one, ← mul_assoc] at hinv
        exact ((imod_modEq _ _ curveP_pos).mul hD.symm).trans hinv

/-- Settles O27: the functions of R143 satisfy its equations. -/
theorem pointAddAndDouble : Obligations.PointAddAndDouble := fun s pd pa pb =>
  ⟨⟨_, ptAdd_isSum _ _, execPadd_eq pd pa pb s⟩, ⟨_, ptDouble_isDouble _, execPdbl_eq pd pa s⟩⟩

end Sys2Proof.Machine

/-! Points as bytes (R110, R150, R151), and a string a command stored, moved to IBUF and read again. -/
namespace Sys2Proof.Machine

/-- A string put in a buffer is the buffer's content up to its new length (R81, R82). -/
theorem State.readBytes_put (s : State) (b : Buf) {v : Bytes} (hw : (s.mem b).wf) (hv : v.length < 2 ^ 32) :
    ((s.put b v).mem b).readBytes 0 ((s.put b v).len b).toNat = v := by
  rw [State.mem_put, State.len_put, if_pos rfl, if_pos rfl, BitVec.toNat_ofNat, Nat.mod_eq_of_lt hv,
    Memory.readBytes_writeBytes _ hw]

theorem encodePoint_eq (nopfx : Bool) (x y : Nat) :
    encodePoint nopfx x y = (if nopfx then [] else [0x04#8]) ++ be 32 x ++ be 32 y := by cases nopfx <;> rfl

theorem c1Length_le (nopfx : Bool) : c1Length nopfx ≤ 65 := Nat.sub_le _ _

/-- The bytes of a point are decoded to its coordinates, with either setting of NOPFX (R110, R151). -/
theorem decodePoint_encodePoint (nopfx : Bool) {x y : Nat} (hx : x < 2 ^ 256) (hy : y < 2 ^ 256) :
    decodePoint (encodePoint nopfx x y) = some (x, y) := by
  have hbx : int (be 32 x) = x := int_be 32 x (hx.trans_eq (by norm_num))
  have hby : int (be 32 y) = y := int_be 32 y (hy.trans_eq (by norm_num))
  have htake : (be 32 y).take 32 = be 32 y := List.take_of_length_le (be_length 32 y).le
  cases nopfx <;> simp [decodePoint, encodePoint, slice, hbx, hby, htake]

/-- PENC of a point other than `O` writes its encoding (R150). -/
theorem execPenc_of_aff {s : State} {pa : PReg} {x y : Nat} (h : norm (s.point pa) = .aff x y) :
    exec (.penc pa) s = .next ((s.put .obuf (encodePoint s.cfg.nopfx x y)).complete false 0 none) := by
  have hl := c1Length_le s.cfg.nopfx
  have hb := bufBytes_ge
  show execPenc pa s = _
  unfold execPenc
  rw [h]
  exact putOut_ok _ _ _ (by rw [encodePoint_length]; omega)

/-- Settles O30, by the field INF. -/
theorem pointEncode : Obligations.PointEncode := by
  refine fun s pa => ⟨fun hinf => ?_, fun hinf => ?_⟩
  · have hO : norm (s.point pa) = .inf := by simp [State.point, PointReg.value, hinf, norm]
    show execPenc pa s = _
    unfold execPenc
    rw [hO]
    rfl
  · rw [← encodePoint_eq]
    apply execPenc_of_aff
    simp [State.point, PointReg.value, hinf, norm]

/-- PDEC of the encoding of a valid point writes the point (R151). -/
theorem execPdec_of_encodePoint {s : State} {pd : PReg} {nopfx : Bool} {x y : Nat} (hl : s.ilen.toNat ≤ Config.bufBytes)
    (hb : s.ibuf.readBytes 0 s.ilen.toNat = encodePoint nopfx x y) (hv : validPoint (.aff x y) = true) :
    exec (.pdec pd) s = .next ((s.setPoint pd (.aff x y)).complete false 0 none) := by
  obtain ⟨hx, hy, -⟩ := (validPoint_aff x y).1 hv
  have hp : curveP < 2 ^ 256 := modulus_lt .p
  show execPdec pd s = _
  unfold execPdec
  rw [withIn_ok s _ hl, hb, decodePoint_encodePoint nopfx (hx.trans hp) (hy.trans hp)]
  exact if_pos hv

/-- A point register that does not hold `O` is written back as it was read (R24). -/
theorem PointReg.toReg_value {q : PointReg} (h : q.inf = false) : q.value.toReg = q := by
  obtain ⟨x, y, inf⟩ := q
  cases h
  simp [PointReg.value, AffinePoint.toReg]

/-- Settles O32: the bytes PENC leaves in OBUF are the encoding that PDEC finds in IBUF. -/
theorem pointCodecRoundTrip : Obligations.PointCodecRoundTrip := by
  intro s pa pd hs hinf hv
  have hpoint : s.point pa = .aff (s.preg pa).x.toNat (s.preg pa).y.toNat := by simp [State.point, PointReg.value, hinf]
  rw [hpoint] at hv
  have hl := c1Length_le s.cfg.nopfx
  have hb := bufBytes_ge
  have henc := execPenc_of_aff (s := s) (pa := pa) ((congrArg norm hpoint).trans (norm_of_valid hv))
  set v := encodePoint s.cfg.nopfx (s.preg pa).x.toNat (s.preg pa).y.toNat
  have hvl : v.length = c1Length s.cfg.nopfx := encodePoint_length _ _ _
  set t := (s.put .obuf v).complete false 0 none
  have ht : t.Inv := (hs.put .obuf v (by rw [capacity_obuf]; omega)).complete _ _ _ (by simp)
  have hout : t.obuf.readBytes 0 t.olen.toNat = v := s.readBytes_put .obuf (hs.memWf _) (by omega)
  have hin := t.readBytes_put .ibuf (v := v) (ht.memWf _) (by omega)
  have hlen : (t.put .ibuf v).ilen.toNat ≤ Config.bufBytes := (ht.put .ibuf v (by rw [capacity_ibuf]; omega)).ilen_le
  have hdec := execPdec_of_encodePoint (s := t.put .ibuf v) (pd := pd) hlen hin hv
  refine ⟨t, _, henc, hout.symm ▸ hdec, rfl, ?_⟩
  rw [State.preg_complete, State.preg_setPoint, if_pos rfl, ← hpoint]
  exact PointReg.toReg_value hinf

end Sys2Proof.Machine

/-! SM2ENC with a good draw within the cap (R111, R221, R236). -/
namespace Sys2Proof.Machine

/-- Byte `j` of a mask (R9). -/
theorem xorBytes_getD (s t : Bytes) {j : Nat} (hs : j < s.length) (ht : j < t.length) :
    (xorBytes s t).getD j 0 = s.getD j 0 ^^^ t.getD j 0 := by
  simp [xorBytes, List.getD_eq_getElem?_getD, hs, ht]

/-- An attempt of SM2ENC that gives a ciphertext, by its two multiples (R236). -/
theorem attemptEnc_eq_some {order nopfx : Bool} {q : AffinePoint} {msg : Bytes} {k : Nat} {c : Bytes}
    (h : attemptEnc order nopfx q msg k = some c) : ∃ x1 y1 x2 y2, scalarMul baseG k = .aff x1 y1 ∧
      scalarMul q k = .aff x2 y2 ∧ c = joinCipher order (encodePoint nopfx x1 y1)
        (sm3 (be 32 x2 ++ msg ++ be 32 y2)) (xorBytes msg (kdf (be 32 x2 ++ be 32 y2) msg.length)) := by
  cases hg : scalarMul baseG k with
  | inf => simp [attemptEnc, hg] at h
  | aff x1 y1 =>
    cases hq : scalarMul q k with
    | inf => simp [attemptEnc, hg, hq] at h
    | aff x2 y2 =>
      rw [attemptEnc_eq order nopfx q msg k x1 y1 x2 y2 hg hq] at h
      split at h
      · cases h
      · cases h
        exact ⟨x1, y1, x2, y2, rfl, rfl, rfl⟩

/-- The loop succeeds at the first good draw, if the cap allows it. -/
theorem runLoop_of_success {α : Type} (attempt : Nat → Option α) (s : State) {bad rest : List Big} {k : Big}
    (hr : s.rng = bad ++ k :: rest) (hl : s.tries + bad.length + 1 ≤ s.cap.toNat)
    (hb : ∀ x ∈ bad, degenerateDraw attempt x) (hk : ¬degenerateDraw attempt k) :
    ∃ a, attempt k.toNat = some a ∧ runLoop attempt s = .success a (s.tries + bad.length + 1) rest := by
  obtain ⟨h1, h2, a, ha⟩ := good_of_not_degenerate attempt k hk
  refine ⟨a, ha, ?_⟩
  rw [runLoop, hr]
  exact retryLoop_append_good attempt bad k rest a _ _ hb h1 h2 ha (by omega)

theorem encLoop_of_success {msg c : Bytes} {att : Nat} {s : State} {rng : List Big}
    (h : runLoop (attemptEnc s.cfg.order s.cfg.nopfx (s.point 0) msg) s = .success c att rng)
    (hc : c.length ≤ Config.bufBytes) : encLoop msg s = .next (((s.drew rng).put .obuf c).complete false att none) := by
  rw [encLoop, h]
  exact putOut_ok _ _ _ hc

/-- Settles O50: the loop ends with the attempt of the good draw, whose ciphertext fits. -/
theorem encryptSucceeds : Obligations.EncryptSucceeds := by
  intro s bad k rest hs h0 hfit hv hr hcap hbad hgood
  have hfit : c1Length s.cfg.nopfx + 32 + s.ilen.toNat ≤ Config.bufBytes := hfit
  have hdeg (x : Big) := degenerateDraw_enc_iff s.cfg.order s.cfg.nopfx (s.point 0) (s.ibuf.readBytes 0 s.ilen.toNat) x
  rw [Memory.readBytes_length] at hdeg
  obtain ⟨c, hc, hrun⟩ := runLoop_of_success (attemptEnc s.cfg.order s.cfg.nopfx (s.point 0)
    (s.ibuf.readBytes 0 s.ilen.toNat)) s hr hcap (fun x hx => (hdeg x).2 (hbad x hx)) (fun h => hgood ((hdeg k).1 h))
  have hlen := attemptEnc_length _ _ _ _ _ _ hc
  rw [Memory.readBytes_length] at hlen
  obtain ⟨x1, y1, x2, y2, hg, hq, rfl⟩ := attemptEnc_eq_some hc
  rw [Memory.readBytes_length] at hrun hlen
  refine ⟨x1, y1, x2, y2, xorBytes (s.ibuf.readBytes 0 s.ilen.toNat) (kdf (be 32 x2 ++ be 32 y2) s.ilen.toNat), hg, hq,
    by simp, fun j hj => ?_, ?_⟩
  · rw [xorBytes_getD _ _ (by simpa using hj) (by simpa using hj), Memory.readBytes_getD _ _ _ _ hj, Nat.zero_add]
  · rw [← encodePoint_eq]
    exact (execSm2enc_eq_encLoop s hs h0 hfit hv).trans (encLoop_of_success hrun (hlen ▸ hfit))

end Sys2Proof.Machine

/-! SM2DEC on a non-empty input (R242): its tests on the bytes of IBUF, in their order. -/
namespace Sys2Proof.Machine

/-- A multiple of a valid point by a valid scalar is not `O`: the order of the point is `n` (R144, R152). -/
theorem scalarMul_of_valid {q : AffinePoint} (hv : validPoint q = true) {d : Nat} (h1 : 1 ≤ d) (h2 : d ≤ curveN - 2) :
    ∃ x y, scalarMul q d = .aff x y := by
  have := Fact.mk curveP_prime
  have := Fact.mk curveN_prime
  obtain ⟨P, hP⟩ := rep_of_valid hv
  have hP0 : P ≠ 0 := fun h => by
    rw [hP.eq_inf_iff.2 h] at hv
    cases hv
  have hne : scalarMul q d ≠ .inf := by
    rw [Ne, (hP.scalarMul d).eq_inf_iff, ← addOrderOf_dvd_iff_nsmul_eq_zero,
      addOrderOf_eq_prime (curveN_nsmul P) hP0]
    exact Nat.not_dvd_of_pos_of_lt h1 (by have := curveN_pos; omega)
  cases h : scalarMul q d with
  | inf => exact absurd h hne
  | aff x y => exact ⟨x, y, rfl⟩

/-- A substring of what is read is read (R9, R80). -/
theorem slice_readBytes (m : Memory) {n i j : Nat} (hj : j ≤ n) :
    slice (m.readBytes 0 n) i j = m.readBytes i (j - i) := by
  apply List.ext_getElem
  · rw [slice_length, Memory.readBytes_length, Memory.readBytes_length]
    omega
  · intro k h1 h2
    simp [slice, Memory.readBytes]

theorem head?_readBytes (m : Memory) {n : Nat} (hn : 0 < n) : (m.readBytes 0 n).head? = some (m.read 0) := by
  obtain ⟨n, rfl⟩ := Nat.exists_eq_succ_of_ne_zero hn.ne'
  simp [Memory.readBytes, List.range_succ_eq_map]

/-- C1 of a ciphertext in a buffer (R111, R242). -/
theorem c1Point_readBytes (nopfx : Bool) (m : Memory) {n : Nat} (hn : c1Length nopfx ≤ n) :
    c1Point nopfx (m.readBytes 0 n) = if nopfx = true ∨ m.read 0 = 0x04#8 then
      some (int (m.readBytes (1 - nopfx.toNat) 32), int (m.readBytes (33 - nopfx.toNat) 32)) else none := by
  cases nopfx with
  | true =>
    have hn : 64 ≤ n := hn
    simp [c1Point, slice_readBytes m (show 32 ≤ n by omega), slice_readBytes m hn]
  | false =>
    have hn : 65 ≤ n := hn
    simp [c1Point, slice_readBytes m (show 33 ≤ n by omega), slice_readBytes m hn,
      head?_readBytes m (show 0 < n by omega)]

/-- C3 and C2 of a ciphertext in a buffer (R111, R242). -/
theorem splitCipher_readBytes (order nopfx : Bool) (m : Memory) {n : Nat} (hn : c1Length nopfx + 32 ≤ n) :
    splitCipher order nopfx (m.readBytes 0 n) =
      (if order then m.readBytes (n - 32) 32 else m.readBytes (c1Length nopfx) 32,
        if order then m.readBytes (c1Length nopfx) (n - c1Length nopfx - 32)
        else m.readBytes (c1Length nopfx + 32) (n - c1Length nopfx - 32)) := by
  have e1 : n - (n - 32) = 32 := by omega
  have e2 : n - 32 - c1Length nopfx = n - c1Length nopfx - 32 := by omega
  cases order with
  | true => simp [splitCipher, slice_readBytes, e1, e2]
  | false => simp [splitCipher, slice_readBytes, hn, Nat.sub_sub]

theorem execSm2dec_of_error {s : State} {e : CmdError} (h0 : s.ilen.toNat ≠ 0) (hl : s.ilen.toNat ≤ Config.bufBytes)
    (h : decryptBytes s.cfg.order s.cfg.nopfx (s.regNat 0) (s.ibuf.readBytes 0 s.ilen.toNat) = .error e) :
    exec .sm2dec s = .next ((s.setLen .obuf 0).complete false 0 (some e)) := by
  show execSm2dec s = _
  rw [execSm2dec, if_neg h0, withIn_ok s _ hl, h]
  rfl

theorem execSm2dec_of_ok {s : State} {msg : Bytes} (h0 : s.ilen.toNat ≠ 0) (hl : s.ilen.toNat ≤ Config.bufBytes)
    (h : decryptBytes s.cfg.order s.cfg.nopfx (s.regNat 0) (s.ibuf.readBytes 0 s.ilen.toNat) = .ok msg)
    (hm : msg.length ≤ Config.bufBytes) : exec .sm2dec s = .next ((s.put .obuf msg).complete false 0 none) := by
  show execSm2dec s = _
  rw [execSm2dec, if_neg h0, withIn_ok s _ hl, h]
  exact putOut_ok s msg _ hm

section
variable {order nopfx : Bool} {d : Nat} {c : Bytes}

theorem decryptBytes_of_scalar (hd : validScalar d = false) : decryptBytes order nopfx d c = .error .validation := by
  rw [decryptBytes, hd]
  rfl

theorem decryptBytes_of_short (hd : validScalar d = true) (hl : c.length < c1Length nopfx + 32) :
    decryptBytes order nopfx d c = .error .validation := by
  rw [decryptBytes, hd]
  exact if_pos hl

theorem decryptBytes_of_prefix (hd : validScalar d = true) (hl : c1Length nopfx + 32 ≤ c.length)
    (hc : c1Point nopfx c = none) : decryptBytes order nopfx d c = .error .validation := by
  simp [decryptBytes, hd, not_lt.2 hl, hc]

theorem decryptBytes_of_point (hd : validScalar d = true) (hl : c1Length nopfx + 32 ≤ c.length) {xc yc : Nat}
    (hc : c1Point nopfx c = some (xc, yc)) (hv : validPoint (.aff xc yc) = false) :
    decryptBytes order nopfx d c = .error .invalidPoint := by
  simp [decryptBytes, hd, not_lt.2 hl, hc, hv]

end

/-- Settles O52: the tests of `decryptBytes` in their order, each read off the bytes of IBUF. -/
theorem decryptOutcome : Obligations.DecryptOutcome := by
  intro s h0 hcap fail L1 xc yc len2 c3 c2
  have hclen : (s.ibuf.readBytes 0 s.ilen.toNat).length = s.ilen.toNat := Memory.readBytes_length _ _ _
  have herr {e : CmdError} := execSm2dec_of_error (e := e) h0 hcap
  refine ⟨fun hd => ?_, fun h1 h2 => ?_⟩
  · exact herr (decryptBytes_of_scalar (Bool.eq_false_iff.2 (mt (validScalar_iff _).1 hd)))
  have hd := (validScalar_iff _).2 ⟨h1, h2⟩
  refine ⟨fun hshort => herr (decryptBytes_of_short hd (hclen.trans_lt hshort)), fun hlong => ?_⟩
  have hl : c1Length s.cfg.nopfx + 32 ≤ (s.ibuf.readBytes 0 s.ilen.toNat).length := hlong.trans_eq hclen.symm
  have hC1 := c1Point_readBytes s.cfg.nopfx s.ibuf (le_of_add_le_left hlong)
  refine ⟨fun hp h4 => ?_, fun hp => ?_⟩
  · exact herr (decryptBytes_of_prefix hd hl (hC1.trans (if_neg (by simp [hp, h4]))))
  rw [if_pos hp] at hC1
  refine ⟨fun hv => herr (decryptBytes_of_point hd hl hC1 hv), fun hv => ?_⟩
  obtain ⟨x2, y2, hm⟩ := scalarMul_of_valid hv h1 h2
  have hdec := decryptBytes_eq s.cfg.order _ _ _ _ _ x2 y2 hd hl hC1 hv hm
  rw [splitCipher_readBytes _ _ _ hlong] at hdec
  have hc2 : c2.length = len2 := by
    simp only [c2]
    split <;> exact Memory.readBytes_length _ _ _
  have hdec : decryptBytes s.cfg.order s.cfg.nopfx (s.regNat 0) (s.ibuf.readBytes 0 s.ilen.toNat) =
      if sm3 (be 32 x2 ++ xorBytes c2 (kdf (be 32 x2 ++ be 32 y2) c2.length) ++ be 32 y2) ≠ c3
      then .error .decryptionIntegrity else .ok (xorBytes c2 (kdf (be 32 x2 ++ be 32 y2) c2.length)) := hdec
  rw [hc2] at hdec
  have hmsg : (xorBytes c2 (kdf (be 32 x2 ++ be 32 y2) len2)).length = len2 := by simp [hc2]
  refine ⟨x2, y2, _, hm, hmsg, fun j hj => ?_, fun hne => herr (hdec.trans (if_pos hne)), fun heq => ?_⟩
  · exact xorBytes_getD _ _ (hj.trans_eq hc2.symm) (hj.trans_eq (kdf_length _ _).symm)
  · exact execSm2dec_of_ok h0 hcap (hdec.trans (if_neg (not_not.2 heq))) (by omega)

end Sys2Proof.Machine

/-! The constants (R121, R129, R149, R171) and the two inverses of the field family: MODINV (R126) and the Montgomery
product (R128) with its laws (R131), which are identities of the field of integers modulo the prime. -/
namespace Sys2Proof.Machine

/-- Settles O21: the ROM and the initial values are the printed ones; primality and the order of `G` are facts of the
curve's laws. -/
theorem constants : Obligations.Constants := by
  refine ⟨fun s rd c => ?_, fun s pd => rfl, fun s => rfl, curveP_prime, curveN_prime, by decide +kernel,
    modulus_lt .p, by decide +kernel, by decide +kernel, by decide +kernel, by decide +kernel, ?_⟩
  · cases c <;> exact execLdc_eq rd _ s
  · have := Fact.mk curveP_prime
    rw [(rep_baseG.scalarMul curveN).eq_inf_iff]
    exact curveN_nsmul pointG

/-- A 256-bit number is below twice either modulus, so only 0 and the modulus itself are multiples of it. -/
theorem mod_modulus_eq_zero_iff (m : Modulus) {x : Nat} (hx : x < 2 ^ 256) :
    x % modulus m = 0 ↔ x = 0 ∨ x = modulus m := by
  have h2 : 2 ^ 256 < 2 * modulus m := by cases m <;> decide +kernel
  constructor
  · intro h
    obtain ⟨q, rfl⟩ := Nat.dvd_of_mod_eq_zero h
    have hq : q < 2 := Nat.lt_of_mul_lt_mul_left (a := modulus m) (by rw [Nat.mul_comm _ 2]; exact hx.trans h2)
    interval_cases q
    · exact .inl (Nat.mul_zero _)
    · exact .inr (Nat.mul_one _)
  · rintro (rfl | rfl)
    · exact Nat.zero_mod _
    · exact Nat.mod_self _

theorem execModinv_of_zero (rd ra : Reg) {m : Modulus} {s : State} (h : s.regNat ra % modulus m = 0) :
    execModinv rd ra m s = .next (s.complete false 0 (some .notInvertible)) := if_pos h

theorem execModinv_of_ne_zero (rd ra : Reg) {m : Modulus} {s : State} (h : s.regNat ra % modulus m ≠ 0) :
    execModinv rd ra m s = .next
      ((s.setRegNat rd (modInv (modulus m) (s.regNat ra % modulus m))).complete false 0 none) := if_neg h

/-- An inverse modulo `m` is unique below `m`. -/
theorem eq_of_mul_mod_eq_one {m x y z : Nat} (hy : y < m) (hz : z < m) (hxy : x * y % m = 1) (hxz : x * z % m = 1) :
    z = y := by
  have h1 : x * y ≡ 1 [MOD m] := by rw [Nat.ModEq, ← hxy, Nat.mod_mod]
  have hcop : m.gcd x = 1 := (Nat.coprime_of_mul_modEq_one y h1).symm
  exact (Nat.ModEq.cancel_left_of_coprime hcop (hxz.trans hxy.symm)).eq_of_lt_of_lt hz hy

/-- Settles O23: the operands with residue 0 are 0 and the modulus; any other has `modInv` as its one inverse. -/
theorem modularInverse : Obligations.ModularInverse := by
  intro s rd ra m
  have hzero := mod_modulus_eq_zero_iff m (s.regNat_lt ra)
  refine ⟨fun h => execModinv_of_zero rd ra (hzero.2 h), fun h0 hm => ?_⟩
  have hx : s.regNat ra % modulus m ≠ 0 := fun h => (hzero.1 h).elim h0 hm
  have hx' : s.regNat ra % modulus m % modulus m ≠ 0 := by rwa [Nat.mod_mod]
  have hlt := modInv_lt (modulus m) (s.regNat ra % modulus m) (modulus_pos m)
  have hinv := mul_modInv (modulus m) (s.regNat ra % modulus m) (modulus_prime m) hx'
  rw [Nat.mod_mul_mod] at hinv
  exact ⟨_, modInv_pos _ _ (modulus_prime m) hx', Nat.le_sub_one_of_lt hlt, hinv,
    fun y' hy' h => eq_of_mul_mod_eq_one hlt hy' hinv h, execModinv_of_ne_zero rd ra hx⟩

/-- Settles O24: the Montgomery product of the model, times the radix, is the product. -/
theorem montgomeryProduct : Obligations.MontgomeryProduct := fun s rd ra rb m =>
  ⟨_, montMul_lt _ _ _ (modulus_pos m), montMul_mul_radix m _ _, execMontmul_eq rd ra rb m s⟩

/-- Numbers below `m` with one residue are equal. -/
theorem eq_of_zmod_eq {m x y : Nat} (hx : x < m) (hy : y < m) (h : (x : ZMod m) = (y : ZMod m)) : x = y :=
  ((ZMod.natCast_eq_natCast_iff _ _ _).1 h).eq_of_lt_of_lt hx hy

theorem modMul_zmod (m a b : Nat) : ((modMul m a b : Nat) : ZMod m) = (a : ZMod m) * (b : ZMod m) := by
  rw [modMul, ZMod.natCast_mod, Nat.cast_mul]

section
variable (m : Modulus)

/-- The radix of R128 is not 0 in the field. -/
theorem radix_zmod_ne_zero : (2 : ZMod (modulus m)) ^ 256 ≠ 0 := by
  have h := (natCast_zmod_ne_zero (modulus m) (2 ^ 256)).2 (two_pow_256_mod m)
  rwa [Nat.cast_pow, Nat.cast_ofNat] at h

/-- `RR` of R131 is the square of the radix. -/
theorem radixSq_zmod : ((2 ^ 512 % modulus m : Nat) : ZMod (modulus m)) = 2 ^ 256 * 2 ^ 256 := by
  rw [ZMod.natCast_mod, Nat.cast_pow, Nat.cast_ofNat, ← pow_add]

variable [Fact (modulus m).Prime]

/-- The Montgomery product in the field: the product divided by the radix (R128). -/
theorem montMul_zmod (a b : Nat) :
    ((montMul (modulus m) a b : Nat) : ZMod (modulus m)) = (a : ZMod (modulus m)) * (b : ZMod (modulus m)) / 2 ^ 256 := by
  have h := (ZMod.natCast_eq_natCast_iff _ _ _).2 (montMul_mul_radix m a b)
  rw [Nat.cast_mul, Nat.cast_mul, Nat.cast_pow, Nat.cast_ofNat] at h
  exact eq_div_of_mul_eq (radix_zmod_ne_zero m) h

/-- The inverse of the radix, the constant the third law of R131 multiplies by. -/
theorem modInv_radix_zmod :
    ((modInv (modulus m) (2 ^ 256 % modulus m) : Nat) : ZMod (modulus m)) = (2 ^ 256)⁻¹ := by
  have h : ((2 ^ 256 % modulus m : Nat) : ZMod (modulus m)) = 2 ^ 256 := by
    rw [ZMod.natCast_mod, Nat.cast_pow, Nat.cast_ofNat]
  rw [modInv_zmod _ _ (modulus_prime m) (h ▸ radix_zmod_ne_zero m), h]

end

/-- The first law of R131: a second Montgomery product, by `RR`, makes good the division by the radix. -/
theorem modMul_eq_montMul_montMul (m : Modulus) (x y : Nat) :
    modMul (modulus m) x y = montMul (modulus m) (montMul (modulus m) x y) (2 ^ 512 % modulus m) := by
  have := Fact.mk (modulus_prime m)
  have hR := radix_zmod_ne_zero m
  refine eq_of_zmod_eq (modMul_lt _ _ _ (modulus_pos m)) (montMul_lt _ _ _ (modulus_pos m)) ?_
  rw [modMul_zmod, montMul_zmod, montMul_zmod, radixSq_zmod]
  generalize (2 : ZMod (modulus m)) ^ 256 = R at hR ⊢
  field_simp

/-- The second law of R131: into the Montgomery form, multiplied there, and out of it by the factor 1. -/
theorem montMul_montgomeryForms (m : Modulus) (x y : Nat) :
    montMul (modulus m) (montMul (modulus m) (montMul (modulus m) x (2 ^ 512 % modulus m))
      (montMul (modulus m) y (2 ^ 512 % modulus m))) 1 = modMul (modulus m) x y := by
  have := Fact.mk (modulus_prime m)
  have hR := radix_zmod_ne_zero m
  refine eq_of_zmod_eq (montMul_lt _ _ _ (modulus_pos m)) (modMul_lt _ _ _ (modulus_pos m)) ?_
  simp only [modMul_zmod, montMul_zmod, radixSq_zmod, Nat.cast_one]
  generalize (2 : ZMod (modulus m)) ^ 256 = R at hR ⊢
  field_simp

/-- The third law of R131: the Montgomery product is the product times the inverse of the radix. -/
theorem montMul_eq_modMul_radixInv (m : Modulus) (x y : Nat) :
    montMul (modulus m) x y =
      modMul (modulus m) (modMul (modulus m) x y) (modInv (modulus m) (2 ^ 256 % modulus m)) := by
  have := Fact.mk (modulus_prime m)
  refine eq_of_zmod_eq (montMul_lt _ _ _ (modulus_pos m)) (modMul_lt _ _ _ (modulus_pos m)) ?_
  rw [montMul_zmod, modMul_zmod, modMul_zmod, modInv_radix_zmod, div_eq_mul_inv]

/-- Settles O25: the three laws hold in the field; the constants are computed. -/
theorem montgomeryLaws : Obligations.MontgomeryLaws :=
  ⟨fun m x y _ _ => ⟨modMul_eq_montMul_montMul m x y, montMul_montgomeryForms m x y, montMul_eq_modMul_radixInv m x y⟩,
    by decide +kernel, by decide +kernel, by decide +kernel, by decide +kernel, by decide +kernel, by decide +kernel⟩

end Sys2Proof.Machine

/-! The point family (R140 to R152): double-and-add by its scalar's lowest bit, what PCHK and PDEC decide by, and the
group facts, which are those of the curve's group. -/
namespace Sys2Proof.Machine

/-- A scalar with one more bit at its end is one bit longer (R8). -/
theorem bitlen_bit {b : Bool} {k : Nat} (h : Nat.bit b k ≠ 0) : bitlen (Nat.bit b k) = bitlen k + 1 := by
  rw [bitlen, if_neg h, Nat.log2_def, Nat.bit_div_two]
  by_cases hk : k = 0
  · subst hk
    cases b <;> simp [bitlen]
  · have h2 : 2 ≤ Nat.bit b k := by
      rw [Nat.bit_val]
      omega
    rw [if_pos h2, bitlen, if_neg hk]

/-- The loop handles the lowest bit last (R144). -/
theorem scalarMulBits_bit (p : AffinePoint) (b : Bool) (k i : Nat) (acc : AffinePoint) :
    scalarMulBits p (Nat.bit b k) (i + 1) acc =
      if b then ptAdd (ptDouble (scalarMulBits p k i acc)) p else ptDouble (scalarMulBits p k i acc) := by
  induction i generalizing acc with
  | zero => simp only [scalarMulBits, Nat.testBit_bit_zero]
  | succ i ih => rw [scalarMulBits, ih, Nat.testBit_bit_succ, scalarMulBits]

/-- Double-and-add by the lowest bit of the scalar. -/
theorem scalarMul_bit (p : AffinePoint) (b : Bool) (k : Nat) :
    scalarMul p (Nat.bit b k) = if b then ptAdd (ptDouble (scalarMul p k)) p else ptDouble (scalarMul p k) := by
  by_cases h : Nat.bit b k = 0
  · obtain ⟨rfl, rfl⟩ := Nat.bit_eq_zero_iff.1 h
    rfl
  · rw [scalarMul, bitlen_bit h, scalarMulBits_bit]
    rfl

/-- Settles O28: PMUL is its function, whose last step is that of the scalar's lowest bit. -/
theorem pointMultiply : Obligations.PointMultiply :=
  ⟨fun s pd pa rk => execPmul_eq pd pa rk s,
    fun p => ⟨rfl, fun k => ⟨scalarMul_bit p false k, scalarMul_bit p true k⟩⟩⟩

/-- The equation of R140 as a congruence. -/
theorem onCurve_iff_modEq (x y : Nat) : onCurve x y = true ↔ y ^ 2 ≡ x ^ 3 + curveA * x + curveB [MOD curveP] := by
  rw [onCurve, decide_eq_true_iff, pow_two, pow_succ, pow_two]
  rfl

/-- Settles O29: RESULT is ValidPoint of the register, which is false for `O`. -/
theorem pointCheck : Obligations.PointCheck := by
  refine fun s pa => ⟨validPoint (s.point pa), execPchk_eq pa s, ?_⟩
  cases hinf : (s.preg pa).inf with
  | true => simp [State.point, PointReg.value, hinf, validPoint]
  | false => simp [State.point, PointReg.value, hinf, validPoint, onCurve_iff_modEq, and_assoc]

/-- What PDEC makes of an input of the prefixed form (R151). -/
theorem decodePoint_of_prefixed (m : Memory) (h : m.read 0 = 0x04#8) :
    decodePoint (m.readBytes 0 65) = some (int (m.readBytes 1 32), int (m.readBytes 33 32)) := by
  simp [decodePoint, head?_readBytes, h, slice_readBytes]

/-- What PDEC makes of an input of the bare form, whatever its first byte (R151). -/
theorem decodePoint_of_bare (m : Memory) :
    decodePoint (m.readBytes 0 64) = some (int (m.readBytes 0 32), int (m.readBytes 32 32)) := by
  simp [decodePoint, slice_readBytes]

/-- PDEC finds no point in an input of neither form (R151). -/
theorem decodePoint_of_malformed (m : Memory) {n : Nat} (h64 : n ≠ 64) (h65 : ¬(n = 65 ∧ m.read 0 = 0x04#8)) :
    decodePoint (m.readBytes 0 n) = none := by
  have hpre : ¬(n = 65 ∧ (m.readBytes 0 n).head? = some 0x04#8) := by
    rintro ⟨rfl, hhead⟩
    rw [head?_readBytes m (by omega)] at hhead
    exact h65 ⟨rfl, Option.some.inj hhead⟩
  rw [decodePoint, Memory.readBytes_length, if_neg hpre, if_neg h64]

section
variable {s : State} (pd : PReg) (hl : s.ilen.toNat ≤ Config.bufBytes)
include hl

/-- PDEC of a malformed input raises ValidationError and writes nothing (R151). -/
theorem execPdec_of_malformed (h : decodePoint (s.ibuf.readBytes 0 s.ilen.toNat) = none) :
    exec (.pdec pd) s = .next (s.complete false 0 (some .validation)) := by
  show execPdec pd s = _
  rw [execPdec, withIn_ok s _ hl, h]
  rfl

/-- PDEC of the bytes of two coordinates writes them if they are a valid point (R151). -/
theorem execPdec_of_coordinates {x y : Nat} (h : decodePoint (s.ibuf.readBytes 0 s.ilen.toNat) = some (x, y)) :
    exec (.pdec pd) s = if validPoint (.aff x y) then .next ((s.setPoint pd (.aff x y)).complete false 0 none)
      else .next (s.complete false 0 (some .invalidPoint)) := by
  show execPdec pd s = _
  rw [execPdec, withIn_ok s _ hl, h]
  rfl

end

/-- Settles O31, by the form of the input. -/
theorem pointDecode : Obligations.PointDecode := by
  refine fun s pd x y hl => ⟨fun h64 h65 => ?_, fun hform => ?_⟩
  · exact execPdec_of_malformed pd hl (decodePoint_of_malformed _ h64 h65)
  · have hdec : decodePoint (s.ibuf.readBytes 0 s.ilen.toNat) = some (x, y) := by
      rcases hform with ⟨hlen, h4, rfl, rfl⟩ | ⟨hlen, rfl, rfl⟩
      · rw [hlen, decodePoint_of_prefixed _ h4]
      · rw [hlen, decodePoint_of_bare]
    rw [execPdec_of_coordinates pd hl hdec]
    exact ⟨fun hv => if_pos hv, fun hv => if_neg (by simp [hv])⟩

/-- Settles O33: both sides of a law stand for one point of the curve, in whose group the law holds; `n` kills every
point. -/
theorem groupLaws : Obligations.GroupLaws := by
  have := Fact.mk curveP_prime
  intro p q t hp hq ht
  obtain ⟨P, hP⟩ := rep_of_valid hp
  obtain ⟨Q, hQ⟩ := rep_of_valid hq
  obtain ⟨T, hT⟩ := rep_of_valid ht
  have hcomm : Rep (ptAdd q p) (P + Q) := add_comm Q P ▸ hQ.add hP
  have hassoc : Rep (ptAdd p (ptAdd q t)) (P + Q + T) := add_assoc P Q T ▸ hP.add (hQ.add hT)
  have hsum : ∀ j k, Rep (ptAdd (scalarMul p j) (scalarMul p k)) ((j + k) • P) := fun j k =>
    add_nsmul P j k ▸ (hP.scalarMul j).add (hP.scalarMul k)
  have hprod : ∀ j k, Rep (scalarMul (scalarMul p j) k) ((j * k % curveN) • P) := fun j k => by
    rw [← nsmul_eq_mod_nsmul _ (curveN_nsmul P), mul_nsmul]
    exact (hP.scalarMul j).scalarMul k
  exact ⟨(hP.add hQ).valid_or_inf, hP.double.valid_or_inf, fun k => (hP.scalarMul k).valid_or_inf,
    (hP.add hQ).unique hcomm, ((hP.add hQ).add hT).unique hassoc, hP.double.unique (hP.add hP),
    fun j k => (hP.scalarMul (j + k)).unique (hsum j k), (hP.scalarMul curveN).eq_inf_iff.2 (curveN_nsmul P),
    fun j k => (hprod j k).unique (hP.scalarMul _)⟩

end Sys2Proof.Machine

/-! The SM3 family (R170 to R179): the message words and the rounds of the compression function as sequences, the
padding in numbers, and the two ways to a digest, which fold the same blocks. -/
namespace Sys2Proof.Machine

@[simp] theorem expandSteps_length (k : Nat) (ws : List Word) : (expandSteps k ws).length = ws.length + k := by
  induction k generalizing ws with
  | zero => rfl
  | succ k ih => rw [expandSteps, ih, expandStep, List.length_cons, Nat.add_assoc, Nat.add_comm 1]

/-- The expansion keeps the words it has and puts the new ones before them. -/
theorem expandSteps_getD_add (k i : Nat) (ws : List Word) : (expandSteps k ws).getD (k + i) 0 = ws.getD i 0 := by
  induction k generalizing i ws with
  | zero => rw [expandSteps, Nat.zero_add]
  | succ k ih => rw [expandSteps, Nat.add_right_comm, Nat.add_assoc, ih, expandStep, List.getD_cons_succ]

/-- A word the expansion has put, newest first, in terms of the older ones (R174). -/
theorem expandSteps_getD (k i : Nat) (ws : List Word) (hi : i < k) :
    let w := fun d => (expandSteps k ws).getD (i + d) 0
    w 0 = sm3P1 (w 16 ^^^ w 9 ^^^ (w 3).rotateLeft 15) ^^^ (w 13).rotateLeft 7 ^^^ w 6 := by
  induction k generalizing ws with
  | zero => exact absurd hi (Nat.not_lt_zero i)
  | succ k ih =>
    rcases Nat.lt_succ_iff_lt_or_eq.1 hi with hlt | rfl
    · exact ih (expandStep ws) hlt
    · simp only [expandSteps, expandSteps_getD_add]
      rfl

@[simp] theorem blockWords_length (blk : Bytes) : (blockWords blk).length = 16 := by simp [blockWords]

@[simp] theorem expandW_length (blk : Bytes) : (expandW blk).length = 68 := by simp [expandW]

theorem expandW1_length (blk : Bytes) : (expandW1 (expandW blk)).length = 64 := by simp [expandW1]

/-- `W[j]` of a block (R174). -/
def msgWord (blk : Bytes) (j : Nat) : Word := (expandW blk).getD j 0

/-- `W1[j]` of a block (R174). -/
def msgWord1 (blk : Bytes) (j : Nat) : Word := (expandW1 (expandW blk)).getD j 0

/-- The expansion holds the words newest first. -/
theorem msgWord_eq_expandSteps (blk : Bytes) (j : Nat) (hj : j < 68) :
    msgWord blk j = (expandSteps 52 (blockWords blk).reverse).getD (67 - j) 0 := by
  rw [msgWord, expandW, List.getD_reverse _ (by simpa using hj)]
  simp

/-- The first 16 message words are those of the block (R174). -/
theorem msgWord_of_lt (blk : Bytes) (j : Nat) (hj : j < 16) :
    msgWord blk j = BitVec.ofNat 32 (int (slice blk (4 * j) (4 * j + 4))) := by
  rw [msgWord_eq_expandSteps blk j (by omega), show 67 - j = 52 + (15 - j) by omega, expandSteps_getD_add,
    List.getD_reverse _ (by rw [blockWords_length]; omega), blockWords_length, show 16 - 1 - (15 - j) = j by omega]
  simp [blockWords, List.getD_eq_getElem?_getD, hj]

/-- The recurrence of the later message words (R174). -/
theorem msgWord_of_ge (blk : Bytes) (j : Nat) (h16 : 16 ≤ j) (h68 : j < 68) :
    msgWord blk j = sm3P1 (msgWord blk (j - 16) ^^^ msgWord blk (j - 9) ^^^ (msgWord blk (j - 3)).rotateLeft 15) ^^^
      (msgWord blk (j - 13)).rotateLeft 7 ^^^ msgWord blk (j - 6) := by
  have hw : ∀ d, d ≤ 16 →
      msgWord blk (j - d) = (expandSteps 52 (blockWords blk).reverse).getD (67 - j + d) 0 := fun d hd => by
    rw [msgWord_eq_expandSteps blk (j - d) (by omega), show 67 - (j - d) = 67 - j + d by omega]
  have h := expandSteps_getD 52 (67 - j) (blockWords blk).reverse (by omega)
  simpa (disch := omega) only [← hw, Nat.sub_zero] using h

/-- `W1` in terms of `W` (R174). -/
theorem msgWord1_eq (blk : Bytes) (j : Nat) (hj : j < 64) : msgWord1 blk j = msgWord blk j ^^^ msgWord blk (j + 4) := by
  have h0 : j < (expandW blk).length := by rw [expandW_length]; omega
  have h4 : j + 4 < (expandW blk).length := by rw [expandW_length]; omega
  rw [msgWord1, msgWord, msgWord, List.getD_eq_getElem _ _ h0, List.getD_eq_getElem _ _ h4,
    List.getD_eq_getElem _ _ (by rwa [expandW1_length])]
  simp [expandW1, Nat.add_comm]

/-- The eight words before round `j` of the rounds on `s` with the message words of a block (R174). -/
def roundState (blk : Bytes) (s : Sm3Regs) : Nat → Sm3Regs
  | 0 => s
  | j + 1 => sm3Round (roundState blk s j) j (msgWord blk j) (msgWord1 blk j)

/-- The rounds over lists that hold the message words of a block from word `j` on. -/
theorem sm3Rounds_eq_roundState (blk : Bytes) (s : Sm3Regs) (j : Nat) (ws w1s : List Word)
    (hlen : w1s.length ≤ ws.length) (hw : ∀ i, i < w1s.length → ws.getD i 0 = msgWord blk (j + i))
    (hw1 : ∀ i, i < w1s.length → w1s.getD i 0 = msgWord1 blk (j + i)) :
    sm3Rounds j ws w1s (roundState blk s j) = roundState blk s (j + w1s.length) := by
  induction w1s generalizing j ws with
  | nil => cases ws <;> rfl
  | cons w1 w1s ih =>
    cases ws with
    | nil => simp at hlen
    | cons w ws =>
      have h0 : w = msgWord blk j := hw 0 (Nat.succ_pos _)
      have h1 : w1 = msgWord1 blk j := hw1 0 (Nat.succ_pos _)
      have hrest := ih (j + 1) ws (Nat.le_of_succ_le_succ hlen)
        (fun i hi => by rw [Nat.add_right_comm j]; exact hw (i + 1) (Nat.succ_lt_succ hi))
        (fun i hi => by rw [Nat.add_right_comm j]; exact hw1 (i + 1) (Nat.succ_lt_succ hi))
      rw [sm3Rounds, h0, h1, List.length_cons, Nat.add_comm w1s.length, ← Nat.add_assoc]
      exact hrest

/-- The rounds of the compression function are 64 (R174). -/
theorem sm3Rounds_expandW (blk : Bytes) (s : Sm3Regs) :
    sm3Rounds 0 (expandW blk) (expandW1 (expandW blk)) s = roundState blk s 64 := by
  have h := sm3Rounds_eq_roundState blk s 0 (expandW blk) (expandW1 (expandW blk))
    (by rw [expandW1_length, expandW_length]; norm_num) (fun i _ => by rw [Nat.zero_add]; rfl)
    (fun i _ => by rw [Nat.zero_add]; rfl)
  rwa [expandW1_length] at h

/-- SM3BLK with ILEN = 64 compresses the block in IBUF (R177). -/
theorem execSm3blk_of_block {s : State} (h : s.ilen.toNat = 64) :
    exec .sm3blk s = .next (({ s with v := sm3CF s.v (s.ibuf.readBytes 0 64) } : State).complete false 0 none) := by
  have hb := bufBytes_ge
  show execSm3blk s = _
  rw [execSm3blk, if_neg (not_not.2 h), memRead_ok s .ibuf 0 64 h.ge (by rw [capacity_ibuf]; omega)]
  rfl

/-- Settles O34: the message words and the round states are those of the block read from IBUF. -/
theorem sm3Block : Obligations.Sm3Block := by
  refine fun s => ⟨fun h => if_pos h, fun h => ?_⟩
  have hslice : ∀ j, j < 16 → slice (s.ibuf.readBytes 0 64) (4 * j) (4 * j + 4) = s.ibuf.readBytes (4 * j) 4 :=
    fun j hj => by rw [slice_readBytes _ (by omega), Nat.add_sub_cancel_left]
  refine ⟨msgWord (s.ibuf.readBytes 0 64), msgWord1 (s.ibuf.readBytes 0 64), roundState (s.ibuf.readBytes 0 64) _,
    fun j hj => ?_, msgWord_of_ge _, msgWord1_eq _, rfl, fun j _ => ⟨rfl, rfl, rfl, rfl, rfl, rfl, rfl, rfl⟩, ?_⟩
  · rw [← hslice j hj]
    exact msgWord_of_lt _ j hj
  · simp only [execSm3blk_of_block h, sm3CF, sm3Rounds_expandW]

/-- Settles O36: `imod` is the zero count, and BUF_BYTES bounds the bit length below `2^64`. -/
theorem sm3Padding : Obligations.Sm3Padding := by
  intro msg
  have hz := imod_cast (55 - (msg.length : Int)) 64 (by norm_num)
  have hlen := sm3Pad_length msg
  have hb := bufBytes_lt
  refine ⟨imod (55 - (msg.length : Int)) 64, by omega, hz, by simp [sm3Pad], by omega, sm3Pad_dvd msg,
    fun n _ _ => by omega, fun hfit => int_be 8 _ (by norm_num; omega)⟩

theorem isBlank_iff (msg : Bytes) : isBlank msg = true ↔ ∀ b ∈ msg, Config.isWs b = true := List.all_eq_true

/-- SM3HASH of a blank message with BLANKQ = 1 sets OLEN to 0 and keeps V0 to V7 (R178). -/
theorem execSm3hash_of_blank {s : State} (hl : s.ilen.toNat ≤ Config.bufBytes)
    (h : s.cfg.blankq = true ∧ isBlank (s.ibuf.readBytes 0 s.ilen.toNat) = true) :
    exec .sm3hash s = .next ((s.setLen .obuf 0).complete false 0 none) := by
  show execSm3hash s = _
  rw [execSm3hash, withIn_ok s _ hl, h.1, h.2]
  exact putOut_ok s [] _ (Nat.zero_le _)

/-- SM3HASH otherwise leaves the last chaining value in V0 to V7 and the digest in OBUF (R178). -/
theorem execSm3hash_of_not_blank {s : State} (hl : s.ilen.toNat ≤ Config.bufBytes)
    (h : ¬(s.cfg.blankq = true ∧ isBlank (s.ibuf.readBytes 0 s.ilen.toNat) = true)) :
    let msg := s.ibuf.readBytes 0 s.ilen.toNat
    exec .sm3hash s = .next ((({ s with v := sm3Chain msg } : State).put .obuf (sm3 msg)).complete false 0 none) := by
  have hb := bufBytes_ge
  show execSm3hash s = _
  rw [execSm3hash, withIn_ok s _ hl, if_neg (by rwa [Bool.and_eq_true])]
  exact putOut_ok _ _ _ (by rw [sm3_length]; omega)

/-- Settles O35: the chaining values are those after the first `i` blocks. -/
theorem sm3Hash : Obligations.Sm3Hash := by
  intro s hl msg
  rw [← isBlank_iff]
  exact ⟨execSm3hash_of_blank hl, fun h => ⟨fun i => sm3Blocks i (sm3Pad msg) sm3IV, rfl,
    fun i _ => sm3Blocks_succ i _ _, execSm3hash_of_not_blank hl h⟩⟩

/-- The compression over the blocks of a padded message, as a fold over their list (R170). -/
theorem foldl_sm3CF_blocks (k : Nat) (pm : Bytes) (v : Vector Word 8) :
    ((List.range k).map fun i => (pm.drop (64 * i)).take 64).foldl sm3CF v = sm3Blocks k pm v := by
  induction k with
  | zero => rfl
  | succ k ih =>
    rw [List.range_succ, List.map_append, List.foldl_append, ih, sm3Blocks_succ]
    rfl

theorem foldl_padBlocks (msg : Bytes) : (padBlocks msg).foldl sm3CF sm3IV = sm3Chain msg :=
  foldl_sm3CF_blocks _ _ _

/-- The blocks of a padded message have 64 bytes each (R175). -/
theorem length_of_mem_padBlocks {msg b : Bytes} (h : b ∈ padBlocks msg) : b.length = 64 := by
  obtain ⟨i, hi, rfl⟩ := List.mem_map.1 h
  have hi := List.mem_range.1 hi
  rw [List.length_take, List.length_drop]
  omega

/-- SM3BLK on a block just put in IBUF (R177). -/
theorem execSm3blk_put {s : State} (hw : s.ibuf.wf) {b : Bytes} (hb : b.length = 64) :
    exec .sm3blk (s.put .ibuf b) =
      .next (({ s.put .ibuf b with v := sm3CF s.v b } : State).complete false 0 none) := by
  have hread : (s.put .ibuf b).ibuf.readBytes 0 64 = b := hb ▸ Memory.readBytes_writeBytes s.ibuf hw 0 b
  have hlen : (s.put .ibuf b).ilen = BitVec.ofNat 32 b.length := rfl
  rw [execSm3blk_of_block (by rw [hlen, hb]; rfl), hread, State.put_v]

/-- One SM3BLK for each block folds the compression over the blocks (R179). -/
theorem hashByBlocks_eq_foldl (bs : List Bytes) (s : State) (hw : s.ibuf.wf) (hbs : ∀ b ∈ bs, b.length = 64) :
    ∃ u, hashByBlocks bs s = .next u ∧ u.v = bs.foldl sm3CF s.v := by
  induction bs generalizing s with
  | nil => exact ⟨s, rfl, rfl⟩
  | cons b bs ih =>
    have hb := hbs b List.mem_cons_self
    rw [hashByBlocks, execSm3blk_put hw hb, thenDo_next]
    exact ih _ (s.ibuf.wf_writeBytes hw 0 b) fun c hc => hbs c (List.mem_cons_of_mem b hc)

/-- Settles O37: both ways fold the compression over the blocks of the padded message, from the initial value. -/
theorem twoHashPathsAgree : Obligations.TwoHashPathsAgree := by
  intro s msg hs hfit hq
  have hb := bufBytes_lt
  obtain ⟨u, hrun, hu⟩ := hashByBlocks_eq_foldl (padBlocks msg)
    (({ s with v := sm3IV } : State).complete false 0 none) (hs.memWf .ibuf) fun _ => length_of_mem_padBlocks
  have hin : (s.put .ibuf msg).ibuf.readBytes 0 (s.put .ibuf msg).ilen.toNat = msg :=
    s.readBytes_put .ibuf (hs.memWf .ibuf) (by omega)
  have hhash := execSm3hash_of_not_blank (hs.put .ibuf msg hfit).ilen_le (by simp [hq])
  rw [hin] at hhash
  have huv : u.v = sm3Chain msg := hu.trans (foldl_padBlocks msg)
  refine ⟨_, u, _, execSm3init_eq s, hrun, hhash, by rw [huv, State.complete_v, State.put_v], ?_, ?_⟩
  · show BitVec.ofNat 32 (sm3 msg).length = 32
    rw [sm3_length]
    rfl
  · rw [huv]
    show (s.obuf.writeBytes 0 (sm3 msg)).readBytes 0 32 = sm3 msg
    rw [← sm3_length msg]
    exact Memory.readBytes_writeBytes s.obuf (hs.memWf .obuf) 0 (sm3 msg)

end Sys2Proof.Machine

/-! The KDF family (R191, R192): the two commands on buffers within their capacity, and the mask applied twice. -/
namespace Sys2Proof.Machine

/-- KDFGEN of an output that fits stores the keystream of AUX (R191). -/
theorem execKdfgen_of_fits {s : State} {l : BitVec 16} (ha : s.alen.toNat ≤ Config.bufBytes)
    (hl : l.toNat ≤ Config.bufBytes) :
    exec (.kdfgen l) s =
      .next ((s.put .obuf (kdf (s.abuf.readBytes 0 s.alen.toNat) l.toNat)).complete false 0 none) := by
  show execKdfgen l s = _
  rw [execKdfgen, if_neg hl.not_gt, withAux_ok s _ ha]
  exact putOut_ok _ _ _ ((kdf_length _ _).trans_le hl)

/-- Settles O39: BUF_BYTES decides the branch, and 16 bits of length keep the block counter below `2^32`. -/
theorem kdfGenerate : Obligations.KdfGenerate := by
  refine fun s l ha => ⟨fun hl => if_pos hl, fun hl => ?_⟩
  refine ⟨_, kdf_length _ _, fun j hj => ?_, execKdfgen_of_fits ha hl⟩
  have hl16 : l.toNat < 2 ^ 16 := l.isLt
  exact kdf_getD _ _ _ hj (by omega)

/-- KDFXOR stores IN masked with the keystream of AUX (R192). -/
theorem execKdfxor_of_fits {s : State} (ha : s.alen.toNat ≤ Config.bufBytes) (hi : s.ilen.toNat ≤ Config.bufBytes) :
    exec .kdfxor s = .next ((s.put .obuf (xorBytes (s.ibuf.readBytes 0 s.ilen.toNat)
      (kdf (s.abuf.readBytes 0 s.alen.toNat) s.ilen.toNat))).complete false 0 none) := by
  show execKdfxor s = _
  rw [execKdfxor, withAux_ok s _ ha, withIn_ok s _ hi]
  exact putOut_ok _ _ _ (by simpa using hi)

/-- KDFXOR of a masked string stores the string: the mask has its length, hence meets the same keystream (R192). -/
theorem execKdfxor_of_masked {s : State} {m : Bytes} (ha : s.alen.toNat ≤ Config.bufBytes)
    (hi : s.ilen.toNat ≤ Config.bufBytes)
    (hin : s.ibuf.readBytes 0 s.ilen.toNat = xorBytes m (kdf (s.abuf.readBytes 0 s.alen.toNat) m.length)) :
    exec .kdfxor s = .next ((s.put .obuf m).complete false 0 none) := by
  have hlen : s.ilen.toNat = m.length := by simpa using congrArg List.length hin
  rw [execKdfxor_of_fits ha hi, hin, hlen, xorBytes_xorBytes m _ (kdf_length _ _).ge]

/-- The length register after a string of a length it can hold was put in its buffer (R81). -/
theorem State.len_put_of_length (s : State) (b : Buf) {v : Bytes} {w : Word} (h : v.length = w.toNat) :
    (s.put b v).len b = w := by
  rw [State.len_put, if_pos rfl, h, BitVec.ofNat_toNat, BitVec.setWidth_eq]

/-- Settles O40: the first run stores the mask of the input, and the second finds it in IBUF. -/
theorem kdfMask : Obligations.KdfMask := by
  intro s hs
  have hi := hs.ilen_le
  have hb := bufBytes_lt
  set m := s.ibuf.readBytes 0 s.ilen.toNat with hm
  set v := xorBytes m (kdf (s.abuf.readBytes 0 s.alen.toNat) s.ilen.toNat) with hv
  have hml : m.length = s.ilen.toNat := Memory.readBytes_length _ _ _
  have hvl : v.length = s.ilen.toNat := by simp [hv, hml]
  refine ⟨v, hvl, fun j hj => ?_, execKdfxor_of_fits hs.alen_le hi, ?_⟩
  · rw [hv, xorBytes_getD _ _ (by rwa [hml]) (by rwa [kdf_length]), hm, Memory.readBytes_getD _ _ _ _ hj, Nat.zero_add]
  · set t := (s.put .obuf v).complete false 0 none
    have ht : t.Inv := (hs.put .obuf v (hvl.trans_le hi)).complete _ _ _ (by simp)
    have hu : (t.put .ibuf v).Inv := ht.put .ibuf v (hvl.trans_le hi)
    have hin := t.readBytes_put .ibuf (v := v) (ht.memWf _) (by omega)
    have hrun := execKdfxor_of_masked (m := m) hu.alen_le hu.ilen_le (hin.trans (by rw [hml]; rfl))
    have hol := (t.put .ibuf v).len_put_of_length .obuf hml
    exact ⟨_, hrun, hol, hol ▸ State.readBytes_put _ .obuf (hu.memWf _) (by omega)⟩

end Sys2Proof.Machine

/-! The DER codec (R200 to R205): the content of an INTEGER is the only minimal form of its number, hence the strict parser
inverts the encoder; DERENC, DERDEC. -/
namespace Sys2Proof.Machine

theorem lt_bitlen_of_le {k v : Nat} (h : 2 ^ k ≤ v) : k < bitlen v :=
  (Nat.pow_lt_pow_iff_right (by decide)).1 (h.trans_lt (lt_two_pow_bitlen v))

/-- The shortest form of a number that needs exactly `k + 1` bytes (R201). -/
theorem minimalBytes_eq_be {k v : Nat} (hlow : k = 0 ∨ 256 ^ k ≤ v) (hv : v < 256 ^ (k + 1)) :
    minimalBytes v = be (k + 1) v := by
  have hpow (j : Nat) : 256 ^ j = 2 ^ (8 * j) := (pow_mul 2 8 j).symm
  have hle : bitlen v ≤ 8 * (k + 1) := bitlen_le v _ (hpow _ ▸ hv)
  have hlt : k = 0 ∨ 8 * k < bitlen v := hlow.imp_right fun h => lt_bitlen_of_le (hpow k ▸ h)
  rw [minimalBytes, show max 1 ((bitlen v + 7) / 8) = k + 1 by omega]

/-- The first of `k + 1` bytes is the quotient of the number by `256 ^ k` (R9). -/
theorem headD_be_toNat {k v : Nat} (hv : v < 256 ^ (k + 1)) : ((be (k + 1) v).headD 0).toNat = v / 256 ^ k := by
  have hq : v / 256 ^ k < 2 ^ 8 := Nat.div_lt_of_lt_mul (pow_succ 256 k ▸ hv)
  exact Nat.mod_eq_of_lt hq

/-- No zero byte is prepended when the high bit is clear (R201). -/
theorem derContent_of_high_bit_clear {k v : Nat} (hlow : k = 0 ∨ 256 ^ k ≤ v) (hv : v < 0x80 * 256 ^ k) :
    derContent v = be (k + 1) v := by
  have hv' : v < 256 ^ (k + 1) := by rw [pow_succ]; omega
  have hhead : v / 256 ^ k < 0x80 := Nat.div_lt_of_lt_mul (by rwa [Nat.mul_comm])
  rw [derContent, minimalBytes_eq_be hlow hv', headD_be_toNat hv', if_neg (by omega)]

/-- A zero byte is prepended when the high bit is set (R201). -/
theorem derContent_of_high_bit_set {k v : Nat} (hlow : 0x80 * 256 ^ k ≤ v) (hv : v < 256 ^ (k + 1)) :
    derContent v = 0x00#8 :: be (k + 1) v := by
  have hhead : 0x80 ≤ v / 256 ^ k := (Nat.le_div_iff_mul_le (by positivity)).2 hlow
  rw [derContent, minimalBytes_eq_be (.inr (by omega)) hv, headD_be_toNat hv, if_pos hhead]

/-- A non-negative content without a superfluous leading zero byte is the content of its integer (R201, R205). -/
theorem derContent_int {c : Bytes} (hne : c ≠ []) (hpos : (c.getD 0 0).toNat < 0x80)
    (hmin : 2 ≤ c.length → c.getD 0 0 = 0 → 0x80 ≤ (c.getD 1 0).toNat) : derContent (int c) = c := by
  cases c with
  | nil => exact absurd rfl hne
  | cons a t =>
    have ht := int_lt t
    have hint := int_cons a t
    have hpos : a.toNat < 0x80 := hpos
    by_cases ha : a = 0 ∧ t ≠ []
    · obtain ⟨rfl, htne⟩ := ha
      obtain ⟨b, t, rfl⟩ := List.exists_cons_of_ne_nil htne
      have hb : 0x80 ≤ b.toNat := hmin (by simp) rfl
      have hlow : 0x80 * 256 ^ t.length ≤ int (b :: t) :=
        (Nat.mul_le_mul_right _ hb).trans (by rw [int_cons]; exact Nat.le_add_right _ _)
      rw [hint, show (0 : Byte).toNat = 0 from rfl, Nat.zero_mul, Nat.zero_add, derContent_of_high_bit_set hlow ht]
      exact congrArg _ (be_int (b :: t))
    · have hlow : t.length = 0 ∨ 256 ^ t.length ≤ int (a :: t) := by
        rcases eq_or_ne t [] with rfl | hne
        · exact .inl rfl
        · have ha : 1 ≤ a.toNat := Nat.one_le_iff_ne_zero.2 fun h => ha ⟨BitVec.eq_of_toNat_eq h, hne⟩
          exact .inr (hint ▸ (Nat.le_mul_of_pos_left _ ha).trans (Nat.le_add_right _ _))
      have hv : int (a :: t) < 0x80 * 256 ^ t.length := by
        have := Nat.mul_le_mul_right (256 ^ t.length) (Nat.le_of_lt_succ hpos)
        omega
      rw [derContent_of_high_bit_clear hlow hv]
      exact be_int (a :: t)

/-- A number of 33 bytes is below 2^256 exactly when the first byte is zero (R205). -/
theorem int_lt_two_pow_256_iff {c : Bytes} (h : c.length = 33) : int c < 2 ^ 256 ↔ c.getD 0 0 = 0 := by
  cases c with
  | nil => cases h
  | cons a t =>
    have ht : t.length = 32 := by simpa using h
    have hlt := int_lt t
    rw [int_cons, ht] at *
    rw [← BitVec.toNat_inj]
    show _ ↔ a.toNat = 0
    norm_num at hlt ⊢
    omega

/-- The tests of the parser on a content octet by octet (R205). -/
theorem derContentOk_iff (c : Bytes) : derContentOk c = true ↔ (c.getD 0 0).toNat < 0x80 ∧
    (2 ≤ c.length → c.getD 0 0 = 0 → 0x80 ≤ (c.getD 1 0).toNat) ∧ (c.length = 33 → c.getD 0 0 = 0) := by
  have hzero : c.getD 0 0 = 0 ↔ (c.getD 0 0).toNat = 0 := BitVec.toNat_inj.symm
  simp only [derContentOk, hzero, Bool.and_eq_true, Bool.not_eq_true', Bool.and_eq_false_iff, decide_eq_false_iff_not]
  omega

/-- The tests of the parser pass exactly the content octets of the numbers below 2^256 (R201, R205). -/
theorem derContentOk_iff_derContent {c : Bytes} (h1 : 1 ≤ c.length) (h33 : c.length ≤ 33) :
    derContentOk c = true ↔ int c < 2 ^ 256 ∧ derContent (int c) = c := by
  rw [derContentOk_iff]
  constructor
  · rintro ⟨hpos, hmin, htop⟩
    refine ⟨?_, derContent_int (List.ne_nil_of_length_pos h1) hpos hmin⟩
    rcases h33.eq_or_lt with h | h
    · exact (int_lt_two_pow_256_iff h).2 (htop h)
    · exact (int_lt c).trans_le (Nat.pow_le_pow_right (by decide) (Nat.le_of_lt_succ h))
  · rintro ⟨hv, hc⟩
    have hpos := derContent_head (int c)
    have hmin := derContent_minimal (int c)
    rw [hc] at hpos hmin
    exact ⟨hpos, hmin, fun h => (int_lt_two_pow_256_iff h).1 hv⟩

/-- The tests of one pass of the parser, and what it answers when all pass (R205). -/
theorem derParseInt_cons (tag len : Byte) (t : Bytes) :
    derParseInt (tag :: len :: t) = if tag = 0x02#8 ∧ 1 ≤ len.toNat ∧ len.toNat ≤ 33 ∧ len.toNat ≤ t.length ∧
      derContentOk (t.take len.toNat) = true then some (int (t.take len.toNat), t.drop len.toNat) else none := by
  rw [derParseInt]
  by_cases htag : tag = 0x02#8
  · by_cases hlen : 1 ≤ len.toNat ∧ len.toNat ≤ 33
    · by_cases hfit : len.toNat ≤ t.length
      · simp [htag, hlen, hfit, show ¬(len.toNat = 0 ∨ 0x80 ≤ len.toNat ∨ 33 < len.toNat) by omega]
      · simp [htag, hlen, hfit, not_le.1 hfit]
    · rw [if_neg (not_not.2 htag), if_pos (by omega), if_neg (fun ⟨_, h1, h33, _⟩ => hlen ⟨h1, h33⟩)]
  · rw [if_pos htag, if_neg (fun ⟨h, _⟩ => htag h)]

/-- One pass of the parser accepts exactly the INTEGERs below 2^256 (R201, R205). -/
theorem derParseInt_eq_some_iff {b : Bytes} {v : Nat} {rest : Bytes} :
    derParseInt b = some (v, rest) ↔ v < 2 ^ 256 ∧ b = derInt v ++ rest := by
  constructor
  · match b with
    | [] | [_] => simp [derParseInt]
    | tag :: len :: t =>
      rw [derParseInt_cons, Option.ite_none_right_eq_some]
      rintro ⟨⟨rfl, h1, h33, hfit, hok⟩, h⟩
      obtain ⟨rfl, rfl⟩ := Prod.mk.inj (Option.some.inj h)
      have hlen : (t.take len.toNat).length = len.toNat := List.length_take_of_le hfit
      obtain ⟨hv, hc⟩ := (derContentOk_iff_derContent (h1.trans_eq hlen.symm) (hlen.trans_le h33)).1 hok
      refine ⟨hv, ?_⟩
      rw [derInt, hc, hlen]
      simp
  · rintro ⟨hv, rfl⟩
    obtain ⟨h1, h33⟩ := derContent_length v hv
    have hok := (derContentOk_iff_derContent h1 h33).2 (by rw [int_derContent]; exact ⟨hv, rfl⟩)
    have hlen : (BitVec.ofNat 8 (derContent v).length).toNat = (derContent v).length := Nat.mod_eq_of_lt (by omega)
    show derParseInt (_ :: _ :: (derContent v ++ rest)) = _
    rw [derParseInt_cons, hlen, List.take_left, List.drop_left, int_derContent,
      if_pos ⟨rfl, h1, h33, by simp, hok⟩]

/-- The body of the SEQUENCE holds exactly two INTEGERs (R200, R205). -/
theorem derParseBody_eq_some_iff {b : Bytes} {r s : Nat} :
    derParseBody b = some (r, s) ↔ r < 2 ^ 256 ∧ s < 2 ^ 256 ∧ b = derInt r ++ derInt s := by
  have hlast (rest : Bytes) : derParseInt rest = some (s, []) ↔ s < 2 ^ 256 ∧ rest = derInt s := by
    rw [derParseInt_eq_some_iff, List.append_nil]
  constructor
  · intro h
    unfold derParseBody at h
    split at h
    · cases h
    · next hr =>
      split at h
      · next hs =>
        cases h
        obtain ⟨hrlt, rfl⟩ := derParseInt_eq_some_iff.1 hr
        obtain ⟨hslt, rfl⟩ := (hlast _).1 hs
        exact ⟨hrlt, hslt, rfl⟩
      · cases h
  · rintro ⟨hr, hs, rfl⟩
    rw [derParseBody, derParseInt_eq_some_iff.2 ⟨hr, rfl⟩]
    simp only [(hlast _).2 ⟨hs, rfl⟩]

/-- The tests of the parser on the header of the SEQUENCE (R205). -/
theorem derParse_cons (tag len : Byte) (t : Bytes) :
    derParse (tag :: len :: t) = if 6 ≤ t.length ∧ t.length ≤ 70 ∧ tag = 0x30#8 ∧ len = BitVec.ofNat 8 t.length
      then derParseBody t else none := by
  rw [derParse, List.length_cons, List.length_cons]
  by_cases hl : 6 ≤ t.length ∧ t.length ≤ 70
  · have hlen : len = BitVec.ofNat 8 t.length ↔ len.toNat = t.length := by
      rw [← BitVec.toNat_inj, BitVec.toNat_ofNat, Nat.mod_eq_of_lt (by omega)]
    rw [if_neg (by omega)]
    by_cases htag : tag = 0x30#8
    · by_cases heq : len.toNat = t.length
      · rw [if_neg (not_not.2 htag), if_neg (by omega), if_neg (not_not.2 heq),
          if_pos ⟨hl.1, hl.2, htag, hlen.2 heq⟩]
      · simp [htag, hlen, heq]
    · simp [htag]
  · rw [if_pos (by omega), if_neg (fun ⟨h6, h70, _⟩ => hl ⟨h6, h70⟩)]

/-- The parser accepts exactly the encodings of pairs below 2^256 (R205). -/
theorem derParse_eq_some_iff {b : Bytes} {r s : Nat} :
    derParse b = some (r, s) ↔ r < 2 ^ 256 ∧ s < 2 ^ 256 ∧ b = der r s := by
  constructor
  · match b with
    | [] | [_] => simp [derParse]
    | tag :: len :: t =>
      rw [derParse_cons, Option.ite_none_right_eq_some, derParseBody_eq_some_iff]
      rintro ⟨⟨-, -, rfl, rfl⟩, hr, hs, rfl⟩
      exact ⟨hr, hs, rfl⟩
  · rintro ⟨hr, hs, rfl⟩
    have hmax := der_length_le r s hr hs
    have hmin := der_length r s
    have hcr := derContent_length r hr
    have hcs := derContent_length s hs
    have hbody : (der r s).length = (derInt r ++ derInt s).length + 2 := rfl
    show derParse (_ :: _ :: (derInt r ++ derInt s)) = _
    rw [derParse_cons, if_pos ⟨by omega, by omega, rfl, rfl⟩, derParseBody_eq_some_iff]
    exact ⟨hr, hs, rfl⟩

/-- Settles O41: both directions of the acceptance of the parser. -/
theorem derRoundTrip : Obligations.DerRoundTrip := by
  refine ⟨fun r s hr hs => derParse_eq_some_iff.2 ⟨hr, hs, rfl⟩, fun b r s h => ?_⟩
  obtain ⟨hr, hs, rfl⟩ := derParse_eq_some_iff.1 h
  exact ⟨rfl, hr, hs⟩

/-- A string that encodes no pair is malformed (R205). -/
theorem derParse_eq_none {b : Bytes} (h : ∀ v1 v2 : Big, b ≠ der v1.toNat v2.toNat) : derParse b = none := by
  cases hp : derParse b with
  | none => rfl
  | some v =>
    obtain ⟨hr, hs, hb⟩ := derParse_eq_some_iff.1 hp
    refine absurd ?_ (h (BitVec.ofNat 256 v.1) (BitVec.ofNat 256 v.2))
    rwa [BitVec.toNat_ofNat, BitVec.toNat_ofNat, Nat.mod_eq_of_lt hr, Nat.mod_eq_of_lt hs]

/-- The encoding of two numbers, written out with their content octets (R200, R201). -/
theorem der_eq_append (r s : Nat) : der r s =
    [0x30#8, BitVec.ofNat 8 (4 + (derContent r).length + (derContent s).length), 0x02#8,
      BitVec.ofNat 8 (derContent r).length] ++ derContent r ++
      [0x02#8, BitVec.ofNat 8 (derContent s).length] ++ derContent s := by
  have hbody : (derInt r ++ derInt s).length = 4 + (derContent r).length + (derContent s).length := by
    simp only [derInt, List.length_append, List.length_cons]
    omega
  rw [der, hbody]
  simp [derInt]

/-- The content of a number of one byte with the high bit clear (R201). -/
theorem derContent_of_lt {v : Nat} (h : v < 0x80) : derContent v = [BitVec.ofNat 8 v] := by
  rw [derContent_of_high_bit_clear (k := 0) (.inl rfl) h]
  simp [be]

/-- The content of a number with bit 255 set (R201). -/
theorem derContent_of_bit_255 {v : Nat} (hlow : 2 ^ 255 ≤ v) (hv : v < 2 ^ 256) : derContent v = 0x00#8 :: be 32 v :=
  derContent_of_high_bit_set (k := 31) hlow hv

/-- Settles O42: the content octets of each integer, and the two extreme forms. -/
theorem derSize : Obligations.DerSize := by
  intro r s hr hs content
  have hcontent {v : Nat} (hv : v < 2 ^ 256) : content v (derContent v) :=
    ⟨int_derContent v, (derContent_length v hv).1, (derContent_length v hv).2, derContent_head v, derContent_minimal v⟩
  have hmin := der_length r s
  have hcr := derContent_length r hr
  have hcs := derContent_length s hs
  refine ⟨⟨_, _, hcontent hr, hcontent hs, der_eq_append r s⟩, by omega, der_length_le r s hr hs, fun hr hs => ?_,
    fun hr' hs' => ?_⟩
  · rw [der_eq_append, derContent_of_lt hr, derContent_of_lt hs]
    rfl
  · rw [der_eq_append, derContent_of_bit_255 hr' hr, derContent_of_bit_255 hs' hs]
    simp

/-- DERDEC of an encoding stores its two integers (R205). -/
theorem execDerdec_of_encoding {s : State} {rd re : Reg} {v1 v2 : Nat} (hne : rd ≠ re) (hl : s.siglen.toNat ≤ 72)
    (h : derParse (s.sigbuf.readBytes 0 s.siglen.toNat) = some (v1, v2)) :
    exec (.derdec rd re) s = .next (((s.setRegNat rd v1).setRegNat re v2).complete false 0 none) := by
  show execDerdec rd re s = _
  rw [execDerdec, if_neg hne, withSig_ok s _ hl, h]
  rfl

/-- DERDEC of anything else raises SignatureFormatError (R205). -/
theorem execDerdec_of_malformed {s : State} {rd re : Reg} (hne : rd ≠ re) (hl : s.siglen.toNat ≤ 72)
    (h : derParse (s.sigbuf.readBytes 0 s.siglen.toNat) = none) :
    exec (.derdec rd re) s = .next (s.complete false 0 (some .signatureFormat)) := by
  show execDerdec rd re s = _
  rw [execDerdec, if_neg hne, withSig_ok s _ hl, h]
  rfl

/-- Settles O43: SIGBUF has room for every encoding, and the parser decides whether it holds one. -/
theorem derCommands : Obligations.DerCommands := by
  refine fun s => ⟨fun ra rb => putSig_ok s _ succeed (der_length_le _ _ (s.regNat_lt ra) (s.regNat_lt rb)),
    fun rd re hne hl => ⟨fun v1 v2 h => ?_, fun h => execDerdec_of_malformed hne hl (derParse_eq_none h)⟩⟩
  rw [execDerdec_of_encoding hne hl (derParse_eq_some_iff.2 ⟨v1.isLt, v2.isLt, h⟩)]
  simp [State.setRegNat]

end Sys2Proof.Machine

/-! SM2VFY (R228): no test raises, and the tests that pass are those of the statement. -/
namespace Sys2Proof.Machine

/-- `Verify()` is true exactly when every test of R228 passes. -/
theorem verify_eq_true_iff (sig : Bytes) (q : AffinePoint) (ident msg : Bytes) :
    verify sig q ident msg = true ↔ ∃ r sg xq yq x1 y1 : Nat, sig = der r sg ∧
      1 ≤ r ∧ r ≤ curveN - 1 ∧ 1 ≤ sg ∧ sg ≤ curveN - 1 ∧ ident.length ≤ 8191 ∧
      q = .aff xq yq ∧ validPoint (.aff xq yq) = true ∧ (r + sg) % curveN ≠ 0 ∧
      ptAdd (scalarMul baseG sg) (scalarMul (.aff xq yq) ((r + sg) % curveN)) = .aff x1 y1 ∧
      (digestE ident xq yq msg + x1) % curveN = r := by
  constructor
  · intro h
    unfold verify at h
    split at h
    · next r sg xq yq hp =>
      dsimp only at h
      split_ifs at h with hr hs hi hv ht
      split at h
      · cases h
      · next x1 y1 ha =>
        obtain ⟨-, -, hsig⟩ := derParse_eq_some_iff.1 hp
        exact ⟨r, sg, xq, yq, x1, y1, hsig, by omega, by omega, by omega, by omega, not_lt.1 hi, rfl,
          by simpa using hv, ht, ha, of_decide_eq_true h⟩
    · cases h
  · rintro ⟨r, sg, xq, yq, x1, y1, hsig, hr1, hrn, hs1, hsn, hi, rfl, hv, ht, ha, he⟩
    have hn : curveN - 1 < 2 ^ 256 := by decide
    have hp := derParse_eq_some_iff.2 ⟨hrn.trans_lt hn, hsn.trans_lt hn, hsig⟩
    rw [verify_eq sig r sg xq yq x1 y1 ident msg hp ⟨hr1, hrn⟩ ⟨hs1, hsn⟩ hi hv ht ha, decide_eq_true he]

/-- SM2VFY on buffers within their capacity answers `Verify()` (R228). -/
theorem execSm2vfy_of_fits {s : State} (hsig : s.siglen.toNat ≤ 72) (ha : s.alen.toNat ≤ Config.bufBytes)
    (hi : s.ilen.toNat ≤ Config.bufBytes) :
    exec .sm2vfy s = .next (s.complete (verify (s.sigbuf.readBytes 0 s.siglen.toNat) (s.point 0) (identOf s)
      (s.ibuf.readBytes 0 s.ilen.toNat)) 0 none) := by
  show execSm2vfy s = _
  rw [execSm2vfy, withSig_ok s _ hsig, withIdent_ok s _ ha, withIn_ok s _ hi, answer_eq]

/-- Settles O48: RESULT is `Verify()` of the buffers, read test by test. -/
theorem verifyAnswers : Obligations.VerifyAnswers :=
  fun _ hsig ha hi => ⟨_, execSm2vfy_of_fits hsig ha hi, verify_eq_true_iff _ _ _ _⟩

end Sys2Proof.Machine

/-! SM2KEY, SM2Z and SM2SIGN (R219, R220, R222), and both public-key commands on an empty IBUF (R235). -/
namespace Sys2Proof.Machine

/-- Settles O54: the test for ILEN = 0 is the first of both commands. -/
theorem emptyPlaintext : Obligations.EmptyPlaintext := by
  intro s h
  have h0 : s.ilen.toNat = 0 := congrArg BitVec.toNat h
  have hput : putOut s [] succeed = .next ((s.setLen .obuf 0).complete false 0 none) := putOut_ok s [] _ (Nat.zero_le _)
  exact ⟨(if_pos h0).trans hput, (if_pos h0).trans hput⟩

/-- The public key of a valid scalar is a valid point (R140, R144). -/
theorem validPoint_scalarMul_baseG {d : Nat} (h1 : 1 ≤ d) (h2 : d ≤ curveN - 2) :
    validPoint (scalarMul baseG d) = true := by
  obtain ⟨x, y, h⟩ := scalarMul_baseG_of_valid h1 h2
  exact (scalarMul_baseG_valid_or_inf d).resolve_right (by simp [h])

theorem execSm2key_of_valid {s : State} (h1 : 1 ≤ s.regNat 0) (h2 : s.regNat 0 ≤ curveN - 2) :
    exec .sm2key s = .next ((s.setPoint 0 (scalarMul baseG (s.regNat 0))).complete false 0 none) :=
  if_pos ((validScalar_iff _).2 ⟨h1, h2⟩)

/-- Settles O44, by the range of the scalar in `r0`. -/
theorem keyDerivation : Obligations.KeyDerivation := fun _ =>
  ⟨fun h1 h2 => ⟨validPoint_scalarMul_baseG h1 h2, execSm2key_of_valid h1 h2⟩,
    fun hd => if_neg fun hv => hd ((validScalar_iff _).1 hv)⟩

/-- A register that holds a valid point holds its two fields as coordinates (R24, R140). -/
theorem State.point_of_valid {s : State} {k : PReg} (h : validPoint (s.point k) = true) :
    s.point k = .aff (s.preg k).x.toNat (s.preg k).y.toNat := by
  unfold State.point PointReg.value at h ⊢
  split
  · next hinf => simp [hinf, validPoint] at h
  · rfl

section
variable {s : State} (ha : s.alen.toNat ≤ Config.bufBytes)
include ha

theorem execSm2z_of_long (hi : Config.idMax < (identOf s).length) :
    exec .sm2z s = .next ((s.setLen .obuf 0).complete false 0 (some .validation)) := by
  show execSm2z s = _
  rw [execSm2z, withIdent_ok s _ ha]
  exact if_pos hi

theorem execSm2z_of_invalid (hi : (identOf s).length ≤ Config.idMax) (hv : validPoint (s.point 0) = false) :
    exec .sm2z s = .next ((s.setLen .obuf 0).complete false 0 (some .invalidPoint)) := by
  show execSm2z s = _
  rw [execSm2z, withIdent_ok s _ ha, if_neg (not_lt.2 hi)]
  cases hp : s.point 0 with
  | inf => rfl
  | aff x y => exact if_neg (by simp [← hp, hv])

theorem execSm2z_of_valid (hi : (identOf s).length ≤ Config.idMax) (hv : validPoint (s.point 0) = true) :
    exec .sm2z s = .next ((s.put .obuf (zValue (identOf s) (s.preg 0).x.toNat (s.preg 0).y.toNat)).complete
      false 0 none) := by
  have hp := State.point_of_valid hv
  have hz : (zValue (identOf s) (s.preg 0).x.toNat (s.preg 0).y.toNat).length ≤ Config.bufBytes :=
    (sm3_length _).trans_le (le_trans (by decide) bufBytes_ge)
  show execSm2z s = _
  rw [execSm2z, withIdent_ok s _ ha, if_neg (not_lt.2 hi), hp]
  exact (if_pos (hp ▸ hv)).trans (putOut_ok s _ _ hz)

end

/-- Settles O45: the two tests in their order, then the digest. -/
theorem zValueCommand : Obligations.ZValueCommand := fun _ ha =>
  ⟨rfl, execSm2z_of_long ha, execSm2z_of_invalid ha, execSm2z_of_valid ha⟩

/-- The pair `(r, sg)` signs the digest scalar `e` for the scalar `d` and the draw `k` with `k·G = (x1, y1)`: the
equations of R222, as congruences. -/
structure Signs (d e k r sg x1 y1 : Nat) : Prop where
  point : scalarMul baseG k = .aff x1 y1
  r_pos : 1 ≤ r
  r_le : r ≤ curveN - 1
  s_pos : 1 ≤ sg
  s_le : sg ≤ curveN - 1
  r_eq : r = (e + x1) % curveN
  r_add_ne : r + k ≠ curveN
  s_modEq : sg * (1 + d) + r * d ≡ k [MOD curveN]

theorem one_add_mod_curveN_ne_zero {d : Nat} (h2 : d ≤ curveN - 2) : (1 + d) % curveN ≠ 0 := by
  rw [Nat.mod_eq_of_lt (by have := curveN_prime.two_le; omega)]
  omega

/-- The `s` of R222 solves the signing equation. -/
theorem signature_modEq {d : Nat} (h2 : d ≤ curveN - 2) (k r : Nat) :
    modInv curveN (1 + d) * imod ((k : Int) - r * d) curveN % curveN * (1 + d) + r * d ≡ k [MOD curveN] := by
  have := Fact.mk curveN_prime
  have hd := (natCast_zmod_ne_zero curveN (1 + d)).2 (one_add_mod_curveN_ne_zero h2)
  rw [← ZMod.natCast_eq_natCast_iff]
  have hinv := modInv_zmod curveN (1 + d) curveN_prime hd
  push_cast at hinv hd ⊢
  rw [ZMod.natCast_mod, Nat.cast_mul, hinv, imod_zmod _ _ curveN_pos]
  push_cast
  field_simp
  ring

/-- An attempt of SM2SIGN that gives a pair gives a signature (R222). -/
theorem signs_of_attemptSign {d e k r sg : Nat} (h2 : d ≤ curveN - 2) (h : attemptSign d e k = some (r, sg)) :
    ∃ x1 y1, Signs d e k r sg x1 y1 := by
  obtain ⟨hr, hs⟩ := attemptSign_lt d e k r sg h
  cases hp : scalarMul baseG k with
  | inf => simp [attemptSign, hp] at h
  | aff x1 y1 =>
    rw [attemptSign_eq d e k x1 y1 hp] at h
    split_ifs at h with hbad hzero
    obtain ⟨hr0, hrk⟩ := not_or.1 hbad
    cases h
    exact ⟨x1, y1, hp, Nat.pos_of_ne_zero hr0, Nat.le_pred_of_lt hr, Nat.pos_of_ne_zero hzero, Nat.le_pred_of_lt hs,
      rfl, hrk, signature_modEq h2 k _⟩

/-- SIGBUF has room for every signature (R200). -/
theorem Signs.der_length_le {d e k r sg x1 y1 : Nat} (h : Signs d e k r sg x1 y1) : (der r sg).length ≤ 72 := by
  have hn : curveN - 1 < 2 ^ 256 := by decide
  exact Machine.der_length_le r sg (h.r_le.trans_lt hn) (h.s_le.trans_lt hn)

theorem signLoop_of_success {d e r sg att : Nat} {s : State} {rng : List Big}
    (h : runLoop (attemptSign d e) s = .success (r, sg) att rng) (hl : (der r sg).length ≤ 72) :
    signLoop d e s =
      .next (((((s.drew rng).setRegNat 1 r).setRegNat 2 sg).put .sigbuf (der r sg)).complete false att none) := by
  rw [signLoop, h]
  exact putSig_ok _ _ _ hl

/-- Settles O46: the loop ends with the attempt of the good draw, which is a signature. -/
theorem signSucceeds : Obligations.SignSucceeds := by
  intro s bad k rest xq yq hs h1 h2 hi hq hr hcap e hbad hgood
  have hdeg := degenerateDraw_sign_iff e h1 h2
  obtain ⟨⟨r, sg⟩, ha, hrun⟩ := runLoop_of_success (attemptSign (s.regNat 0) e) s hr hcap
    (fun x hx => (hdeg x).2 (hbad x hx)) (mt (hdeg k).1 hgood)
  obtain ⟨x1, y1, hsig⟩ := signs_of_attemptSign h2 ha
  exact ⟨r, sg, x1, y1, hsig.point, hsig.r_pos, hsig.r_le, hsig.s_pos, hsig.s_le,
    hsig.r_eq ▸ Nat.mod_modEq _ _, hsig.s_modEq,
    (execSm2sign_eq_signLoop s hs h1 h2 hi hq).trans (signLoop_of_success hrun hsig.der_length_le)⟩

end Sys2Proof.Machine

/-! What is made with the scalar `d` is undone with the public point `d·G`, and the other way round (R229, R244):
multiples of `G` compose by their scalars modulo `n`. -/
namespace Sys2Proof.Machine

/-- Multiples of `G` are determined by their scalars modulo `n`. -/
theorem scalarMul_baseG_congr {j k : Nat} (h : j ≡ k [MOD curveN]) : scalarMul baseG j = scalarMul baseG k := by
  have := Fact.mk curveP_prime
  rw [← addOrderOf_pointG] at h
  have hk := rep_baseG.scalarMul k
  rw [← nsmul_eq_nsmul_iff_modEq.2 h] at hk
  exact (rep_baseG.scalarMul j).unique hk

theorem scalarMul_baseG_add (j k : Nat) : scalarMul baseG (j + k) = ptAdd (scalarMul baseG j) (scalarMul baseG k) := by
  obtain ⟨-, -, -, -, -, -, hadd, -, -⟩ := groupLaws _ _ _ baseG_valid baseG_valid baseG_valid
  exact hadd j k

theorem scalarMul_scalarMul_baseG (j k : Nat) : scalarMul (scalarMul baseG j) k = scalarMul baseG (j * k % curveN) := by
  obtain ⟨-, -, -, -, -, -, -, -, hmul⟩ := groupLaws _ _ _ baseG_valid baseG_valid baseG_valid
  exact hmul j k

/-- The point both parties share (R236, R242). -/
theorem scalarMul_scalarMul_baseG_comm (j k : Nat) :
    scalarMul (scalarMul baseG j) k = scalarMul (scalarMul baseG k) j := by
  rw [scalarMul_scalarMul_baseG, scalarMul_scalarMul_baseG, Nat.mul_comm]

section
variable {d e k r sg x1 y1 : Nat} (h : Signs d e k r sg x1 y1)
include h

/-- The scalar of the verifier's sum is the draw: `sg + d·(r + sg) = k` (R222, R228). -/
theorem Signs.sum_modEq : sg + d * ((r + sg) % curveN) % curveN ≡ k [MOD curveN] :=
  calc sg + d * ((r + sg) % curveN) % curveN
    _ ≡ sg + d * (r + sg) [MOD curveN] := ((Nat.mod_modEq _ _).trans ((Nat.mod_modEq _ _).mul_left d)).add_left sg
    _ = sg * (1 + d) + r * d := by ring
    _ ≡ k [MOD curveN] := h.s_modEq

/-- A signature passes the test `t ≠ 0` of R228: else `sg` would be the draw and `r + k` would be `n`. -/
theorem Signs.sum_ne_zero (hk : k ≤ curveN - 1) : (r + sg) % curveN ≠ 0 := by
  intro h0
  have hsum := h.sum_modEq
  have hsn := h.s_le
  have hr1 := h.r_pos
  have hrn := h.r_le
  have hs1 := h.s_pos
  rw [h0, Nat.mul_zero, Nat.zero_mod, Nat.add_zero] at hsum
  have hsk : sg = k := hsum.eq_of_lt_of_lt (by omega) (by omega)
  have hrs : r + sg = curveN := Nat.eq_of_dvd_of_lt_two_mul (by omega) (Nat.dvd_of_mod_eq_zero h0) (by omega)
  exact h.r_add_ne (hsk ▸ hrs)

/-- The verifier's point is the signer's (R222, R228). -/
theorem Signs.ptAdd_eq : ptAdd (scalarMul baseG sg) (scalarMul (scalarMul baseG d) ((r + sg) % curveN)) = .aff x1 y1 := by
  rw [scalarMul_scalarMul_baseG, ← scalarMul_baseG_add, scalarMul_baseG_congr h.sum_modEq, h.point]

end

/-- A signature of the message's digest verifies under the public key of its scalar (R229). -/
theorem verify_of_signs {d k r sg x1 y1 xq yq : Nat} {ident msg : Bytes} (h1 : 1 ≤ d) (h2 : d ≤ curveN - 2)
    (hk : k ≤ curveN - 1) (hi : ident.length ≤ 8191) (hq : scalarMul baseG d = .aff xq yq)
    (h : Signs d (digestE ident xq yq msg) k r sg x1 y1) :
    verify (der r sg) (scalarMul baseG d) ident msg = true := by
  have hv := validPoint_scalarMul_baseG h1 h2
  have hadd := h.ptAdd_eq
  rw [hq] at hv hadd
  exact (verify_eq_true_iff _ _ _ _).2 ⟨r, sg, xq, yq, x1, y1, rfl, h.r_pos, h.r_le, h.s_pos, h.s_le, hi, hq, hv,
    h.sum_ne_zero hk, hadd, h.r_eq.symm⟩

/-- With a signature of the input in SIGBUF, SM2KEY and then SM2VFY give RESULT = 1 (R219, R228). -/
theorem keyThenVerify_of_signs {t : State} {k r sg x1 y1 xq yq : Nat} (ht : t.Inv) (h1 : 1 ≤ t.regNat 0)
    (h2 : t.regNat 0 ≤ curveN - 2) (hk : k ≤ curveN - 1) (hi : (identOf t).length ≤ 8191)
    (hq : scalarMul baseG (t.regNat 0) = .aff xq yq) (hout : t.sigbuf.readBytes 0 t.siglen.toNat = der r sg)
    (h : Signs (t.regNat 0) (digestE (identOf t) xq yq (t.ibuf.readBytes 0 t.ilen.toNat)) k r sg x1 y1) :
    ∃ u, exec .sm2key t = .next u ∧ u.err = none ∧ exec .sm2vfy u = .next (u.complete true 0 none) := by
  refine ⟨_, execSm2key_of_valid h1 h2, rfl, ?_⟩
  set u := (t.setPoint 0 (scalarMul baseG (t.regNat 0))).complete false 0 none
  have hu : u.Inv := (ht.setPoint 0 _).complete _ _ _ (by simp)
  have hpoint : u.point 0 = scalarMul baseG (t.regNat 0) := t.point_setPoint 0 (scalarMul_baseG_valid_or_inf _)
  have hsigbuf : u.sigbuf.readBytes 0 u.siglen.toNat = der r sg := hout
  have hvfy : verify (der r sg) (scalarMul baseG (t.regNat 0)) (identOf u) (u.ibuf.readBytes 0 u.ilen.toNat) = true :=
    verify_of_signs h1 h2 hk hi hq h
  rw [execSm2vfy_of_fits hu.siglen_le hu.alen_le hu.ilen_le, hsigbuf, hpoint, hvfy]

/-- Settles O49: the only end of SM2SIGN without an error leaves a signature in SIGBUF. -/
theorem signThenVerify : Obligations.SignThenVerify := by
  intro s t hs hfly h hdone herr
  have hreg : t.regNat 0 = s.regNat 0 := congrArg BitVec.toNat ((exec_ended _ s t h).reg_eq (k := 0) (by decide))
  rcases execSm2sign_cases s t h with rfl | ⟨xq, yq, hd, hi, hq, h⟩
  · cases herr
  rcases signLoop_cases _ _ _ _ h with ⟨att, -, rfl⟩ | ⟨att, rng, -, rfl⟩ | ⟨r, sg, att, rng, hrun, hl, rfl⟩
  · exact absurd hdone hfly
  · cases herr
  obtain ⟨-, k, -, -, -, hk, ha, -, -⟩ := runLoop_success _ _ _ _ _ hrun
  rw [← hreg] at hd hq ha
  obtain ⟨h1, h2⟩ := (validScalar_iff _).1 hd
  obtain ⟨x1, y1, hsig⟩ := signs_of_attemptSign h2 ha
  have hw : (((s.drew rng).setRegNat 1 r).setRegNat 2 sg).Inv := ((hs.drew rng).setRegNat 1 r).setRegNat 2 sg
  have hout := State.readBytes_put _ .sigbuf (hw.memWf _) (hl.trans_lt (by decide))
  exact keyThenVerify_of_signs ((hw.put .sigbuf _ hl).complete _ _ _ (by simp)) h1 h2 hk hi hq hout hsig

/-- The part of a string between two others (R9). -/
theorem slice_append_middle (a b c : Bytes) {i j : Nat} (hi : i = a.length) (hj : j = a.length + b.length) :
    slice (a ++ b ++ c) i j = b := by
  subst hi hj
  simp [slice]

theorem slice_append_right (a b : Bytes) {i j : Nat} (hi : i = a.length) (hj : j = a.length + b.length) :
    slice (a ++ b) i j = b := by
  simpa using slice_append_middle a b [] hi hj

theorem joinCipher_length (order : Bool) (c1 c3 c2 : Bytes) :
    (joinCipher order c1 c3 c2).length = c1.length + c2.length + c3.length := by
  cases order <;> simp [joinCipher] <;> omega

/-- C3 and C2 of a ciphertext are found again (R111). -/
theorem splitCipher_joinCipher (order nopfx : Bool) {c1 c3 : Bytes} (c2 : Bytes) (h1 : c1.length = c1Length nopfx)
    (h3 : c3.length = 32) : splitCipher order nopfx (joinCipher order c1 c3 c2) = (c3, c2) := by
  have hlen := joinCipher_length order c1 c3 c2
  cases order with
  | true =>
    have h12 : (c1 ++ c2).length = c1.length + c2.length := List.length_append
    exact Prod.ext (slice_append_right (c1 ++ c2) c3 (by omega) (by omega))
      (slice_append_middle c1 c2 c3 h1.symm (by omega))
  | false =>
    have h13 : (c1 ++ c3).length = c1.length + c3.length := List.length_append
    exact Prod.ext (slice_append_middle c1 c3 c2 h1.symm (by omega))
      (slice_append_right (c1 ++ c3) c2 (by omega) (by omega))

/-- C1 of a ciphertext is decoded to the point it encodes (R110, R111). -/
theorem c1Point_joinCipher (order nopfx : Bool) {x y : Nat} (hx : x < 2 ^ 256) (hy : y < 2 ^ 256) (c3 c2 : Bytes) :
    c1Point nopfx (joinCipher order (encodePoint nopfx x y) c3 c2) = some (x, y) := by
  have hbx : int (be 32 x) = x := int_be 32 x (hx.trans_eq (by norm_num))
  have hby : int (be 32 y) = y := int_be 32 y (hy.trans_eq (by norm_num))
  obtain ⟨rest, hrest⟩ : ∃ rest, joinCipher order (encodePoint nopfx x y) c3 c2 = encodePoint nopfx x y ++ rest := by
    cases order <;> exact ⟨_, List.append_assoc _ _ _⟩
  rw [hrest]
  cases nopfx <;> simp [c1Point, encodePoint, slice, hbx, hby]

/-- What an attempt of SM2ENC encrypts for the public key of `d`, `d` decrypts (R244). -/
theorem decryptBytes_of_attemptEnc {order nopfx : Bool} {d k : Nat} {msg c : Bytes} (h1 : 1 ≤ d) (h2 : d ≤ curveN - 2)
    (h : attemptEnc order nopfx (scalarMul baseG d) msg k = some c) : decryptBytes order nopfx d c = .ok msg := by
  have hlen := attemptEnc_length _ _ _ _ _ _ h
  obtain ⟨x1, y1, x2, y2, hg, hq, rfl⟩ := attemptEnc_eq_some h
  have hv : validPoint (.aff x1 y1) = true := hg ▸ (scalarMul_baseG_valid_or_inf k).resolve_right (by simp [hg])
  obtain ⟨hx, hy, -⟩ := (validPoint_aff x1 y1).1 hv
  have hp : curveP < 2 ^ 256 := modulus_lt .p
  have hm : scalarMul (.aff x1 y1) d = .aff x2 y2 := by rw [← hg, scalarMul_scalarMul_baseG_comm, hq]
  rw [decryptBytes_eq order nopfx d _ x1 y1 x2 y2 ((validScalar_iff d).2 ⟨h1, h2⟩) (by omega)
    (c1Point_joinCipher order nopfx (hx.trans hp) (hy.trans hp) _ _) hv hm,
    splitCipher_joinCipher order nopfx _ (encodePoint_length _ _ _) (sm3_length _)]
  have hmask : (xorBytes msg (kdf (be 32 x2 ++ be 32 y2) msg.length)).length = msg.length := by simp
  rw [hmask, xorBytes_xorBytes msg _ (kdf_length _ _).ge, if_neg (not_not.2 rfl)]

/-- SM2DEC of a ciphertext put in IBUF (R242). -/
theorem execSm2dec_put {t : State} {c msg : Bytes} (ht : t.Inv) (h0 : c ≠ []) (hc : c.length ≤ Config.bufBytes)
    (hm : msg.length ≤ Config.bufBytes)
    (h : decryptBytes t.cfg.order t.cfg.nopfx (t.regNat 0) c = .ok msg) :
    exec .sm2dec (t.put .ibuf c) = .next (((t.put .ibuf c).put .obuf msg).complete false 0 none) := by
  have hb := bufBytes_lt
  have hin : (t.put .ibuf c).ibuf.readBytes 0 (t.put .ibuf c).ilen.toNat = c :=
    t.readBytes_put .ibuf (ht.memWf _) (by omega)
  have hlen : (t.put .ibuf c).ilen.toNat = c.length := by simpa using congrArg List.length hin
  exact execSm2dec_of_ok (by simpa [hlen] using h0) (hlen.trans_le hc) (hin.symm ▸ h) hm

/-- Settles O53: an empty plaintext stays empty; another is decrypted by the shared point. -/
theorem encryptThenDecrypt : Obligations.EncryptThenDecrypt := by
  intro s t hs hfly h1 h2 hq h hdone herr
  rcases execSm2enc_cases s t h with ⟨h0, rfl⟩ | ⟨e, rfl⟩ | ⟨h0, -, h⟩
  · refine ⟨_, (emptyPlaintext _ rfl).2, rfl, (BitVec.eq_of_toNat_eq h0).symm, ?_⟩
    rw [h0]
    rfl
  · cases herr
  rcases encLoop_cases _ _ _ h with ⟨att, -, rfl⟩ | ⟨att, rng, -, rfl⟩ | ⟨c, att, rng, hrun, hl, rfl⟩
  · exact absurd hdone hfly
  · cases herr
  have hi := hs.ilen_le
  have hb := bufBytes_lt
  have hl : c.length ≤ Config.bufBytes := hl
  obtain ⟨-, k, -, -, -, -, ha, -, -⟩ := runLoop_success _ _ _ _ _ hrun
  have hclen := attemptEnc_length _ _ _ _ _ _ ha
  set msg := s.ibuf.readBytes 0 s.ilen.toNat
  have hmsg : msg.length = s.ilen.toNat := Memory.readBytes_length _ _ _
  set t := ((s.drew rng).put .obuf c).complete false att none
  have ht : t.Inv := ((hs.drew rng).put .obuf c hl).complete _ _ _ (by simp)
  have hout : t.obuf.readBytes 0 t.olen.toNat = c :=
    State.readBytes_put _ .obuf ((hs.drew rng).memWf _) (by omega)
  have hdec := execSm2dec_put ht (List.ne_nil_of_length_pos (by omega)) hl (hmsg.trans_le hi)
    (decryptBytes_of_attemptEnc h1 h2 (hq ▸ ha))
  rw [hout]
  exact ⟨_, hdec, rfl, (t.put .ibuf c).len_put_of_length .obuf hmsg,
    State.readBytes_put _ .obuf ((ht.put .ibuf c hl).memWf _) (by omega)⟩

end Sys2Proof.Machine

/-! The sticky error (R263): the issue rule of R95 before and after the status clear of R32. -/
namespace Sys2Proof.Machine

/-- A write to STATUS out of the BUSY interval makes the core ready: a word then written to CMD is in flight (R32, R95). -/
theorem busAll_clear_issue {s : State} (hb : s.busy = false) (w x : Word) :
    ∃ a, busAll [.writeWord (Config.base + 4) x, .writeWord Config.base w] s = .next (State.respond { s with
      inflight := some w
      done := false
      result := false
      err := none
      att := 0 } a) := by
  obtain ⟨-, c, hclear, -⟩ := statusClear s x
  obtain ⟨hissue, a, -, -, hready⟩ :=
    issueRule (State.respond { s with done := false, result := false, err := none, att := 0 } c) w
  refine ⟨a, ?_⟩
  rw [busAll_cons, hclear hb, thenDo_next, busAll_cons, hissue, hready hb rfl, thenDo_next, busAll_nil]
  rfl

/-- Settles O10: the pending error refuses the issue, and the status clear takes the error away. -/
theorem stickyError : Obligations.StickyError := by
  intro s w x he
  obtain ⟨hissue, a, -, hrefused, -⟩ := issueRule s w
  exact ⟨⟨a, hissue.trans (congrArg Host.Outcome.next (hrefused he))⟩, fun hb => busAll_clear_issue hb w x⟩

end Sys2Proof.Machine

/-! The BUSY interval (R297): the host's operations and accesses only answer, STATUS reads 1, reset ends the interval. -/
namespace Sys2Proof.Machine

/-- With a command in flight every abstract operation but reset only answers (R297). -/
theorem hostOp_of_busy {s : State} (hb : s.busy = true) {o : HostOp} (ho : o ≠ .reset) :
    ∃ a, hostOp o s = s.respond a := by
  cases o with
  | writeReg | writePointX | writePointY | writePointInf | writeV | writeBuf | writeLen | writeCfg | writeCap =>
    exact ⟨.ack, writeUnlessBusy_of_busy s _ hb⟩
  | clearStatus => exact ⟨.ack, congrArg (State.respond · .ack) (hostClearStatus_of_busy s hb)⟩
  | issue w => exact ⟨.ack, congrArg (State.respond · .ack) (hostIssue_refused w s (.inl hb))⟩
  | readReg | readPointX | readPointY | readPointInf | readV | readBuf | readLen | readCfg | readCap | readStatus =>
    exact ⟨_, rfl⟩
  | reset => exact absurd rfl ho

/-- With a command in flight a bus access changes the answer and the count of free values only (R297). -/
theorem busAccess_of_busy {s t : State} (hb : s.busy = true) {a : BusAccess} (h : busAccess a s = .next t) :
    ∃ x n, t = { s with resp := x, fresh := n } := by
  obtain ⟨off, -, -, rfl⟩ := busAccess_next a s t h
  rcases accessAt_cases off a s with he | ⟨-, w, o, -, ho, he⟩ | ⟨l, he⟩
  · exact he
  · obtain ⟨x, hx⟩ := hostOp_of_busy hb (o := o) (by rintro rfl; exact wordOp_ne_reset w _ ho)
    exact ⟨x, s.fresh, he.trans hx⟩
  · exact ⟨.ack, s.fresh, he.trans (writeUnlessBusy_of_busy s _ hb)⟩

/-- BUSY excludes DONE, and without DONE the other fields of STATUS are 0 (R49, R95). -/
theorem statusWord_of_busy {s : State} (hs : s.Inv) (hb : s.busy = true) : statusWord s = 1 := by
  have hd := hs.busyNotDone hb
  obtain ⟨hr, he, ha⟩ := hs.notDoneClear hd
  rw [statusWord, hb, hd, hr, he, ha]
  rfl

/-- Settles O20: the accesses one by one, and STATUS by the invariant. -/
theorem busyInterval : Obligations.BusyInterval := by
  intro s hb
  refine ⟨fun o ho => hostOp_of_busy hb ho, fun a t h => busAccess_of_busy hb h, fun hs => ?_, rfl⟩
  exact congrArg (fun w => s.respond (.word w)) (statusWord_of_busy hs hb)

end Sys2Proof.Machine
